-- ==== Sys2Proof/Word.lean ====
section
/-! DEFINITION. Word types of the OOK48 decode block (rules R7, R8, R12 of 00_scope.md). -/

namespace Sys2Proof

/-- An 8-bit value: a character code, a codeword, an immediate. -/
abbrev Byte := BitVec 8

/-- A 32-bit register of the window (R50), also one magnitude (R7). -/
abbrev Word := BitVec 32

/-- A stored Q16 value: 17 bits, 65536 denotes 1.0 (R9). -/
abbrev Q16 := BitVec 17

/-- A 9-bit CHAR9 value (R12). -/
abbrev Char9 := BitVec 9

/-- A magnitude vector: eight 32-bit unsigned values, one per symbol slot (R22). -/
abbrev Mags := Vector Word 8

/-- The 256-entry codeword-to-character table, indexed by the codeword (R92). -/
abbrev CodeTable := Vector Byte 256

/-- `popcount(x)` of R8, for a codeword. -/
def popcount (x : Byte) : Nat := (List.range 8).countP fun i => x.getLsbD i

/-- The character code of '?', which R12 fixes at 0x3F. -/
abbrev questionMark : Byte := 0x3F#8

/-- `UNK`, the reserved uncertain output (R12): distinct from every 8-bit code. -/
abbrev unk : Char9 := 0x100#9

end Sys2Proof
end

