-- ==== Sys2Proof/Syntax.lean ====
section
/-! DEFINITION. The command set (R70 of 30_encoding.md) and the host's accesses (R62 of 20_memory.md). -/

namespace Sys2Proof

/-- The seven commands of R70, one constructor per row of opcode_table.json. `IMM8` is the only operand a command
word carries (R71, R72); MAG and the history are implicit. -/
inductive Instr where
  | nop
  | decode
  | decodeG
  | push
  | reset (code : Byte)
  | setPhase (phase : Byte)
  | detect
deriving DecidableEq, Repr

/-- What the outside world does to the block: the host's bus accesses, of any offset and size in bytes (R62, R77), and
power-on reset (R210; log 9). The value of a write is carried as 32 bits, since an access of another size never has
its value looked at (R52; log 12). -/
inductive HostEvent where
  | read (off size : Nat)
  | write (off size : Nat) (value : Word)
  | hardwareReset
deriving DecidableEq, Repr

end Sys2Proof
end

