-- ==== Sys2Proof/WellFormed.lean ====
section
/-! DEFINITION. What is well formed: commands (R70, R172, R173) and host accesses (R50, R52 of 20_memory.md). Command
words are checked in Decode.lean (R74), parameter sets in Config.lean (R212). -/

namespace Sys2Proof

/-- Every command of R70 is well formed at every value of its 8-bit immediate: R172 and R173 accept 0..255. -/
def Instr.wellFormed : Instr → Bool
  | .nop => true
  | .decode => true
  | .decodeG => true
  | .push => true
  | .reset _ => true
  | .setPhase _ => true
  | .detect => true

/-- R52: the supported access is a 32-bit access at a multiple of 4. -/
def accessSupported (off size : Nat) : Bool := size == 4 && off % 4 == 0

/-- R50: the offsets 0x0000..0x1FFF are the register window. -/
def insideWindow (off : Nat) : Bool := decide (off < 0x2000)

/-- A host event the block serves without a bus error and without leaving the window. -/
def HostEvent.wellFormed : HostEvent → Bool
  | .read off size => insideWindow off && accessSupported off size
  | .write off size _ => insideWindow off && accessSupported off size
  | .hardwareReset => true

end Sys2Proof
end

