-- ==== Sys2Proof/Decode.lean ====
section
/-! DEFINITION. The command decoder and encoder (R71..R76 of 30_encoding.md). -/

namespace Sys2Proof

/-- `OP`, bits 3:0 of a command word (R71). -/
abbrev cmdOp (w : Word) : BitVec 4 := w.extractLsb' 0 4

/-- `G`, bit 4 (R71). -/
abbrev cmdG (w : Word) : Bool := w.getLsbD 4

/-- `RSV0`, bits 7:5 (R71). -/
abbrev cmdRsv0 (w : Word) : BitVec 3 := w.extractLsb' 5 3

/-- `IMM8`, bits 15:8 (R71). -/
abbrev cmdImm8 (w : Word) : Byte := w.extractLsb' 8 8

/-- `RSV1`, bits 31:16 (R71). -/
abbrev cmdRsv1 (w : Word) : BitVec 16 := w.extractLsb' 16 16

/-- R74, first bullet turned round: `OP` is one of 0x0..0x5. -/
abbrev opcodeUsed (w : Word) : Bool := decide ((cmdOp w).toNat ≤ 5)

/-- R74, second bullet turned round: both reserved fields are 0. -/
abbrev reservedZero (w : Word) : Bool := decide (cmdRsv0 w = 0#3 ∧ cmdRsv1 w = 0#16)

/-- R74, third bullet turned round: `G = 1` only with `OP = 0x1`. -/
abbrev gateAllowed (w : Word) : Bool := decide (cmdG w = true → cmdOp w = 1#4)

/-- R74, fourth bullet turned round: `IMM8 ≠ 0` only outside `OP ∈ {0x0, 0x1, 0x2, 0x5}`. -/
abbrev immediateAllowed (w : Word) : Bool :=
  decide (cmdImm8 w ≠ 0#8 → cmdOp w ≠ 0#4 ∧ cmdOp w ≠ 1#4 ∧ cmdOp w ≠ 2#4 ∧ cmdOp w ≠ 5#4)

/-- A command word that none of R74's four conditions makes illegal. -/
def wordWellFormed (w : Word) : Bool :=
  opcodeUsed w && reservedZero w && gateAllowed w && immediateAllowed w

/-- Why a command word is illegal (R74): the four conditions of that rule. -/
inductive IllegalWord where
  /-- `OP` is 0x6..0xF -/
  | unusedOpcode
  /-- `RSV0 ≠ 0` or `RSV1 ≠ 0` -/
  | reservedField
  /-- `G = 1` with `OP ≠ 0x1` -/
  | gateBit
  /-- `IMM8 ≠ 0` with `OP ∈ {0x0, 0x1, 0x2, 0x5}` -/
  | immediate
deriving DecidableEq, Repr

/-- One row of R73: a word `w` with `w & mask = pattern` is the command `build w`. -/
structure OpcodeRow where
  pattern : Word
  mask : Word
  build : Word → Instr

/-- `(cmd & mask) = match` (R73). -/
def OpcodeRow.matches (r : OpcodeRow) (w : Word) : Bool := w &&& r.mask == r.pattern

/-- The match/mask table of R73, with the operands of R72. -/
def opcodeRows : List OpcodeRow :=
  [⟨0x00000000#32, 0xFFFFFFFF#32, fun _ => .nop⟩,
   ⟨0x00000001#32, 0xFFFFFFFF#32, fun _ => .decode⟩,
   ⟨0x00000011#32, 0xFFFFFFFF#32, fun _ => .decodeG⟩,
   ⟨0x00000002#32, 0xFFFFFFFF#32, fun _ => .push⟩,
   ⟨0x00000003#32, 0xFFFF00FF#32, fun w => .reset (cmdImm8 w)⟩,
   ⟨0x00000004#32, 0xFFFF00FF#32, fun w => .setPhase (cmdImm8 w)⟩,
   ⟨0x00000005#32, 0xFFFFFFFF#32, fun _ => .detect⟩]

/-- The first condition of R74 that a word meets, for a word that matches no row. -/
def illegalReason (w : Word) : IllegalWord :=
  if opcodeUsed w = false then .unusedOpcode
  else if reservedZero w = false then .reservedField
  else if gateAllowed w = false then .gateBit
  else .immediate

/-- R73: the command of the first matching row; a word that matches no row is illegal (R74). -/
def decode (w : Word) : Except IllegalWord Instr :=
  match opcodeRows.find? fun r => r.matches w with
  | some r => .ok (r.build w)
  | none => .error (illegalReason w)

/-- A command word from the fields of R71, the reserved fields being 0. -/
def commandWord (op : BitVec 4) (g : Bool) (imm8 : Byte) : Word :=
  op.setWidth 32 ||| (BitVec.ofBool g).setWidth 32 <<< 4 ||| imm8.setWidth 32 <<< 8

/-- The word of a command, from the field values of R73's first table. -/
def encode : Instr → Word
  | .nop => commandWord 0x0#4 false 0#8
  | .decode => commandWord 0x1#4 false 0#8
  | .decodeG => commandWord 0x1#4 true 0#8
  | .push => commandWord 0x2#4 false 0#8
  | .reset code => commandWord 0x3#4 false code
  | .setPhase phase => commandWord 0x4#4 false phase
  | .detect => commandWord 0x5#4 false 0#8

/-- The 32-bit value the host writes to CMD for an opcode-table word of `nbits` bits. -/
def tableWord (nbits w : Nat) : Word := BitVec.ofNat 32 (w % 2 ^ nbits)

/-- The instruction the decoder reads from an opcode-table word, if any. A command is one 32-bit word (R76). -/
def decodeTableWord (nbits w : Nat) : Option Instr :=
  match decode (tableWord nbits w) with
  | .ok i => some i
  | .error _ => none

end Sys2Proof
end

