-- ==== Sys2Proof/Config.lean ====
section
/-! DEFINITION. The instance parameters (R6 of 00_scope.md, R212 of 70_reset_and_hazards.md), the fixed
parameters, and the free values of the model. -/

namespace Sys2Proof

namespace Config

/-- `MIN_L`: smallest message length searched (R6). -/
@[simp] abbrev minL : Nat := 3

/-- `MAX_MSG_LEN`: largest message length and checkpoint period (R6). -/
@[simp] abbrev maxMsgLen : Nat := 30

/-- `HARM_NUM`: numerator of the anti-harmonic ratio (R6). -/
@[simp] abbrev harmNum : Nat := 1

/-- `HARM_DEN`: denominator of the anti-harmonic ratio (R6). -/
@[simp] abbrev harmDen : Nat := 2

/-- `LOCK_CONFIRMATIONS`: consecutive equal detections that lock (R6). -/
@[simp] abbrev lockConfirmations : Nat := 2

/-- `COPY_MIN_REPEATS`: minimum per-position count for a copy (R6). -/
@[simp] abbrev copyMinRepeats : Nat := 2

/-- Free value (log 3): the 70 weight-4 entries of the default instance's `CODE_TABLE`, whose contents no source
gives (R92, N1). Nothing is assumed of it. -/
opaque weightFourChar : Nat → Byte

/-- Free value (log 4): what `P_HIST_CAP` reads on an instance with `HIST_CAP = ∞` (R212 allows the instance, R55
gives the register 32 bits and no reading for it). -/
opaque unboundedHistCapWord : Word

end Config

/-- The instance parameters of R6 that vary. `histCap = none` is `HIST_CAP = ∞` (R212). -/
structure Params where
  codeTable : CodeTable
  confTh : Nat
  copyTh : Nat
  collapseTh : Nat
  collapseWindow : Nat
  histCap : Option Nat
  ringCap : Nat
  copyLogCap : Nat
deriving DecidableEq, Repr

/-- `HIST_CAP` in the range of R212: 60..2^32 − 1, or ∞. -/
abbrev Params.HistCapValid (p : Params) : Prop :=
  ∀ cap ∈ p.histCap, 60 ≤ cap ∧ cap ≤ 2 ^ 32 - 1

/-- The parameter sets from which R212 lets an instance be constructed. -/
abbrev Params.Valid (p : Params) : Prop :=
  (∀ x : Fin 256, popcount (BitVec.ofFin x) ≠ 4 → p.codeTable[x] = questionMark) ∧
  p.confTh ≤ 65536 ∧ p.copyTh ≤ 65536 ∧ p.collapseTh ≤ 65536 ∧
  1 ≤ p.collapseWindow ∧ p.collapseWindow ≤ p.ringCap ∧ p.ringCap ≤ 16 ∧
  1 ≤ p.copyLogCap ∧ p.copyLogCap ≤ 64 ∧
  p.HistCapValid

/-- An instance of the block. R212: a model refuses to construct an instance whose parameters are not valid; here such
a value has no proof of validity, so it cannot be built. -/
abbrev Instance := { p : Params // p.Valid }

namespace Config

/-- The `CODE_TABLE` whose weight-4 entries are given by `f`, every other entry being '?' (R92). -/
def tableOf (f : Nat → Byte) : CodeTable :=
  Vector.ofFn fun x : Fin 256 => if popcount (BitVec.ofFin x) = 4 then f x.val else questionMark

/-- R6's default parameters around a given table. -/
def defaultParams (table : CodeTable) : Params where
  codeTable := table
  confTh := 11796
  copyTh := 42598
  collapseTh := 16384
  collapseWindow := 3
  histCap := some 240
  ringCap := 8
  copyLogCap := 16

theorem tableOf_questionMark (f : Nat → Byte) (x : Fin 256) (h : popcount (BitVec.ofFin x) ≠ 4) :
    (tableOf f)[x] = questionMark := by
  simp [tableOf, h]

theorem defaultParams_valid (f : Nat → Byte) : (defaultParams (tableOf f)).Valid := by
  refine ⟨fun x h => tableOf_questionMark f x h, ?_⟩
  simp [defaultParams, Params.HistCapValid]

/-- The instance with R6's defaults and the weight-4 entries `f`. -/
def defaultInstanceWith (f : Nat → Byte) : Instance :=
  ⟨defaultParams (tableOf f), defaultParams_valid f⟩

/-- The instance of `State.reset`: R6's defaults, with a free `CODE_TABLE` (log 3). -/
def defaultInstance : Instance := defaultInstanceWith weightFourChar

end Config

end Sys2Proof
end

