-- ==== Sys2Proof/Machine/State.lean ====
section
/-! DEFINITION. The architectural state (10_state.md), its hardware-reset value (R210 of 70_reset_and_hazards.md), and
the reasons a step can stop. -/

namespace Sys2Proof.Machine

/-- Why the machine stops. -/
inductive Fault where
  /-- Raised by the step on an access at an offset outside 0x0000..0x1FFF: R54 says such offsets are not part of the
  block and what the platform does with them is outside the spec. Safe: the model stops where the platform may go on
  (log 6). -/
  | outsideWindow (off : Nat)
deriving DecidableEq, Repr

/-- Why an instruction has no meaning. -/
inductive Refusal where
  /-- Raised by exec for an instruction the model gives no meaning. Safe: nothing is claimed of it. No arm uses it. -/
  | notModelled (mnemonic : String)
deriving DecidableEq, Repr

/-- The 2-bit register `STATE` (R23). -/
inductive CycleState where
  | searching
  | detecting
  | locked
  | confirmed
deriving DecidableEq, Repr

/-- `DET_STATUS` (R37). -/
inductive DetStatus where
  | none
  | ok
  | insufficient
deriving DecidableEq, Repr

/-- The result of a command: `LAST_RESULT` of R39, `result` of R11. The encoding 3 is never produced (R39). -/
inductive CommandResult where
  | ok
  | illegal
  | rejectedOvf
deriving DecidableEq, Repr

/-- `LAST_RESET.KIND` (R38). -/
inductive ResetKind where
  | manual
  | collapse
deriving DecidableEq, Repr

/-- The errors the block raises (R191). -/
inductive BlockError where
  | illegalCommand
  | pushOverflow
  | busError
deriving DecidableEq, Repr

/-- `reset_event` of a response that is not none (R11). -/
structure ResetEvent where
  kind : ResetKind
  code : Byte
deriving DecidableEq, Repr

/-- The response record of R11. -/
structure Response where
  result : CommandResult
  resetEvent : Option ResetEvent
  copyAppended : Bool
deriving DecidableEq, Repr

/-- What an access gives back to the host (R62). -/
inductive HostOutput where
  | nothing
  | readData (value : Word)
  | response (r : Response)
deriving DecidableEq, Repr

/-- One entry of the position file (R29). -/
structure Position where
  sum : Vector (BitVec 64) 8
  count : BitVec 32
  char : Byte
  conf : Q16
  flip : Bool
deriving DecidableEq, Repr

/-- The position file: 30 entries (R29). -/
abbrev PosFile := Vector Position 30

/-- A copy record (R34); `text` is zero at and beyond `len`. -/
structure CopyRecord where
  ts : BitVec 64
  len : BitVec 5
  text : Vector Byte 30
  mean : Q16
  depth : BitVec 32
  phase : Byte
deriving DecidableEq, Repr

/-- The copy log, oldest record first, and `COPY_TOTAL` (R34). -/
structure CopyLog where
  log : List CopyRecord
  appended : BitVec 32
deriving DecidableEq, Repr

/-- The session state: what a soft reset clears (R23..R26, R28..R32, R171). `hist` and `ring` are oldest first; `HLEN`
and `RING_COUNT` are their lengths. -/
structure Session where
  cycle : CycleState
  len : BitVec 5
  confCnt : BitVec 2
  seq : BitVec 64
  hist : List Mags
  pos : PosFile
  ring : List Q16
  meanConf : Q16
deriving DecidableEq, Repr

/-- The symbol decoder's result registers (R36). -/
structure DecodeRegs where
  char : Char9
  code : Byte
  conf : Q16
  gated : Bool
deriving DecidableEq, Repr

/-- The length detector's result registers (R37). Entry `i` of `score` and of `norm` is candidate `c = i + 3`. -/
structure DetectRegs where
  status : DetStatus
  n : BitVec 32
  maxl : BitVec 5
  raw : BitVec 5
  len : BitVec 5
  mean : Q16
  score : Vector Q16 28
  norm : Vector (BitVec 32) 28
deriving DecidableEq, Repr

/-- `LAST_RESET` (R38). -/
structure LastReset where
  valid : Bool
  kind : ResetKind
  code : Byte
deriving DecidableEq, Repr

/-- The whole state. `inst`, `pending` and `out` are the model's own fields (logs 3, 1, 2); every other field is a
register of 10_state.md. -/
structure State where
  inst : Instance
  mag : Mags
  session : Session
  total : BitVec 64
  copies : CopyLog
  phase : Byte
  dec : DecodeRegs
  det : DetectRegs
  resetEvents : BitVec 32
  lastReset : LastReset
  errIll : Bool
  errOvf : Bool
  errBus : Bool
  lastResult : CommandResult
  pending : List HostEvent
  out : HostOutput
deriving DecidableEq, Repr

/-- `INIT_POS` (R30). -/
def Position.initial : Position where
  sum := Vector.replicate 8 0#64
  count := 0#32
  char := questionMark
  conf := 0#17
  flip := false

/-- Every position at `INIT_POS` (R30). -/
def PosFile.initial : PosFile := Vector.replicate 30 Position.initial

/-- The cleared session: what hardware reset (R210) and soft reset (R171) leave. -/
def Session.initial : Session where
  cycle := .searching
  len := 0#5
  confCnt := 0#2
  seq := 0#64
  hist := []
  pos := PosFile.initial
  ring := []
  meanConf := 0#17

/-- `DEC_*` at hardware reset (R36, R210). -/
def DecodeRegs.initial : DecodeRegs where
  char := 0x03F#9
  code := 0#8
  conf := 0#17
  gated := false

/-- `DET_*` at hardware reset (R37, R210). -/
def DetectRegs.initial : DetectRegs where
  status := .none
  n := 0#32
  maxl := 0#5
  raw := 0#5
  len := 0#5
  mean := 0#17
  score := Vector.replicate 28 0#17
  norm := Vector.replicate 28 0#32

/-- The hardware-reset state of an instance (R210). -/
def State.resetOf (inst : Instance) : State where
  inst := inst
  mag := Vector.replicate 8 0#32
  session := Session.initial
  total := 0#64
  copies := ⟨[], 0#32⟩
  phase := 0#8
  dec := DecodeRegs.initial
  det := DetectRegs.initial
  resetEvents := 0#32
  lastReset := ⟨false, .manual, 0#8⟩
  errIll := false
  errOvf := false
  errBus := false
  lastResult := .ok
  pending := []
  out := .nothing

/-- The machine right after hardware reset, on the default instance (log 3), with no host access pending (log 1). -/
def State.reset : State := State.resetOf Config.defaultInstance

end Sys2Proof.Machine
end

