-- ==== Sys2Proof/Machine/Ops.lean ====
section
/-! DEFINITION. The named operations the meanings share: bounded buffers, checked counters, integer helpers (R9),
recording an error (R190), responding (R11), the soft reset (R171) and the hardware reset (R210). -/

namespace Sys2Proof.Machine

/-- The instance's parameters. -/
abbrev State.params (s : State) : Params := s.inst.val

/-! ### Integer helpers (R9) -/

/-- `isqrt` of numbers below `4 ^ fuel`, one base-4 digit at a time. -/
def isqrtFuel : Nat → Nat → Nat
  | 0, _ => 0
  | fuel + 1, n =>
    let r := 2 * isqrtFuel fuel (n / 4)
    if (r + 1) * (r + 1) ≤ n then r + 1 else r

/-- The largest `r` with `r·r ≤ n` (R9). -/
def isqrt (n : Nat) : Nat := isqrtFuel (n.log2 / 2 + 1) n

/-- The largest element of a list of naturals, 0 of an empty one. -/
def maxNat (l : List Nat) : Nat := l.foldl max 0

/-- The largest element of a non-empty list of integers. -/
def maxInt : List Int → Int
  | [] => 0
  | x :: l => l.foldl max x

/-- Append at the newest end of a buffer; at its capacity the oldest entry goes first (R31, R34, R147). A capacity of
`none` is unbounded. -/
def appendBounded {α : Type} (cap : Option Nat) (l : List α) (x : α) : List α :=
  (if cap = some l.length then l.tail else l) ++ [x]

/-! ### Errors and responses -/

/-- `raise E` (R190): the sticky bit of R191 is set and nothing else changes. The block has no trap entry (R195) and so
no return from one (R196). -/
def raiseError (e : BlockError) (s : State) : State :=
  match e with
  | .illegalCommand => { s with errIll := true }
  | .pushOverflow => { s with errOvf := true }
  | .busError => { s with errBus := true }

/-- `STATUS.LAST_RESULT <- r` and `respond(r, event, copied)` (R11, R39). -/
def respond (r : CommandResult) (event : Option ResetEvent) (copied : Bool) (s : State) : State :=
  { s with lastResult := r, out := .response ⟨r, event, copied⟩ }

/-- The answer of a command that succeeded with no notification. -/
def respondOk (s : State) : State := respond .ok none false s

/-! ### Resets -/

/-- `SOFT_RESET(kind, code)` (R171). -/
def softReset (kind : ResetKind) (code : Byte) (s : State) : State :=
  { s with
    session := Session.initial
    resetEvents := s.resetEvents + 1
    lastReset := ⟨true, kind, code⟩ }

/-- Power-on reset of the same instance (R210, R211). The host events still to come stay to come (log 9). -/
def hardwareReset (s : State) : State :=
  { State.resetOf s.inst with pending := s.pending }

end Sys2Proof.Machine
end

