-- ==== Sys2Proof/Machine/Control.lean ====
section
/-! DEFINITION. The control commands NOP, RESET and SETPHASE (43_control.md, R170..R173). -/

namespace Sys2Proof.Machine

/-- NOP (R170). -/
def execNop (s : State) : Host.Outcome State Fault Refusal := .next (respondOk s)

/-- RESET with reason code `code` (R172). -/
def execReset (code : Byte) (s : State) : Host.Outcome State Fault Refusal :=
  .next (respond .ok (some ⟨.manual, code⟩) false (softReset .manual code s))

/-- SETPHASE (R173). -/
def execSetPhase (phase : Byte) (s : State) : Host.Outcome State Fault Refusal :=
  .next (respondOk { s with phase := phase })

end Sys2Proof.Machine
end

