-- ==== Sys2Proof/Machine/Flags.lean ====
section
/-! DEFINITION. Flags and the encodings software sees (R23, R37, R38, R39, R43 of 10_state.md). -/

namespace Sys2Proof.Machine

/-- The 2-bit encoding of `STATE` (R23). -/
def CycleState.bits : CycleState → BitVec 2
  | .searching => 0#2
  | .detecting => 1#2
  | .locked => 2#2
  | .confirmed => 3#2

/-- The 2-bit encoding of `DET_STATUS` (R37). -/
def DetStatus.bits : DetStatus → BitVec 2
  | .none => 0#2
  | .ok => 1#2
  | .insufficient => 2#2

/-- The 2-bit encoding of `LAST_RESULT` (R39). -/
def CommandResult.bits : CommandResult → BitVec 2
  | .ok => 0#2
  | .illegal => 1#2
  | .rejectedOvf => 2#2

/-- The 1-bit encoding of `LAST_RESET.KIND` (R38). -/
def ResetKind.bits : ResetKind → BitVec 1
  | .manual => 0#1
  | .collapse => 1#1

/-- The error codes of R191. -/
def BlockError.code : BlockError → Nat
  | .illegalCommand => 1
  | .pushOverflow => 2
  | .busError => 3

/-- The gate of R93 closes: it was requested and the confidence is strictly below `CONF_TH`. -/
def gateCloses (p : Params) (g : Bool) (conf : Nat) : Bool := g && decide (conf < p.confTh)

/-- `FLIP` (R130, R133): the new character differs from the previous one, and the previous was not '?'. -/
def flipped (prev new : Byte) : Bool := new != prev && prev != questionMark

end Sys2Proof.Machine
end

