-- ==== Sys2Proof/Machine/Operands.lean ====
section
/-! DEFINITION. The operands of the commands (R72 of 30_encoding.md): the input vector MAG and the retained history,
both implicit, as the unbounded integers of R9. The immediate and the gate bit come from the decoder. -/

namespace Sys2Proof.Machine

/-- The elements of a register vector as integers, slot 0 first. -/
def natsOf {n w : Nat} (v : Vector (BitVec w) n) : List Nat := v.toList.map BitVec.toNat

/-- `MAG[0..7]`, read when the command executes (R22, R214). -/
def State.magOperand (s : State) : List Nat := natsOf s.mag

/-- `H[0..HLEN−1]`, oldest first (R28, R110). -/
def State.historyOperand (s : State) : List (List Nat) := s.session.hist.map natsOf

/-- `HBASE = SEQ − HLEN`, the absolute index of `H[0]` (R28). -/
def Session.histBase (x : Session) : Nat := x.seq.toNat - x.hist.length

end Sys2Proof.Machine
end

