-- ==== Sys2Proof/Machine/SymbolDecoder.lean ====
section
/-! DEFINITION. The symbol decoder and the commands DECODE and DECODE.G (40_decode.md, R90..R95). -/

namespace Sys2Proof.Machine

/-- The values in descending order, repeats kept: `t[0..7]` of R90. -/
def descending (v : List Nat) : List Nat := v.insertionSort (· ≥ ·)

/-- The confidence of R90, in Q16. -/
def confidence (v : List Nat) : Nat :=
  let t := descending v
  let num := t.getD 3 0 - t.getD 4 0
  let den := t.getD 0 0 - t.getD 7 0
  if den = 0 then 0 else num * 65536 / den

/-- The index a round of R91 selects: the lowest one holding the maximum. -/
def argmaxIndex (w : List Nat) : Nat := w.idxOf (maxNat w)

/-- `n` rounds of R91 on the working copy `w`, with the codeword built so far. -/
def selectRounds : Nat → List Nat → Byte → Byte
  | 0, _, cw => cw
  | n + 1, w, cw =>
    let k := argmaxIndex w
    selectRounds n (w.set k 0) (cw ||| 1#8 <<< k)

/-- The codeword of R91: four rounds from the whole vector. -/
def codeword (v : List Nat) : Byte := selectRounds 4 v 0#8

/-- `CODE_TABLE[cw]` (R92). -/
def lookupChar (table : CodeTable) (cw : Byte) : Byte := table[cw.toNat]

/-- What `DECODE_CORE` returns (R93). -/
structure SymbolResult where
  char : Char9
  conf : Nat
  code : Byte
  gated : Bool
deriving DecidableEq, Repr

/-- `DECODE_CORE(v, g)` (R90..R93). -/
def decodeCore (p : Params) (v : List Nat) (g : Bool) : SymbolResult :=
  let conf := confidence v
  let cw := codeword v
  let gated := gateCloses p g conf
  { char := if gated then unk else (lookupChar p.codeTable cw).setWidth 9
    conf := conf
    code := cw
    gated := gated }

/-- The result registers of R36, at their widths. -/
def DecodeRegs.ofResult (r : SymbolResult) : DecodeRegs where
  char := r.char
  code := r.code
  conf := BitVec.ofNat 17 r.conf
  gated := r.gated

/-- The shared meaning of the two decode commands, with gate request `g` (R94). -/
def decodeCommand (g : Bool) (s : State) : State :=
  respondOk { s with dec := DecodeRegs.ofResult (decodeCore s.params s.magOperand g) }

/-- DECODE (R94 with G = 0). -/
def execDecode (s : State) : Host.Outcome State Fault Refusal := .next (decodeCommand false s)

/-- DECODE.G (R94 with G = 1). -/
def execDecodeG (s : State) : Host.Outcome State Fault Refusal := .next (decodeCommand true s)

end Sys2Proof.Machine
end

