-- ==== Sys2Proof/Machine/Accumulator.lean ====
section
/-! DEFINITION. The character accumulator and the position file (42_push.md R130..R133, R137, R141; 10_state.md R33,
R41). -/

namespace Sys2Proof.Machine

/-- No store of `UPDATE` exceeds its width (R134): 64 bits for each sum, 32 for the count. -/
abbrev UpdateFits (q : Position) (m : Mags) : Prop :=
  (∀ i : Fin 8, q.sum[i].toNat + m[i].toNat < 2 ^ 64) ∧ q.count.toNat + 1 < 2 ^ 32

/-- `SUM[p][s] + m[s]` (R130). -/
def addMags (sum : Vector (BitVec 64) 8) (m : Mags) : Vector (BitVec 64) 8 :=
  Vector.ofFn fun i : Fin 8 => sum[i] + m[i].setWidth 64

/-- `UPDATE` on one position whose stores fit (R130). The decode is ungated and on the sum (R131). -/
def updatedPosition (p : Params) (q : Position) (m : Mags) : Position :=
  let sum := addMags q.sum m
  let r := decodeCore p (natsOf sum) false
  { sum := sum
    count := q.count + 1
    char := r.char.setWidth 8
    conf := BitVec.ofNat 17 r.conf
    flip := flipped q.char (r.char.setWidth 8) }

/-- `UPDATE` on one position (R130); `none` when a store would overflow (R134). -/
def updatePosition (p : Params) (q : Position) (m : Mags) : Option Position :=
  if UpdateFits q m then some (updatedPosition p q m) else none

/-- `UPDATE(i, m)` on the position file. The file has no entry from 30 on (R29); no run gets there (log 8). -/
def updateAt (p : Params) (f : PosFile) (i : Nat) (m : Mags) : Option PosFile :=
  if h : i < 30 then (updatePosition p f[i] m).map fun q => f.set i q else some f

/-- The replay of R137: the vector with absolute index `j` goes to position `j mod L` (R132). -/
def replay (p : Params) (L : Nat) : Nat → List Mags → PosFile → Option PosFile
  | _, [], f => some f
  | j, m :: ms, f => (updateAt p f (j % L) m).bind (replay p L (j + 1) ms)

/-- The active positions `p < L` (R29). -/
def activePositions (f : PosFile) (L : Nat) : List Position := f.toList.take L

/-- `min{COUNT[p] : p < L}`, and 0 when there is none (R33, R142). -/
def minCount (f : PosFile) (L : Nat) : Nat :=
  ((activePositions f L).map fun q => q.count.toNat).min?.getD 0

/-- `CYCLE_MEAN()` (R141). -/
def cycleMean (f : PosFile) (L : Nat) : Nat :=
  let counted := (activePositions f L).filter fun q => decide (0 < q.count.toNat)
  if counted.length = 0 then 0 else (counted.map fun q => q.conf.toNat).sum / counted.length

/-- `CHAR[0..L−1]` (R143). -/
def cycleText (f : PosFile) (L : Nat) : List Byte := (activePositions f L).map fun q => q.char

/-- `REPEAT` (R33). -/
def State.repeatCount (s : State) : Nat := minCount s.session.pos s.session.len.toNat

end Sys2Proof.Machine
end

