-- ==== Sys2Proof/Machine/LengthDetector.lean ====
section
/-! DEFINITION. The length detector and the command DETECT (41_detect.md, R110..R120). -/

namespace Sys2Proof.Machine

/-- The inner product of two vectors (R112). -/
def dot (a b : List Nat) : Nat := (List.zipWith (· * ·) a b).sum

/-- `valid` of R112: neither vector has norm 0. -/
def pairValid (a b : List Nat) : Bool := decide (0 < dot a a) && decide (0 < dot b b)

/-- `cos_q(a, b)` of R112, in Q16. -/
def cosQ (a b : List Nat) : Nat := dot a b * 65536 / isqrt (dot a a * dot b b)

/-- The valid pairs `(H[i], H[i+c])`, `i` in 0..N−c−1 (R113). -/
def validPairs (H : List (List Nat)) (c : Nat) : List (List Nat × List Nat) :=
  (H.zip (H.drop c)).filter fun ab => pairValid ab.1 ab.2

/-- `score[c]` (R113). -/
def rawScore (H : List (List Nat)) (c : Nat) : Nat :=
  let cosines := (validPairs H c).map fun ab => cosQ ab.1 ab.2
  if cosines.length = 0 then 0 else cosines.sum / cosines.length

/-- `MAXL` (R111). -/
def maxCandidate (n : Nat) : Nat := min Config.maxMsgLen (n / 2)

/-- `C = {MIN_L, ..., MAXL}`, ascending (R111). -/
def candidates (maxl : Nat) : List Nat := List.range' Config.minL (maxl + 1 - Config.minL)

/-- The floor mean over the candidates (R114). -/
def meanScore (scores : List Nat) : Nat := scores.sum / scores.length

/-- `norm[c]` of R114, in the candidates' order. -/
def normScores (scores : List Nat) : List Int := scores.map fun x => (x : Int) - (meanScore scores : Int)

/-- The entry of candidate `c` in a list that starts at `MIN_L`. -/
def normOf (norms : List Int) (c : Nat) : Int := norms.getD (c - Config.minL) 0

/-- `L_raw` (R115): the smallest candidate with the greatest normalised score. -/
def rawLength (norms : List Int) : Nat := Config.minL + norms.idxOf (maxInt norms)

/-- The test of R116 on a divisor `d` of `lraw`. -/
def subMultipleWins (norms : List Int) (lraw d : Nat) : Bool :=
  decide (lraw % d = 0 ∧ Config.minL ≤ lraw / d ∧
    normOf norms (lraw / d) * Config.harmDen ≥ normOf norms lraw * Config.harmNum)

/-- `L*` (R116): the first divisor in ascending order that wins, else `L_raw`. -/
def correctedLength (norms : List Int) (lraw : Nat) : Nat :=
  match (List.range' 2 (lraw - 2)).find? (subMultipleWins norms lraw) with
  | some d => lraw / d
  | none => lraw

/-- What `DETECT_CORE` computes. `scores` and `norms` start at candidate `MIN_L` and are empty when insufficient. -/
structure DetectResult where
  status : DetStatus
  n : Nat
  maxl : Nat
  raw : Nat
  lstar : Nat
  mean : Nat
  scores : List Nat
  norms : List Int
deriving DecidableEq, Repr

/-- The result on a sufficient history, from its scores (R114..R116). -/
def DetectResult.ofScores (n maxl : Nat) (scores : List Nat) : DetectResult :=
  let norms := normScores scores
  let lraw := rawLength norms
  ⟨.ok, n, maxl, lraw, correctedLength norms lraw, meanScore scores, scores, norms⟩

/-- `DETECT_CORE(H)` (R110..R117). -/
def detectCore (H : List (List Nat)) : DetectResult :=
  let maxl := maxCandidate H.length
  if maxl < Config.minL then ⟨.insufficient, H.length, maxl, 0, 0, 0, [], []⟩
  else DetectResult.ofScores H.length maxl ((candidates maxl).map (rawScore H))

/-- The registers R117 writes, at their widths; candidates outside the searched range read 0. -/
def DetectRegs.ofResult (r : DetectResult) : DetectRegs where
  status := r.status
  n := BitVec.ofNat 32 r.n
  maxl := BitVec.ofNat 5 r.maxl
  raw := BitVec.ofNat 5 r.raw
  len := BitVec.ofNat 5 r.lstar
  mean := BitVec.ofNat 17 r.mean
  score := Vector.ofFn fun i : Fin 28 => BitVec.ofNat 17 (r.scores.getD i 0)
  norm := Vector.ofFn fun i : Fin 28 => BitVec.ofInt 32 (r.norms.getD i 0)

/-- The register writes of R117. -/
def writeDetect (r : DetectResult) (s : State) : State := { s with det := DetectRegs.ofResult r }

/-- DETECT (R119). -/
def execDetect (s : State) : Host.Outcome State Fault Refusal :=
  .next (respondOk (writeDetect (detectCore s.historyOperand) s))

end Sys2Proof.Machine
end

