-- ==== Sys2Proof/Machine/Push.lean ====
section
/-! DEFINITION. The message accumulator and the command PUSH (42_push.md, R134..R147). Every operation works on the
tentative state of R134 and answers `none` where a store would exceed its width. -/

namespace Sys2Proof.Machine

/-- The tentative outcome of a push: the state so far and the notifications of its response (R136). -/
structure Tentative where
  state : State
  resetEvent : Option ResetEvent
  copyAppended : Bool
deriving DecidableEq, Repr

/-- `HIST_APPEND(m)` (R147). -/
def histAppend (p : Params) (m : Mags) (x : Session) : Session :=
  { x with hist := appendBounded p.histCap x.hist m }

/-- `TOTAL` and `SEQ` can be incremented (R134). -/
abbrev CountersFit (s : State) : Prop :=
  s.total.toNat + 1 < 2 ^ 64 ∧ s.session.seq.toNat + 1 < 2 ^ 64

/-- The first steps of R136: `TOTAL`, the history and `SEQ`. -/
def countPush (s : State) : State :=
  { s with
    total := s.total + 1
    session := { histAppend s.params s.mag s.session with seq := s.session.seq + 1 } }

/-- `CHECKPOINT` (R135), on the session after `SEQ` has been incremented. -/
abbrev AtCheckpoint (x : Session) : Prop :=
  (x.cycle = .searching ∨ x.cycle = .detecting) ∧
  x.seq.toNat % Config.maxMsgLen = 0 ∧ 2 * Config.maxMsgLen ≤ x.seq.toNat

/-- `ADOPT(Lc)` (R137). -/
def adopt (p : Params) (lc : Nat) (x : Session) : Option Session :=
  (replay p lc x.histBase x.hist PosFile.initial).map fun f =>
    { x with
      len := BitVec.ofNat 5 lc
      pos := f
      confCnt := 1#2
      ring := []
      cycle := .detecting }

/-- `CONFIRM()` (R138). The count is held in 2 bits and an increment that exceeds them is an overflow (log 7). -/
def confirm (x : Session) : Option Session :=
  if x.confCnt.toNat + 1 < 4 then
    some { x with
      confCnt := x.confCnt + 1
      cycle := if Config.lockConfirmations ≤ x.confCnt.toNat + 1 then .locked else x.cycle }
  else none

/-- What a checkpoint does with the detector's result: the new session, and whether it adopted (R136). -/
def takeDetection (p : Params) (r : DetectResult) (x : Session) : Option (Session × Bool) :=
  if r.status = .ok then
    if x.cycle = .searching ∨ r.lstar ≠ x.len.toNat then (adopt p r.lstar x).map fun y => (y, true)
    else (confirm x).map fun y => (y, false)
  else some (x, false)

/-- The detection step of R136, on the state after `countPush`. -/
def checkpointStep (s : State) : Option (State × Bool) :=
  if AtCheckpoint s.session then
    let r := detectCore s.historyOperand
    (takeDetection s.params r s.session).map fun yb => ({ writeDetect r s with session := yb.1 }, yb.2)
  else some (s, false)

/-- `END_OF_CYCLE()` step 1 (R142): the cycle mean joins the ring. -/
def ringStep (s : State) : State :=
  { s with
    session.ring := appendBounded (some s.params.ringCap) s.session.ring
      (BitVec.ofNat 17 (cycleMean s.session.pos s.session.len.toNat)) }

/-- The characters of a record, `TEXT[0..LEN−1]` (R143). -/
def CopyRecord.chars (r : CopyRecord) : List Byte := r.text.toList.take r.len.toNat

/-- The record a copy appends now (R34, R143). -/
def newRecord (s : State) : CopyRecord where
  ts := s.total
  len := s.session.len
  text := Vector.ofFn fun i : Fin 30 => if i < s.session.len.toNat then s.session.pos[i].char else 0#8
  mean := BitVec.ofNat 17 (cycleMean s.session.pos s.session.len.toNat)
  depth := BitVec.ofNat 32 (minCount s.session.pos s.session.len.toNat)
  phase := s.phase

/-- LOCKED or CONFIRMED (R143, R144). -/
abbrev Session.Settled (x : Session) : Prop := x.cycle = .locked ∨ x.cycle = .confirmed

/-- The text differs from the last record's, or there is no record (R143). -/
abbrev TextIsNew (s : State) : Prop :=
  ∀ r ∈ s.copies.log.getLast?, cycleText s.session.pos s.session.len.toNat ≠ r.chars

/-- The copy condition (R143). -/
abbrev CopyDue (s : State) : Prop :=
  s.session.Settled ∧
  s.params.copyTh ≤ cycleMean s.session.pos s.session.len.toNat ∧
  Config.copyMinRepeats ≤ minCount s.session.pos s.session.len.toNat ∧
  TextIsNew s

/-- `COPY_APPEND` and the change of state (R34, R143). -/
def appendCopy (s : State) : State :=
  { s with
    copies := ⟨appendBounded (some s.params.copyLogCap) s.copies.log (newRecord s), s.copies.appended + 1⟩
    session.cycle := .confirmed }

/-- `END_OF_CYCLE()` step 2 (R143), with whether a record was appended. -/
def copyStep (s : State) : State × Bool :=
  if CopyDue s then (appendCopy s, true) else (s, false)

/-- The last `COLLAPSE_WINDOW` values of the ring are all below `COLLAPSE_TH` (R144). -/
def lastMeansLow (p : Params) (ring : List Q16) : Bool :=
  (ring.drop (ring.length - p.collapseWindow)).all fun q => decide (q.toNat < p.collapseTh)

/-- The collapse condition (R144). -/
abbrev CollapseDue (s : State) : Prop :=
  s.session.Settled ∧
  s.params.collapseWindow ≤ minCount s.session.pos s.session.len.toNat ∧
  s.params.collapseWindow ≤ s.session.ring.length ∧
  lastMeansLow s.params s.session.ring = true

/-- `END_OF_CYCLE()` step 3 (R144). -/
def collapseStep (s : State) : State × Option ResetEvent :=
  if CollapseDue s then (softReset .collapse 0#8 s, some ⟨.collapse, 0#8⟩) else (s, none)

/-- `END_OF_CYCLE()`: ring, then copy, then collapse (R142..R144). -/
def endOfCycle (s : State) : Tentative :=
  { state := (collapseStep (copyStep (ringStep s)).1).1
    resetEvent := (collapseStep (copyStep (ringStep s)).1).2
    copyAppended := (copyStep (ringStep s)).2 }

/-- A cycle boundary (R140): the pushed vector, of absolute index `j`, belongs to the last position. -/
abbrev AtBoundary (x : Session) (j : Nat) : Prop :=
  x.len ≠ 0#5 ∧ j % x.len.toNat = x.len.toNat - 1

/-- The position file after routing (R139): an adopting push has had its vector replayed already. -/
def routedFile (adopted : Bool) (j : Nat) (s : State) : Option PosFile :=
  if adopted then some s.session.pos
  else updateAt s.params s.session.pos (j % s.session.len.toNat) s.mag

/-- The state with a routed file and the cycle mean over it (R32, R136). -/
def withRouted (f : PosFile) (s : State) : State :=
  { s with
    session.pos := f
    session.meanConf := BitVec.ofNat 17 (cycleMean f s.session.len.toNat) }

/-- The last steps of R136, for the vector with absolute index `j`. -/
def routeStep (adopted : Bool) (j : Nat) (s : State) : Option Tentative :=
  if s.session.len = 0#5 then some ⟨s, none, false⟩
  else (routedFile adopted j s).map fun f =>
    let t := withRouted f s
    if AtBoundary t.session j then endOfCycle t else ⟨t, none, false⟩

/-- The whole tentative push (R134, R136). The vector's absolute index is the old `SEQ`. -/
def tentativePush (s : State) : Option Tentative :=
  if CountersFit s then
    (checkpointStep (countPush s)).bind fun sb => routeStep sb.2 s.session.seq.toNat sb.1
  else none

/-- A push that would overflow (R134): the error, and nothing else but the response. -/
def rejectPush (s : State) : State := respond .rejectedOvf none false (raiseError .pushOverflow s)

/-- PUSH (R146). -/
def execPush (s : State) : Host.Outcome State Fault Refusal :=
  match tentativePush s with
  | some t => .next (respond .ok t.resetEvent t.copyAppended t.state)
  | none => .next (rejectPush s)

end Sys2Proof.Machine
end

