-- ==== Sys2Proof/Machine/Dispatch.lean ====
section
/-! DEFINITION. The dispatch of EXECUTE (R175 of 43_control.md): one arm per command. -/

namespace Sys2Proof.Machine

def exec (i : Instr) (s : State) : Host.Outcome State Fault Refusal :=
  match i with
  | .nop => Sys2Proof.Machine.execNop s
  | .decode => Sys2Proof.Machine.execDecode s
  | .decodeG => Sys2Proof.Machine.execDecodeG s
  | .push => Sys2Proof.Machine.execPush s
  | .reset code => Sys2Proof.Machine.execReset code s
  | .setPhase phase => Sys2Proof.Machine.execSetPhase phase s
  | .detect => Sys2Proof.Machine.execDetect s

end Sys2Proof.Machine
end

