-- ==== Sys2Proof/Machine/Window.lean ====
section
/-! DEFINITION. The register window: the map of R55, what each register reads (R51, R53..R57 of 20_memory.md), and the
snapshot of R145 (42_push.md). -/

namespace Sys2Proof.Machine

/-- The registers of R55. `detScore i` and `detNorm i` are those of candidate `c = i + 3`; `copyLog k i` is word `i` of
record slot `k` (R57). -/
inductive Reg where
  | mag (s : Fin 8)
  | cmd
  | status
  | session
  | phase
  | decResult
  | decConf
  | seqLo
  | seqHi
  | totalLo
  | totalHi
  | hlen
  | repeatCount
  | meanConf
  | ringInfo
  | resetEvents
  | lastReset
  | copyTotal
  | copyInfo
  | detInfo
  | detN
  | detMean
  | pConfTh
  | pCopyTh
  | pCollapseTh
  | pMisc
  | pHistCap
  | ident
  | ringv (k : Fin 16)
  | posA (p : Fin 30)
  | posB (p : Fin 30)
  | detScore (i : Fin 28)
  | detNorm (i : Fin 28)
  | sumLo (p : Fin 30) (s : Fin 8)
  | sumHi (p : Fin 30) (s : Fin 8)
  | copyLog (k : Fin 64) (i : Fin 16)
deriving DecidableEq, Repr

/-- The offset of a register (R55, R57). -/
def Reg.offset : Reg → Nat
  | .mag s => 4 * s
  | .cmd => 0x20
  | .status => 0x24
  | .session => 0x28
  | .phase => 0x2C
  | .decResult => 0x30
  | .decConf => 0x34
  | .seqLo => 0x38
  | .seqHi => 0x3C
  | .totalLo => 0x40
  | .totalHi => 0x44
  | .hlen => 0x48
  | .repeatCount => 0x4C
  | .meanConf => 0x50
  | .ringInfo => 0x54
  | .resetEvents => 0x58
  | .lastReset => 0x5C
  | .copyTotal => 0x60
  | .copyInfo => 0x64
  | .detInfo => 0x68
  | .detN => 0x6C
  | .detMean => 0x70
  | .pConfTh => 0x74
  | .pCopyTh => 0x78
  | .pCollapseTh => 0x7C
  | .pMisc => 0x80
  | .pHistCap => 0x84
  | .ident => 0x88
  | .ringv k => 0xC0 + 4 * k
  | .posA p => 0x100 + 8 * p
  | .posB p => 0x104 + 8 * p
  | .detScore i => 0x200 + 4 * i
  | .detNorm i => 0x280 + 4 * i
  | .sumLo p s => 0x400 + 64 * p + 8 * s
  | .sumHi p s => 0x404 + 64 * p + 8 * s
  | .copyLog k i => 0x1000 + 64 * k + 4 * i

/-- The registers at 0x20..0x88, in the order of R55. -/
def scalarRegs : List Reg :=
  [.cmd, .status, .session, .phase, .decResult, .decConf, .seqLo, .seqHi, .totalLo, .totalHi, .hlen, .repeatCount,
   .meanConf, .ringInfo, .resetEvents, .lastReset, .copyTotal, .copyInfo, .detInfo, .detN, .detMean, .pConfTh,
   .pCopyTh, .pCollapseTh, .pMisc, .pHistCap, .ident]

/-- The register at an aligned offset of the window; `none` where R55 maps nothing. -/
def regAt (off : Nat) : Option Reg :=
  if h : off < 0x20 then some (.mag ⟨off / 4, by omega⟩)
  else if off < 0x8C then scalarRegs[(off - 0x20) / 4]?
  else if off < 0xC0 then none
  else if h : off < 0x100 then some (.ringv ⟨(off - 0xC0) / 4, by omega⟩)
  else if h : off < 0x1F0 then
    let p : Fin 30 := ⟨(off - 0x100) / 8, by omega⟩
    some (if (off - 0x100) % 8 < 4 then .posA p else .posB p)
  else if off < 0x200 then none
  else if h : off < 0x270 then some (.detScore ⟨(off - 0x200) / 4, by omega⟩)
  else if off < 0x280 then none
  else if h : off < 0x2F0 then some (.detNorm ⟨(off - 0x280) / 4, by omega⟩)
  else if off < 0x400 then none
  else if h : off < 0xB80 then
    let p : Fin 30 := ⟨(off - 0x400) / 64, by omega⟩
    let s : Fin 8 := ⟨(off - 0x400) % 64 / 8, by omega⟩
    some (if (off - 0x400) % 8 < 4 then .sumLo p s else .sumHi p s)
  else if off < 0x1000 then none
  else if h : off < 0x2000 then
    some (.copyLog ⟨(off - 0x1000) / 64, by omega⟩ ⟨(off - 0x1000) % 64 / 4, by omega⟩)
  else none

/-- A value placed with its lowest bit at bit `lo` of a 32-bit register; the other bits are 0. -/
def place {w : Nat} (lo : Nat) (v : BitVec w) : Word := v.setWidth 32 <<< lo

/-- A flag placed at bit `lo`. -/
def placeBit (lo : Nat) (b : Bool) : Word := place lo (BitVec.ofBool b)

/-- A count placed as a field of `w` bits at bit `lo`. -/
def placeNat (w lo n : Nat) : Word := place lo (BitVec.ofNat w n)

/-- Bits 31:0 of a 64-bit register (R51). -/
def lowWord (v : BitVec 64) : Word := v.extractLsb' 0 32

/-- Bits 63:32 of a 64-bit register (R51). -/
def highWord (v : BitVec 64) : Word := v.extractLsb' 32 32

/-- `STATUS` (R39). -/
def statusWord (s : State) : Word :=
  place 0 s.session.cycle.bits ||| placeBit 2 s.errIll ||| placeBit 3 s.errOvf ||| placeBit 4 s.errBus |||
    place 5 s.lastResult.bits

/-- The constant of `ID` (R56). -/
def identWord : Word := 0x4F4B0007#32

/-- Text bytes 4i..4i+3 of a record, byte 4i lowest (R51, R57); bytes 30 and 31 read 0. -/
def textWord (r : CopyRecord) (i : Nat) : Word :=
  place 0 (r.text.toList.getD (4 * i) 0#8) ||| place 8 (r.text.toList.getD (4 * i + 1) 0#8) |||
    place 16 (r.text.toList.getD (4 * i + 2) 0#8) ||| place 24 (r.text.toList.getD (4 * i + 3) 0#8)

/-- Word `i` of a copy record (R57). -/
def recordWord (r : CopyRecord) (i : Fin 16) : Word :=
  match i with
  | 0 => lowWord r.ts
  | 1 => highWord r.ts
  | 2 => place 0 r.len ||| place 8 r.phase
  | 3 => place 0 r.mean
  | 4 => r.depth
  | 13 | 14 | 15 => 0#32
  | i => textWord r (i.val - 5)

/-- Word `i` of record slot `k`: 0 from the count and from the capacity on (R57). -/
def copyLogWord (s : State) (k : Fin 64) (i : Fin 16) : Word :=
  if k.val < s.params.copyLogCap then (s.copies.log[k.val]?.map fun r => recordWord r i).getD 0#32 else 0#32

/-- What `P_HIST_CAP` reads; free on an instance with `HIST_CAP = ∞` (log 4). -/
def histCapWord (p : Params) : Word :=
  match p.histCap with
  | some cap => BitVec.ofNat 32 cap
  | none => Config.unboundedHistCapWord

/-- What a register reads: the fields of R55, every other bit 0. CMD is write-only and reads 0 (R54). -/
def Reg.read (r : Reg) (s : State) : Word :=
  match r with
  | .mag i => s.mag[i]
  | .cmd => 0#32
  | .status => statusWord s
  | .session => place 0 s.session.len ||| place 8 s.session.confCnt
  | .phase => place 0 s.phase
  | .decResult => place 0 s.dec.char ||| place 16 s.dec.code ||| placeBit 24 s.dec.gated
  | .decConf => place 0 s.dec.conf
  | .seqLo => lowWord s.session.seq
  | .seqHi => highWord s.session.seq
  | .totalLo => lowWord s.total
  | .totalHi => highWord s.total
  | .hlen => placeNat 32 0 s.session.hist.length
  | .repeatCount => placeNat 32 0 s.repeatCount
  | .meanConf => place 0 s.session.meanConf
  | .ringInfo => placeNat 5 0 s.session.ring.length ||| placeNat 5 8 s.params.ringCap
  | .resetEvents => s.resetEvents
  | .lastReset => placeBit 0 s.lastReset.valid ||| place 1 s.lastReset.kind.bits ||| place 8 s.lastReset.code
  | .copyTotal => s.copies.appended
  | .copyInfo => placeNat 7 0 s.copies.log.length ||| placeNat 7 8 s.params.copyLogCap
  | .detInfo => place 0 s.det.status.bits ||| place 8 s.det.len ||| place 16 s.det.raw ||| place 24 s.det.maxl
  | .detN => s.det.n
  | .detMean => place 0 s.det.mean
  | .pConfTh => placeNat 17 0 s.params.confTh
  | .pCopyTh => placeNat 17 0 s.params.copyTh
  | .pCollapseTh => placeNat 17 0 s.params.collapseTh
  | .pMisc => placeNat 8 0 s.params.collapseWindow ||| placeNat 8 8 s.params.ringCap |||
      placeNat 8 16 s.params.copyLogCap
  | .pHistCap => histCapWord s.params
  | .ident => identWord
  | .ringv k => place 0 (s.session.ring.getD k 0#17)
  | .posA p => place 0 s.session.pos[p].char ||| placeBit 8 s.session.pos[p].flip ||| place 15 s.session.pos[p].conf
  | .posB p => s.session.pos[p].count
  | .detScore i => place 0 s.det.score[i]
  | .detNorm i => s.det.norm[i]
  | .sumLo p i => lowWord s.session.pos[p].sum[i]
  | .sumHi p i => highWord s.session.pos[p].sum[i]
  | .copyLog k i => copyLogWord s k i

/-- What an aligned 32-bit read inside the window returns: 0 where nothing is mapped (R54). -/
def windowRead (s : State) (off : Nat) : Word := ((regAt off).map fun r => r.read s).getD 0#32

/-! ### The snapshot (R145) -/

/-- One entry of the snapshot's `per_position`. -/
structure PositionView where
  char : Byte
  conf : Q16
  count : BitVec 32
  flip : Bool
deriving DecidableEq, Repr

/-- The snapshot of R145. `length = 0` is the document's none. -/
structure Snapshot where
  cycle : BitVec 2
  length : BitVec 5
  repeatCount : Word
  perPosition : List PositionView
  meanConf : Q16
  trend : List Q16
  copies : List CopyRecord
deriving DecidableEq, Repr

/-- The fields of `POS_A[p]` and `POS_B[p]` (R55, R145). -/
def positionView (s : State) (p : Fin 30) : PositionView where
  char := ((Reg.posA p).read s).extractLsb' 0 8
  conf := ((Reg.posA p).read s).extractLsb' 15 17
  count := (Reg.posB p).read s
  flip := ((Reg.posA p).read s).getLsbD 8

/-- Text byte `b` of record slot `k`, read from the window (R51, R57). -/
def textByte (s : State) (k : Fin 64) (b : Fin 30) : Byte :=
  ((Reg.copyLog k ⟨5 + b.val / 4, by omega⟩).read s).extractLsb' (8 * (b.val % 4)) 8

/-- The record in slot `k`, read from the window (R57). -/
def recordView (s : State) (k : Fin 64) : CopyRecord where
  ts := (Reg.copyLog k 1).read s ++ (Reg.copyLog k 0).read s
  len := ((Reg.copyLog k 2).read s).extractLsb' 0 5
  text := Vector.ofFn fun b : Fin 30 => textByte s k b
  mean := ((Reg.copyLog k 3).read s).extractLsb' 0 17
  depth := (Reg.copyLog k 4).read s
  phase := ((Reg.copyLog k 2).read s).extractLsb' 8 8

/-- The snapshot, read from the registers R145 names. -/
def snapshot (s : State) : Snapshot where
  cycle := (Reg.status.read s).extractLsb' 0 2
  length := (Reg.session.read s).extractLsb' 0 5
  repeatCount := Reg.repeatCount.read s
  perPosition := ((List.finRange 30).take ((Reg.session.read s).extractLsb' 0 5).toNat).map (positionView s)
  meanConf := (Reg.meanConf.read s).extractLsb' 0 17
  trend := ((List.finRange 16).take ((Reg.ringInfo.read s).extractLsb' 0 5).toNat).map
    fun k => ((Reg.ringv k).read s).extractLsb' 0 17
  copies := ((List.finRange 64).take ((Reg.copyInfo.read s).extractLsb' 0 7).toNat).map (recordView s)

end Sys2Proof.Machine
end

