-- ==== Sys2Proof/Machine/Bus.lean ====
section
/-! DEFINITION. Bus accesses and the execution of a command word (43_control.md R174, R175; 20_memory.md R50..R54,
R61). -/

namespace Sys2Proof.Machine

/-- `raise BUS_ERROR` and what the access gives back (R52, R191): the sticky bit, and no other effect. -/
def busError (answer : HostOutput) (s : State) : State := { raiseError .busError s with out := answer }

/-- `BusRead(off, size)` inside the window (R174). -/
def busRead (off size : Nat) (s : State) : State :=
  if size ≠ 4 ∨ off % 4 ≠ 0 then busError (.readData 0#32) s
  else { s with out := .readData (windowRead s off) }

/-- An illegal command word (R74, R175, R191). -/
def illegalCommand (s : State) : State := respond .illegal none false (raiseError .illegalCommand s)

/-- `EXECUTE(cmd)` (R175). -/
def executeWord (w : Word) (s : State) : Host.Outcome State Fault Refusal :=
  match decode w with
  | .ok i => exec i s
  | .error _ => .next (illegalCommand s)

/-- `BusWrite(off, size, v)` inside the window (R175): MAG is stored, CMD executes, any other offset is ignored. -/
def busWrite (off size : Nat) (v : Word) (s : State) : Host.Outcome State Fault Refusal :=
  if size ≠ 4 ∨ off % 4 ≠ 0 then .next (busError .nothing s)
  else if h : off ≤ 0x1C then .next { s with mag := s.mag.set (off / 4) v (by omega), out := .nothing }
  else if off = 0x20 then executeWord v s
  else .next { s with out := .nothing }

/-- One host event. An offset outside the window is not part of the block (R54): a fault (log 6). -/
def perform (e : HostEvent) (s : State) : Host.Outcome State Fault Refusal :=
  match e with
  | .read off size => if off < 0x2000 then .next (busRead off size s) else .fault (.outsideWindow off)
  | .write off size v => if off < 0x2000 then busWrite off size v s else .fault (.outsideWindow off)
  | .hardwareReset => .next (hardwareReset s)

/-- The step: the oldest pending host event, performed whole (R58, R61). With none pending the block holds its state
(R203). -/
def serveNext (s : State) : Host.Outcome State Fault Refusal :=
  match s.pending with
  | [] => .next s
  | e :: rest => perform e { s with pending := rest }

/-- The offset of `CMD` (R55, R71). -/
abbrev cmdOffset : Nat := 0x20

/-- The host writes `w` to CMD before anything else it has pending (log 1). -/
def State.withCommandPending (s : State) (w : Word) : State :=
  { s with pending := .write cmdOffset 4 w :: s.pending }

end Sys2Proof.Machine
end

