-- ==== Sys2Proof/Machine/Step.lean ====
section
/-! DEFINITION. One step of the machine, and the placing of a command where the next step takes it. -/

namespace Sys2Proof.Machine

/-- One step: one host event (R58, R61, R63 of 20_memory.md). -/
def step (s : State) : Host.Outcome State Fault Refusal := serveNext s

/-- The state whose next event is the write of this command word to CMD (log 1: the block fetches nothing, R21). -/
def State.withFetchWord (s : State) (nbits w : Nat) : State := s.withCommandPending (tableWord nbits w)

end Sys2Proof.Machine
end

