-- ==== Sys2Proof/Machine/Assembly.lean ====
section
/-! DEFINITION. The host assembly of R77 and R78 (30_encoding.md), as abstract syntax and its expansion to bus accesses.
Its written form (comments, number spellings) is host text the block never sees (log 11). -/

namespace Sys2Proof.Machine

/-- Eight values for `LDV`, in slot order. -/
abbrev Vec8 := Vector Word 8

/-- A host program. Commands and accesses are R77's; the constructors from `ldv` on are R78's pseudo-statements;
`seq` and `skip` write programs of several statements and of none. -/
inductive HostAsm where
  | command (i : Instr)
  | magw (s : Fin 8) (v : Word)
  | rd (r : Reg)
  | wr (off : Nat) (v : Word)
  | rdx (off size : Nat)
  | wrx (off size : Nat) (v : Word)
  | ldv (v : Vec8)
  | pushv (v : Vec8)
  | decv (v : Vec8)
  | decvG (v : Vec8)
  | pat (cw : Byte) (v : Word)
  | pushpat (cw : Byte) (v : Word)
  | rep (n : Nat) (body : HostAsm)
  | seq (a b : HostAsm)
  | skip
deriving DecidableEq, Repr

/-- `LDV`: eight MAG writes in slot order (R78). -/
def loadVector (v : Vec8) : List HostEvent :=
  (List.finRange 8).map fun s => .write (4 * s.val) 4 v[s]

/-- The vector of `PAT #cw, #V` (R78). -/
def patVector (cw : Byte) (v : Word) : Vec8 :=
  Vector.ofFn fun s : Fin 8 => if cw.getLsbD s then v else 0#32

/-- The one write a command is (R77). -/
def commandWrite (i : Instr) : HostEvent := .write cmdOffset 4 (encode i)

/-- `n` copies of a list of accesses, in order (R78, `REP`). -/
def repeatEvents (n : Nat) (l : List HostEvent) : List HostEvent := (List.replicate n l).flatten

/-- The accesses a program is (R77, R78). -/
def HostAsm.expand : HostAsm → List HostEvent
  | .command i => [commandWrite i]
  | .magw s v => [.write (4 * s.val) 4 v]
  | .rd r => [.read r.offset 4]
  | .wr off v => [.write off 4 v]
  | .rdx off size => [.read off size]
  | .wrx off size v => [.write off size v]
  | .ldv v => loadVector v
  | .pushv v => loadVector v ++ [commandWrite .push]
  | .decv v => loadVector v ++ [commandWrite .decode]
  | .decvG v => loadVector v ++ [commandWrite .decodeG]
  | .pat cw v => loadVector (patVector cw v)
  | .pushpat cw v => loadVector (patVector cw v) ++ [commandWrite .push]
  | .rep n body => repeatEvents n body.expand
  | .seq a b => a.expand ++ b.expand
  | .skip => []

/-- The state with a host program's accesses pending after those already there. -/
def State.withProgram (s : State) (a : HostAsm) : State := { s with pending := s.pending ++ a.expand }

end Sys2Proof.Machine
end

