-- ==== Sys2Proof/Safety.lean ====
section
/-! DEFINITION. What counts as a good state and a safe run, in the terms the claims use: the invariants of R40
(10_state.md) and the facts about stored values that the rules give with them. -/

namespace Sys2Proof.Machine

/-- R40 (f): `HLEN = min(SEQ, HIST_CAP)`; with `HIST_CAP = ∞`, `HLEN = SEQ`. -/
abbrev HistLengthInv (p : Params) (x : Session) : Prop :=
  match p.histCap with
  | some cap => x.hist.length = min x.seq.toNat cap
  | none => x.hist.length = x.seq.toNat

/-- The session invariants of R40, with the range of `L` (R24) and the bound of the ring (R31). -/
structure Session.Inv (p : Params) (x : Session) : Prop where
  /-- R40 (a) -/
  searching_iff : x.cycle = .searching ↔ x.len = 0#5
  /-- R40 (b) -/
  detecting_count : x.cycle = .detecting → x.confCnt = 1#2
  /-- R40 (c) -/
  settled_count : x.Settled → x.confCnt = 2#2
  /-- R40 (d) -/
  cleared : x.len = 0#5 → x.confCnt = 0#2 ∧ x.ring = [] ∧ x.meanConf = 0#17
  /-- R40 (e) -/
  inactive : ∀ i : Fin 30, x.len.toNat ≤ i.val → x.pos[i] = Position.initial
  /-- R40 (f) -/
  hist_length : HistLengthInv p x
  /-- R24 -/
  len_range : x.len ≠ 0#5 → 3 ≤ x.len.toNat ∧ x.len.toNat ≤ 30
  /-- R31 -/
  ring_bounded : x.ring.length ≤ p.ringCap

/-- A copy record as R34 describes it. -/
structure CopyRecord.Inv (r : CopyRecord) : Prop where
  len_range : 3 ≤ r.len.toNat ∧ r.len.toNat ≤ 30
  zero_padded : ∀ i : Fin 30, r.len.toNat ≤ i.val → r.text[i] = 0#8

/-- The invariants of R40 and of the registers' rules, over the whole state. -/
structure State.Inv (s : State) : Prop where
  session : s.session.Inv s.params
  /-- R40 (g): the last append since the adopt recorded the current length. -/
  confirmed_copy : s.session.cycle = .confirmed → ∃ r, s.copies.log.getLast? = some r ∧ r.len = s.session.len
  /-- R34 -/
  log_bounded : s.copies.log.length ≤ s.params.copyLogCap
  /-- R34 -/
  records : ∀ r ∈ s.copies.log, r.Inv
  /-- R118 -/
  det_ok : s.det.status = .ok → 3 ≤ s.det.len.toNat ∧ s.det.len.toNat ≤ 30
  /-- R118 -/
  det_none : s.det.status ≠ .ok → s.det.len = 0#5
  /-- R26, R27: both count accepted pushes, `SEQ` since a later moment. -/
  seq_le_total : s.session.seq.toNat ≤ s.total.toNat

/-- Every stored Q16 value of the session is at most 1.0 (R29, R31, R32). -/
structure Session.ConfBounded (x : Session) : Prop where
  positions : ∀ i : Fin 30, x.pos[i].conf.toNat ≤ 65536
  ring : ∀ q ∈ x.ring, q.toNat ≤ 65536
  mean : x.meanConf.toNat ≤ 65536

/-- Every Q16 value the block stores is at most 1.0, and every normalised score lies within ±1.0 (R29, R31, R32, R34,
R36, R37). -/
structure State.ConfBounded (s : State) : Prop where
  session : s.session.ConfBounded
  /-- `DEC_CONF` -/
  decode : s.dec.conf.toNat ≤ 65536
  /-- `MEAN` of the copy records -/
  records : ∀ r ∈ s.copies.log, r.mean.toNat ≤ 65536
  /-- `DET_MEAN` -/
  detMean : s.det.mean.toNat ≤ 65536
  /-- `DET_SCORE` -/
  detScore : ∀ i : Fin 28, s.det.score[i].toNat ≤ 65536
  /-- `DET_NORM` -/
  detNorm : ∀ i : Fin 28, s.det.norm[i].toInt.natAbs ≤ 65536

/-- R141: while a length is held, every active position has at least two repeats. -/
abbrev CountsAtLeastTwo (x : Session) : Prop :=
  ∀ i : Fin 30, i.val < x.len.toNat → 2 ≤ x.pos[i].count.toNat

/-- R149, R217: a length is held only from push 60 on, and a lock only from push 90 on. -/
abbrev LatencyInv (x : Session) : Prop :=
  (x.cycle ≠ .searching → 60 ≤ x.seq.toNat) ∧ (x.Settled → 90 ≤ x.seq.toNat)

/-- The next accepted push would be counted as a checkpoint push (R135), but for the state condition. -/
abbrev CheckpointNext (s : State) : Prop :=
  (s.session.seq.toNat + 1) % 30 = 0 ∧ 60 ≤ s.session.seq.toNat + 1

/-- The next accepted push goes to the last position (R140), if the length stays. -/
abbrev BoundaryNext (s : State) : Prop :=
  s.session.seq.toNat % s.session.len.toNat = s.session.len.toNat - 1

/-! ### What the next push computes -/

/-- The retained history with the pushed vector; a full history drops its oldest (R147). -/
abbrev nextHistory (s : State) : List Mags :=
  (if s.params.histCap = some s.session.hist.length then s.session.hist.tail else s.session.hist) ++ [s.mag]

/-- The detector's result on that history (R136). -/
abbrev nextDetection (s : State) : DetectResult :=
  detectCore ((nextHistory s).map fun m => m.toList.map BitVec.toNat)

/-- The next push is a checkpoint that reports the held length (R138). -/
abbrev ConfirmsNext (s : State) : Prop :=
  s.session.cycle = .detecting ∧ CheckpointNext s ∧ (nextDetection s).lstar = s.session.len.toNat

/-- The next push is a checkpoint that reports a first or another length (R137). -/
abbrev AdoptsNext (s : State) : Prop :=
  CheckpointNext s ∧
  (s.session.cycle = .searching ∨
    (s.session.cycle = .detecting ∧ (nextDetection s).lstar ≠ s.session.len.toNat))

/-- The replay of an adopting push, over the history with its own vector (R137). -/
abbrev nextReplay (s : State) : Option PosFile :=
  replay s.params (nextDetection s).lstar (s.session.seq.toNat + 1 - (nextHistory s).length) (nextHistory s)
    PosFile.initial

/-- The position file after the pushed vector has gone to position `i` (R139). -/
abbrev nextFile (s : State) (i : Fin 30) : PosFile :=
  s.session.pos.set i (updatedPosition s.params s.session.pos[i] s.mag)

/-- The cycle mean over that file (R141). -/
abbrev nextMean (s : State) (i : Fin 30) : Nat := cycleMean (nextFile s i) s.session.len.toNat

/-- The ring after a boundary: the mean is its newest value, and a full ring drops its oldest (R31, R142). -/
abbrev nextRing (s : State) (i : Fin 30) : List Q16 :=
  (if s.session.ring.length = s.params.ringCap then s.session.ring.tail else s.session.ring) ++
    [BitVec.ofNat 17 (nextMean s i)]

/-- A record has the text of the session after the push: the same length, and the same character at every position
(R143). -/
def SameTextNext (s : State) (i : Fin 30) (r : CopyRecord) : Prop :=
  r.len = s.session.len ∧ ∀ k : Fin 30, k.val < s.session.len.toNat → r.text[k] = (nextFile s i)[k].char

/-- The conditions of R143 on mean, counts and text: there is no record, or the last has another text. -/
def CopyDueNext (s : State) (i : Fin 30) : Prop :=
  s.params.copyTh ≤ nextMean s i ∧ 2 ≤ minCount (nextFile s i) s.session.len.toNat ∧
  ∀ r ∈ s.copies.log.getLast?, ¬ SameTextNext s i r

/-- The copy log with the record of R143 appended; a full log drops its oldest (R34). -/
def nextCopies (s : State) (i : Fin 30) : CopyLog where
  log := (if s.copies.log.length = s.params.copyLogCap then s.copies.log.tail else s.copies.log) ++
    [{ ts := s.total + 1
       len := s.session.len
       text := Vector.ofFn fun k : Fin 30 => if k.val < s.session.len.toNat then (nextFile s i)[k].char else 0#8
       mean := BitVec.ofNat 17 (nextMean s i)
       depth := BitVec.ofNat 32 (minCount (nextFile s i) s.session.len.toNat)
       phase := s.phase }]
  appended := s.copies.appended + 1

/-- The conditions of R144 on counts and ring. -/
def CollapseDueNext (s : State) (i : Fin 30) : Prop :=
  s.params.collapseWindow ≤ minCount (nextFile s i) s.session.len.toNat ∧
  s.params.collapseWindow ≤ (nextRing s i).length ∧
  ∀ q ∈ (nextRing s i).drop ((nextRing s i).length - s.params.collapseWindow), q.toNat < s.params.collapseTh

/-- The detector's registers after the push: written at a checkpoint only (R117, R136). -/
abbrev nextDet (s : State) : DetectRegs :=
  if s.session.cycle = .detecting then DetectRegs.ofResult (nextDetection s) else s.det

/-- The next push reaches a boundary of a session that is LOCKED or CONFIRMED there: it was so before, or this push
locks it (R138, R146 corner case 4). Its vector goes to position `i` and its stores fit. -/
structure SettledBoundary (s : State) (i : Fin 30) : Prop where
  settled : s.session.Settled ∨ ConfirmsNext s
  boundary : BoundaryNext s
  position : i.val = s.session.seq.toNat % s.session.len.toNat
  counters : CountersFit s
  update : UpdateFits s.session.pos[i] s.mag

/-- The state with the advisory phase erased, from the register and from the records (R35). -/
def forgetPhase (s : State) : State :=
  { s with
    phase := 0#8
    copies := { s.copies with log := s.copies.log.map fun r => { r with phase := 0#8 } } }

/-- The host leaves the window with its next access: the one thing that stops the machine (R54). -/
def leavesWindow (s : State) : Prop :=
  match s.pending with
  | .read off _ :: _ => 0x2000 ≤ off
  | .write off _ _ :: _ => 0x2000 ≤ off
  | _ => False

/-- `n` steps from `s` all answer a next state. -/
def SafeRun (n : Nat) (s : State) : Prop := ∃ t, Sys2Proof.core.run n s = .next t

end Sys2Proof.Machine
end

