-- ==== Sys2Proof/Certificates/Slice0/Obligations.lean ====
section
/-! DEFINITION. The statements for the provers, from the numbered rules of spec/. -/

open Sys2Proof Sys2Proof.Machine

/-! ### Encoding (30_encoding.md) -/

/-- Words written out from R73's table decode to their commands, and their neighbours are refused by name. -/
def Obligations.TableWordsDecode : Prop :=
  decode 0x00000000#32 = .ok .nop ∧ decode 0x00000001#32 = .ok .decode ∧ decode 0x00000011#32 = .ok .decodeG ∧
  decode 0x00000002#32 = .ok .push ∧ decode 0x00000703#32 = .ok (.reset 7#8) ∧
  decode 0x0000FF04#32 = .ok (.setPhase 255#8) ∧ decode 0x00000005#32 = .ok .detect ∧
  decode 0x00000006#32 = .error .unusedOpcode ∧ decode 0x00000023#32 = .error .reservedField ∧
  decode 0x00010003#32 = .error .reservedField ∧ decode 0x00000012#32 = .error .gateBit ∧
  decode 0x00000101#32 = .error .immediate

/-- Decode and encode agree over all 2^32 words and all commands: a word decodes to a command exactly when it is that
command's word (R71..R73). -/
def Obligations.DecodeIffEncode : Prop :=
  ∀ (w : Word) (i : Instr), decode w = .ok i ↔ w = encode i

/-- R73: the rows of the table are disjoint. -/
def Obligations.OpcodeRowsDisjoint : Prop :=
  ∀ (w : Word) (a b : Fin opcodeRows.length),
    opcodeRows[a].matches w = true → opcodeRows[b].matches w = true → a = b

/-- R74: a word matches no row exactly in the four cases of the rule, stated on the word's value; a step at a pending
write of such a word to CMD raises ILLEGAL_COMMAND and changes nothing else but the result, and every other word is a
command. -/
def Obligations.IllegalWordRaises : Prop :=
  ∀ (w : Word),
    let op := w.toNat % 16
    let illegal := 6 ≤ op ∨ w.toNat / 32 % 8 ≠ 0 ∨ w.toNat / 65536 ≠ 0 ∨ (w.toNat / 16 % 2 = 1 ∧ op ≠ 1) ∨
      (w.toNat / 256 % 256 ≠ 0 ∧ (op = 0 ∨ op = 1 ∨ op = 2 ∨ op = 5))
    (illegal ↔ ∀ r ∈ opcodeRows, r.matches w = false) ∧
    (illegal → ∀ s, executeWord w s =
      .next { s with errIll := true, lastResult := .illegal, out := .response ⟨.illegal, none, false⟩ }) ∧
    (illegal → ∀ (s : State) (rest : List HostEvent), s.pending = .write 0x20 4 w :: rest → step s = .next { s with
      errIll := true
      lastResult := .illegal
      out := .response ⟨.illegal, none, false⟩
      pending := rest }) ∧
    (¬ illegal → ∃ i, decode w = .ok i)

/-! ### The step and the bus (20_memory.md, 43_control.md) -/

/-- A step at a pending CMD write executes its word, whatever the word, on the state without that write; where the word
decodes, that is the command's meaning. -/
def Obligations.StepRunsDecodedCommand : Prop :=
  ∀ (s : State) (w : Word) (rest : List HostEvent), s.pending = .write 0x20 4 w :: rest →
    step s = executeWord w { s with pending := rest } ∧
    ∀ i : Instr, decode w = .ok i → step s = exec i { s with pending := rest }

/-- With no access pending the block holds all its state (R203; the queue is the model's, log 1). -/
def Obligations.IdleStepHolds : Prop := ∀ s : State, s.pending = [] → step s = .next s

/-- R52: every access that is not an aligned 32-bit one sets ERR_BUS and does nothing else; a read returns 0 and even a
write at CMD starts no command. -/
def Obligations.BusErrorHasNoOtherEffect : Prop :=
  ∀ (s : State) (off size : Nat) (v : Word) (rest : List HostEvent), off < 0x2000 → (size ≠ 4 ∨ off % 4 ≠ 0) →
    (s.pending = .read off size :: rest →
      step s = .next { s with errBus := true, out := .readData 0#32, pending := rest }) ∧
    (s.pending = .write off size v :: rest →
      step s = .next { s with errBus := true, out := .nothing, pending := rest })

/-- R53, R54, R175: an aligned write stores MAG below 0x20 and is ignored above CMD. -/
def Obligations.AlignedWriteEffects : Prop :=
  ∀ (s : State) (v : Word) (rest : List HostEvent),
    (∀ k : Fin 8, s.pending = .write (4 * k.val) 4 v :: rest →
      step s = .next { s with mag := s.mag.set k v, out := .nothing, pending := rest }) ∧
    (∀ off, off % 4 = 0 → 0x24 ≤ off → off < 0x2000 → s.pending = .write off 4 v :: rest →
      step s = .next { s with out := .nothing, pending := rest })

/-- R53, R54, R174: an aligned read changes no register and returns what the mapped register reads, 0 where nothing is
mapped. -/
def Obligations.AlignedReadEffects : Prop :=
  ∀ (s : State) (off : Nat) (rest : List HostEvent), off % 4 = 0 → off < 0x2000 → s.pending = .read off 4 :: rest →
    ∃ v, step s = .next { s with out := .readData v, pending := rest } ∧
      (∀ r : Reg, r.offset = off → v = r.read s) ∧ ((∀ r : Reg, r.offset ≠ off) → v = 0#32)

/-- The model's choice (log 6) where R54 says an offset is not part of the block: the step stops by name. -/
def Obligations.OutsideWindowStops : Prop :=
  ∀ (s : State) (off size : Nat) (v : Word) (rest : List HostEvent), 0x2000 ≤ off →
    (s.pending = .read off size :: rest ∨ s.pending = .write off size v :: rest) →
    step s = .fault (.outsideWindow off)

/-- The only stop: a step that answers no next state is at an access outside the window (R54), for every state. -/
def Obligations.OnlyLeavingTheWindowStops : Prop :=
  ∀ s : State, (∃ t, step s = .next t) ↔ ¬ leavesWindow s

/-- R55, R57: the offset of every register; each is aligned and inside the window, reading there reads that register, and
nothing else is placed. -/
def Obligations.RegisterMapIsInjective : Prop :=
  (∀ r : Reg, r.offset % 4 = 0 ∧ r.offset < 0x2000 ∧ regAt r.offset = some r) ∧
  (∀ off r, off % 4 = 0 → regAt off = some r → r.offset = off) ∧
  [Reg.cmd, .status, .session, .phase, .decResult, .decConf, .seqLo, .seqHi, .totalLo, .totalHi, .hlen, .repeatCount,
    .meanConf, .ringInfo, .resetEvents, .lastReset, .copyTotal, .copyInfo, .detInfo, .detN, .detMean, .pConfTh,
    .pCopyTh, .pCollapseTh, .pMisc, .pHistCap, .ident].map Reg.offset =
  [0x20, 0x24, 0x28, 0x2C, 0x30, 0x34, 0x38, 0x3C, 0x40, 0x44, 0x48, 0x4C, 0x50, 0x54, 0x58, 0x5C, 0x60, 0x64, 0x68,
    0x6C, 0x70, 0x74, 0x78, 0x7C, 0x80, 0x84, 0x88] ∧
  (∀ k : Fin 8, (Reg.mag k).offset = 4 * k.val) ∧
  (∀ k : Fin 16, (Reg.ringv k).offset = 0xC0 + 4 * k.val) ∧
  (∀ p : Fin 30, (Reg.posA p).offset = 0x100 + 8 * p.val ∧ (Reg.posB p).offset = 0x104 + 8 * p.val) ∧
  (∀ i : Fin 28, (Reg.detScore i).offset = 0x200 + 4 * i.val ∧ (Reg.detNorm i).offset = 0x280 + 4 * i.val) ∧
  (∀ (p : Fin 30) (k : Fin 8), (Reg.sumLo p k).offset = 0x400 + 64 * p.val + 8 * k.val ∧
    (Reg.sumHi p k).offset = 0x404 + 64 * p.val + 8 * k.val) ∧
  (∀ (k : Fin 64) (w : Fin 16), (Reg.copyLog k w).offset = 0x1000 + 64 * k.val + 4 * w.val)

/-- What every register of R55 reads, as a number: its fields at their bits and 0 elsewhere, with the encodings of R23,
R37, R38 and R39, the constant of R56 and the record layout of R57. A count is read whole where it fits its field. -/
def Obligations.PackedFieldsReadBack : Prop :=
  ∀ s : State,
    let rd := fun r : Reg => (r.read s).toNat
    rd .status =
      (match s.session.cycle with | .searching => 0 | .detecting => 1 | .locked => 2 | .confirmed => 3) +
        2 ^ 2 * s.errIll.toNat + 2 ^ 3 * s.errOvf.toNat + 2 ^ 4 * s.errBus.toNat +
        2 ^ 5 * (match s.lastResult with | .ok => 0 | .illegal => 1 | .rejectedOvf => 2) ∧
    rd .session = s.session.len.toNat + 2 ^ 8 * s.session.confCnt.toNat ∧
    rd .phase = s.phase.toNat ∧
    rd .decResult = s.dec.char.toNat + 2 ^ 16 * s.dec.code.toNat + 2 ^ 24 * s.dec.gated.toNat ∧
    rd .decConf = s.dec.conf.toNat ∧
    rd .seqLo = s.session.seq.toNat % 2 ^ 32 ∧ rd .seqHi = s.session.seq.toNat / 2 ^ 32 ∧
    rd .totalLo = s.total.toNat % 2 ^ 32 ∧ rd .totalHi = s.total.toNat / 2 ^ 32 ∧
    (s.session.hist.length < 2 ^ 32 → rd .hlen = s.session.hist.length) ∧
    rd .repeatCount = minCount s.session.pos s.session.len.toNat ∧
    rd .meanConf = s.session.meanConf.toNat ∧
    (s.session.ring.length ≤ s.params.ringCap → rd .ringInfo = s.session.ring.length + 2 ^ 8 * s.params.ringCap) ∧
    rd .resetEvents = s.resetEvents.toNat ∧
    rd .lastReset = s.lastReset.valid.toNat + 2 * (match s.lastReset.kind with | .manual => 0 | .collapse => 1) +
      2 ^ 8 * s.lastReset.code.toNat ∧
    rd .copyTotal = s.copies.appended.toNat ∧
    (s.copies.log.length ≤ s.params.copyLogCap →
      rd .copyInfo = s.copies.log.length + 2 ^ 8 * s.params.copyLogCap) ∧
    rd .detInfo = (match s.det.status with | .none => 0 | .ok => 1 | .insufficient => 2) +
      2 ^ 8 * s.det.len.toNat + 2 ^ 16 * s.det.raw.toNat + 2 ^ 24 * s.det.maxl.toNat ∧
    rd .detN = s.det.n.toNat ∧ rd .detMean = s.det.mean.toNat ∧
    rd .pConfTh = s.params.confTh ∧ rd .pCopyTh = s.params.copyTh ∧ rd .pCollapseTh = s.params.collapseTh ∧
    rd .pMisc = s.params.collapseWindow + 2 ^ 8 * s.params.ringCap + 2 ^ 16 * s.params.copyLogCap ∧
    (∀ cap, s.params.histCap = some cap → rd .pHistCap = cap) ∧
    rd .ident = 0x4F4B0007 ∧ rd .cmd = 0 ∧
    (∀ k : Fin 8, rd (.mag k) = s.mag[k].toNat) ∧
    (∀ k : Fin 16, rd (.ringv k) = (s.session.ring.map BitVec.toNat).getD k.val 0) ∧
    (∀ p : Fin 30,
      rd (.posA p) = s.session.pos[p].char.toNat + 2 ^ 8 * s.session.pos[p].flip.toNat +
        2 ^ 15 * s.session.pos[p].conf.toNat ∧
      rd (.posB p) = s.session.pos[p].count.toNat ∧
      ∀ k : Fin 8, rd (.sumLo p k) = s.session.pos[p].sum[k].toNat % 2 ^ 32 ∧
        rd (.sumHi p k) = s.session.pos[p].sum[k].toNat / 2 ^ 32) ∧
    (∀ i : Fin 28, rd (.detScore i) = s.det.score[i].toNat ∧ rd (.detNorm i) = s.det.norm[i].toNat) ∧
    (∀ (k : Fin 64) (w : Fin 16), (s.copies.log.length ≤ k.val ∨ s.params.copyLogCap ≤ k.val) →
      rd (.copyLog k w) = 0) ∧
    (∀ (k : Fin 64) (r : CopyRecord), s.copies.log[k.val]? = some r → k.val < s.params.copyLogCap →
      rd (.copyLog k 0) = r.ts.toNat % 2 ^ 32 ∧ rd (.copyLog k 1) = r.ts.toNat / 2 ^ 32 ∧
      rd (.copyLog k 2) = r.len.toNat + 2 ^ 8 * r.phase.toNat ∧ rd (.copyLog k 3) = r.mean.toNat ∧
      rd (.copyLog k 4) = r.depth.toNat ∧
      (∀ i : Fin 8, rd (.copyLog k ⟨5 + i.val, by omega⟩) =
        ∑ b ∈ Finset.range 4, 2 ^ (8 * b) * (r.text.toList.getD (4 * i.val + b) 0#8).toNat) ∧
      rd (.copyLog k 13) = 0 ∧ rd (.copyLog k 14) = 0 ∧ rd (.copyLog k 15) = 0)

/-- R145: read through the window, the snapshot is the session's own data. -/
def Obligations.SnapshotReadsTheSession : Prop :=
  ∀ s : State, s.Inv → snapshot s =
    { cycle := s.session.cycle.bits
      length := s.session.len
      repeatCount := BitVec.ofNat 32 s.repeatCount
      perPosition := (s.session.pos.toList.take s.session.len.toNat).map
        fun q => { char := q.char, conf := q.conf, count := q.count, flip := q.flip }
      meanConf := s.session.meanConf
      trend := s.session.ring
      copies := s.copies.log }

/-! ### Symbol decoder (40_decode.md) -/

/-- R90: with the eight values in any descending arrangement `t`, the confidence is the floor of the rule's quotient, 0
on a zero range, and it lies in 0..65536. -/
def Obligations.ConfidenceFromRanks : Prop :=
  ∀ v t : List Nat, v.length = 8 → t.Perm v → t.Pairwise (· ≥ ·) →
    (confidence v = if t.getD 0 0 - t.getD 7 0 = 0 then 0
      else (t.getD 3 0 - t.getD 4 0) * 65536 / (t.getD 0 0 - t.getD 7 0)) ∧
    confidence v ≤ 65536

/-- R91: with at least four positive entries, the codeword has four bits, and every selected slot is greater than every
other, or equal to it and at a lower index. -/
def Obligations.CodewordSelectsFourLargest : Prop :=
  ∀ v : List Nat, v.length = 8 → 4 ≤ v.countP (fun x => decide (0 < x)) →
    ((Finset.range 8).filter fun i => (codeword v).getLsbD i = true).card = 4 ∧
    ∀ i j, i < 8 → j < 8 → (codeword v).getLsbD i = true → (codeword v).getLsbD j = false →
      v.getD j 0 < v.getD i 0 ∨ (v.getD j 0 = v.getD i 0 ∧ i < j)

/-- R95 item 4: with fewer than four positive entries, the codeword is the positive slots and slot 0. -/
def Obligations.FewPositiveEntriesSelectSlotZero : Prop :=
  ∀ v : List Nat, v.length = 8 → v.countP (fun x => decide (0 < x)) < 4 →
    ∀ i, i < 8 → ((codeword v).getLsbD i = true ↔ i = 0 ∨ 0 < v.getD i 0)

/-- R95 item 1: four entries at V > 0 and four at 0 decode to confidence 1.0 and exactly those four slots. -/
def Obligations.FourOnVectorIsCertain : Prop :=
  ∀ (cw : Byte) (V : Nat), ((Finset.range 8).filter fun i => cw.getLsbD i = true).card = 4 → 0 < V →
    let v := (List.range 8).map fun i => if cw.getLsbD i then V else 0
    confidence v = 65536 ∧ codeword v = cw

/-- R95 item 2: an all-equal vector has confidence 0, is gated to UNK by a positive threshold, and selects the four
lowest slots, or slot 0 alone when it is all zero. -/
def Obligations.AllEqualVectorIsUncertain : Prop :=
  ∀ (p : Params) (c : Nat), 0 < p.confTh →
    confidence (List.replicate 8 c) = 0 ∧
    (decodeCore p (List.replicate 8 c) true).char = 0x100#9 ∧
    codeword (List.replicate 8 c) = if c = 0 then 0x01#8 else 0x0F#8

/-- R95 item 6: scaling the vector changes nothing that is decoded. -/
def Obligations.DecodeIsScaleInvariant : Prop :=
  ∀ (p : Params) (v : List Nat) (a : Nat) (g : Bool), v.length = 8 → 1 ≤ a →
    decodeCore p (v.map (a * ·)) g = decodeCore p v g

/-- R92: on every instance, a codeword of weight other than 4 decodes to '?'. -/
def Obligations.OtherWeightsDecodeToQuestionMark : Prop :=
  ∀ (inst : Instance) (v : List Nat), ((Finset.range 8).filter fun i => (codeword v).getLsbD i = true).card ≠ 4 →
    (decodeCore inst.val v false).char = 0x03F#9

/-- R94: DECODE completes in every state, writes the four result registers from MAG, ungated, and changes nothing else
but the result and the response. -/
def Obligations.DecodeCompletes : Prop :=
  ∀ s : State, ∃ d : DecodeRegs,
    exec .decode s = .next { s with dec := d, lastResult := .ok, out := .response ⟨.ok, none, false⟩ } ∧
    d.conf.toNat = confidence (s.mag.toList.map BitVec.toNat) ∧
    d.code = codeword (s.mag.toList.map BitVec.toNat) ∧
    d.gated = false ∧
    d.char = (s.params.codeTable[d.code.toNat]).setWidth 9

/-- R93, R94: DECODE.G completes in every state as DECODE does, but that a confidence strictly below CONF_TH forces UNK
and sets DEC_GATED. -/
def Obligations.GatedDecodeCompletes : Prop :=
  ∀ s : State, ∃ d : DecodeRegs,
    exec .decodeG s = .next { s with dec := d, lastResult := .ok, out := .response ⟨.ok, none, false⟩ } ∧
    d.conf.toNat = confidence (s.mag.toList.map BitVec.toNat) ∧
    d.code = codeword (s.mag.toList.map BitVec.toNat) ∧
    (d.gated = true ↔ d.conf.toNat < s.params.confTh) ∧
    d.char = if d.conf.toNat < s.params.confTh then 0x100#9 else (s.params.codeTable[d.code.toNat]).setWidth 9

/-! ### Length detector (41_detect.md) -/

/-- R112, R9: with the three sums written out, a pair is valid exactly when neither norm is 0; the Q16 cosine of a valid
pair is the sum of the products times 65536 over the integer square root `r` of the product of the norms, rounded down.
It is at most 1.0, and exactly 1.0 of a vector with itself. -/
def Obligations.CosineIsBounded : Prop :=
  ∀ a b : List Nat, a.length = 8 → b.length = 8 →
    let ab := ∑ k ∈ Finset.range 8, a.getD k 0 * b.getD k 0
    let na := ∑ k ∈ Finset.range 8, a.getD k 0 * a.getD k 0
    let nb := ∑ k ∈ Finset.range 8, b.getD k 0 * b.getD k 0
    let r := isqrt (na * nb)
    dot a b = ab ∧ (pairValid a b = true ↔ 0 < na ∧ 0 < nb) ∧
    r * r ≤ na * nb ∧ na * nb < (r + 1) * (r + 1) ∧
    (pairValid a b = true → cosQ a b = ab * 65536 / r ∧ ab ≤ r ∧ cosQ a b ≤ 65536 ∧ cosQ a a = 65536)

/-- R113: the score of a candidate is the floor mean of the cosines over the valid indices of 0..N−c−1, 0 when there is
none. -/
def Obligations.ScoreIsMeanOverValidIndices : Prop :=
  ∀ (H : List (List Nat)) (c : Nat),
    let P := (Finset.range (H.length - c)).filter fun i => pairValid (H.getD i []) (H.getD (i + c) []) = true
    rawScore H c = if P.card = 0 then 0 else (∑ i ∈ P, cosQ (H.getD i []) (H.getD (i + c) [])) / P.card

/-- R114, R115: on a sufficient history the raw length is the smallest candidate whose normalised score is greatest, and
that score is not negative. -/
def Obligations.RawLengthIsSmallestArgmax : Prop :=
  ∀ H : List (List Nat), 6 ≤ H.length →
    let maxl := min 30 (H.length / 2)
    let mean := (∑ c ∈ Finset.Icc 3 maxl, rawScore H c) / (maxl - 2)
    let norm := fun c => (rawScore H c : Int) - (mean : Int)
    let r := detectCore H
    r.mean = mean ∧ 3 ≤ r.raw ∧ r.raw ≤ maxl ∧ 0 ≤ norm r.raw ∧
      ∀ c, 3 ≤ c → c ≤ maxl → norm c ≤ norm r.raw ∧ (norm c = norm r.raw → r.raw ≤ c)

/-- R116: the result is `L_raw / d` for the smallest divisor `d` whose quotient is at least 3 and scores at least half
of `L_raw`'s normalised score, and `L_raw` where there is none. -/
def Obligations.AntiHarmonicTakesFirstDivisor : Prop :=
  ∀ H : List (List Nat), 6 ≤ H.length →
    let r := detectCore H
    let norm := fun c => (rawScore H c : Int) - (r.mean : Int)
    let wins := fun d => 2 ≤ d ∧ d < r.raw ∧ r.raw % d = 0 ∧ 3 ≤ r.raw / d ∧ norm r.raw ≤ 2 * norm (r.raw / d)
    (∃ d, wins d ∧ (∀ e, wins e → d ≤ e) ∧ r.lstar = r.raw / d) ∨ ((∀ d, ¬ wins d) ∧ r.lstar = r.raw)

/-- R117, R119: DETECT completes in every state. It writes the detector's registers, without truncation, and changes
nothing else but the result and the response. -/
def Obligations.DetectCompletes : Prop :=
  ∀ s : State,
    let H := s.session.hist.map fun m => m.toList.map BitVec.toNat
    let r := detectCore H
    let d := DetectRegs.ofResult r
    exec .detect s = .next { s with det := d, lastResult := .ok, out := .response ⟨.ok, none, false⟩ } ∧
      d.status = (if H.length < 6 then .insufficient else .ok) ∧
      d.n.toNat = H.length % 2 ^ 32 ∧ d.maxl.toNat = min 30 (H.length / 2) ∧
      d.raw.toNat = (if H.length < 6 then 0 else r.raw) ∧ d.len.toNat = (if H.length < 6 then 0 else r.lstar) ∧
      d.mean.toNat = (if H.length < 6 then 0 else r.mean) ∧
      ∀ i : Fin 28,
        d.score[i].toNat = (if 6 ≤ H.length ∧ i.val + 3 ≤ d.maxl.toNat then rawScore H (i.val + 3) else 0) ∧
        d.norm[i].toInt = (if 6 ≤ H.length ∧ i.val + 3 ≤ d.maxl.toNat
          then (rawScore H (i.val + 3) : Int) - (d.mean.toNat : Int) else 0)

/-- R118: INSUFFICIENT comes with no length, OK always with one in 3..30, and neither raises an error. -/
def Obligations.DetectStatusIsNeverALength : Prop :=
  ∀ s t : State, exec .detect s = .next t →
    (t.det.status = .insufficient → t.det.len = 0#5) ∧
    (t.det.status = .ok → 3 ≤ t.det.len.toNat ∧ t.det.len.toNat ≤ 30) ∧
    t.errIll = s.errIll ∧ t.errOvf = s.errOvf ∧ t.errBus = s.errBus

/-- R120 item 3: an all-zero history of at least six vectors gives OK with length 3 and every score 0. -/
def Obligations.ZeroHistoryGivesThree : Prop :=
  ∀ H : List (List Nat), 6 ≤ H.length → (∀ v ∈ H, dot v v = 0) →
    let r := detectCore H
    r.status = .ok ∧ r.raw = 3 ∧ r.lstar = 3 ∧ ∀ x ∈ r.scores, x = 0

/-- R120 item 5: on a noise-free history of period `p` with no zero vector and every cosine of two distinct positions
below 65536, the raw length is `p`. -/
def Obligations.NoiseFreePeriodIsFound : Prop :=
  ∀ (H : List (List Nat)) (p : Nat), 3 ≤ p → p ≤ min 30 (H.length / 2) →
    (∀ v ∈ H, 0 < dot v v) →
    (∀ i, i + p < H.length → H.getD (i + p) [] = H.getD i []) →
    (∀ x y, x < p → y < p → x ≠ y → cosQ (H.getD x []) (H.getD y []) < 65536) →
    (detectCore H).raw = p

/-! ### Accumulator (42_push.md §1) -/

/-- R130, R133, R134: an update whose stores fit adds the vector and one repeat, re-decodes the sum ungated and flags a
change from a character that was not '?'; one whose stores do not fit is an overflow. -/
def Obligations.UpdateAddsAndRedecodes : Prop :=
  ∀ (p : Params) (q : Position) (m : Mags),
    let fits := (∀ i : Fin 8, q.sum[i].toNat + m[i].toNat < 2 ^ 64) ∧ q.count.toNat + 1 < 2 ^ 32
    let q' := updatedPosition p q m
    (fits → updatePosition p q m = some q' ∧
      (∀ i : Fin 8, q'.sum[i].toNat = q.sum[i].toNat + m[i].toNat) ∧
      q'.count.toNat = q.count.toNat + 1 ∧
      q'.char = p.codeTable[(codeword (q'.sum.toList.map BitVec.toNat)).toNat] ∧
      q'.conf.toNat = confidence (q'.sum.toList.map BitVec.toNat) ∧
      (q'.flip = true ↔ q'.char ≠ q.char ∧ q.char ≠ 0x3F#8)) ∧
    (¬ fits → updatePosition p q m = none)

/-- R150: any number of updates with one vector from the initial position leaves the character and confidence of a
single update. -/
def Obligations.RepeatsAreIdempotent : Prop :=
  ∀ (p : Params) (m : Mags) (k : Nat), 1 ≤ k → k < 2 ^ 32 →
    ∃ q q1, (List.replicate k m).foldlM (updatePosition p) Position.initial = some q ∧
      updatePosition p Position.initial m = some q1 ∧ q.char = q1.char ∧ q.conf = q1.conf ∧ q.count.toNat = k

/-- R41, R137: a replay is, position by position, the fold of `UPDATE` over the vectors whose absolute index is that
position modulo `L`, in increasing index; it overflows exactly when one of these folds does. -/
def Obligations.ReplayIsFoldPerPosition : Prop :=
  ∀ (p : Params) (L j : Nat) (ms : List Mags) (f : PosFile), 1 ≤ L → L ≤ 30 →
    let fold := fun i : Fin 30 =>
      (((ms.zipIdx j).filter fun mk => mk.2 % L == i.val).map Prod.fst).foldlM (updatePosition p) f[i]
    (∀ f', replay p L j ms f = some f' → ∀ i, fold i = some f'[i]) ∧
    (replay p L j ms f = none ↔ ∃ i, fold i = none)

/-- R41: replaying one more vector is replaying the others and then routing that one, so the bulk and the incremental
path cannot diverge. -/
def Obligations.ReplayIsIncremental : Prop :=
  ∀ (p : Params) (L j : Nat) (ms : List Mags) (m : Mags) (f : PosFile),
    replay p L j (ms ++ [m]) f = (replay p L j ms f).bind fun g => updateAt p g ((j + ms.length) % L) m

/-- R33, R141: over `L` active positions, REPEAT is the least count and the cycle mean is the floor mean of the
confidences of the counted positions. -/
def Obligations.RepeatAndCycleMean : Prop :=
  ∀ (f : PosFile) (L : Nat), 1 ≤ L → L ≤ 30 →
    ((∀ i : Fin 30, i.val < L → minCount f L ≤ f[i].count.toNat) ∧
      ∃ i : Fin 30, i.val < L ∧ minCount f L = f[i].count.toNat) ∧
    let A := Finset.univ.filter fun i : Fin 30 => i.val < L ∧ 0 < f[i].count.toNat
    cycleMean f L = if A.card = 0 then 0 else (∑ i ∈ A, f[i].conf.toNat) / A.card

/-! ### PUSH (42_push.md §2, §3) -/

/-- R136, R139, R146: a push in SEARCHING that is no checkpoint is accepted and changes only TOTAL, the history, SEQ and
the result. -/
def Obligations.PushWhileSearchingCompletes : Prop :=
  ∀ s : State, s.session.cycle = .searching → s.session.len = 0#5 → ¬ CheckpointNext s → CountersFit s →
    exec .push s = .next { s with
      total := s.total + 1
      session := { s.session with
        hist := nextHistory s
        seq := s.session.seq + 1 }
      lastResult := .ok
      out := .response ⟨.ok, none, false⟩ }

/-- R136, R139: a push with a length, at no checkpoint and no boundary, is accepted when its stores fit; it updates one
position with MAG and recomputes the mean. -/
def Obligations.PushRoutesOneVector : Prop :=
  ∀ (s : State) (i : Fin 30), s.session.len ≠ 0#5 → (s.session.Settled ∨ ¬ CheckpointNext s) → ¬ BoundaryNext s →
    i.val = s.session.seq.toNat % s.session.len.toNat → CountersFit s → UpdateFits s.session.pos[i] s.mag →
    let f := s.session.pos.set i (updatedPosition s.params s.session.pos[i] s.mag)
    exec .push s = .next { s with
      total := s.total + 1
      session := { s.session with
        hist := nextHistory s
        seq := s.session.seq + 1
        pos := f
        meanConf := BitVec.ofNat 17 (cycleMean f s.session.len.toNat) }
      lastResult := .ok
      out := .response ⟨.ok, none, false⟩ }

/-- R137, R146: a checkpoint in SEARCHING, or one in DETECTING that reports another length, adopts the detector's length.
The positions are the replay of the retained history, the pushed vector counted once; the count of confirmations is 1
and the ring holds a value only if the push is a boundary. The replay fits whenever the history has fewer than 2^32
entries, as every finite HIST_CAP has it; where it overflows the push is rejected whole (R134). -/
def Obligations.CheckpointAdoptsAndReplays : Prop :=
  ∀ s : State, s.Inv → AdoptsNext s → CountersFit s →
    let r := nextDetection s
    (s.params.histCap ≠ none → (nextHistory s).length < 2 ^ 32) ∧
    ((nextHistory s).length < 2 ^ 32 → ∃ f, nextReplay s = some f) ∧
    (∀ f, nextReplay s = some f →
      exec .push s = .next { s with
        total := s.total + 1
        session :=
          { cycle := .detecting
            len := BitVec.ofNat 5 r.lstar
            confCnt := 1#2
            seq := s.session.seq + 1
            hist := nextHistory s
            pos := f
            ring := if s.session.seq.toNat % r.lstar = r.lstar - 1 then [BitVec.ofNat 17 (cycleMean f r.lstar)] else []
            meanConf := BitVec.ofNat 17 (cycleMean f r.lstar) }
        det := DetectRegs.ofResult r
        lastResult := .ok
        out := .response ⟨.ok, none, false⟩ }) ∧
    (nextReplay s = none →
      exec .push s = .next { s with
        errOvf := true
        lastResult := .rejectedOvf
        out := .response ⟨.rejectedOvf, none, false⟩ })

/-- R138: a checkpoint in DETECTING that reports the held length locks, without a replay; stated here at a push that is no
boundary, and at a boundary by the two statements on settled boundaries below. -/
def Obligations.CheckpointConfirmsAndLocks : Prop :=
  ∀ (s : State) (i : Fin 30), s.Inv → s.session.cycle = .detecting → CheckpointNext s → ¬ BoundaryNext s →
    i.val = s.session.seq.toNat % s.session.len.toNat → CountersFit s → UpdateFits s.session.pos[i] s.mag →
    let r := nextDetection s
    let f := s.session.pos.set i (updatedPosition s.params s.session.pos[i] s.mag)
    r.lstar = s.session.len.toNat →
    exec .push s = .next { s with
      total := s.total + 1
      session := { s.session with
        cycle := .locked
        confCnt := 2#2
        hist := nextHistory s
        seq := s.session.seq + 1
        pos := f
        meanConf := BitVec.ofNat 17 (cycleMean f s.session.len.toNat) }
      det := DetectRegs.ofResult r
      lastResult := .ok
      out := .response ⟨.ok, none, false⟩ }

/-- R140, R142: in DETECTING a boundary push that is no checkpoint appends the cycle mean to the ring, the oldest value
going first at the capacity, and takes no copy. -/
def Obligations.DetectingBoundaryFillsRing : Prop :=
  ∀ (s : State) (i : Fin 30), s.session.cycle = .detecting → s.session.len ≠ 0#5 → ¬ CheckpointNext s →
    BoundaryNext s → i.val = s.session.seq.toNat % s.session.len.toNat → CountersFit s →
    UpdateFits s.session.pos[i] s.mag →
    let f := s.session.pos.set i (updatedPosition s.params s.session.pos[i] s.mag)
    let mc : Q16 := BitVec.ofNat 17 (cycleMean f s.session.len.toNat)
    exec .push s = .next { s with
      total := s.total + 1
      session := { s.session with
        hist := nextHistory s
        seq := s.session.seq + 1
        pos := f
        ring := (if s.session.ring.length = s.params.ringCap then s.session.ring.tail else s.session.ring) ++ [mc]
        meanConf := mc }
      lastResult := .ok
      out := .response ⟨.ok, none, false⟩ }

/-- R142, R143, R34: at a boundary of a session that is LOCKED or CONFIRMED there, the push that locks included, a record
is appended exactly when the mean, the counts and the text call for one, and the response says so. Where the boundary
does not collapse, the whole next state: the vector routed, the mean in MEAN_CONF and in the ring, STATE changed only by
the lock and by the copy. -/
def Obligations.BoundaryAppendsCopyExactlyWhenDue : Prop :=
  ∀ (s : State) (i : Fin 30), s.Inv → SettledBoundary s i →
    (∃ (t : State) (e : Option ResetEvent) (c : Bool), exec .push s = .next t ∧ t.out = .response ⟨.ok, e, c⟩ ∧
      (c = true ↔ CopyDueNext s i) ∧ (CopyDueNext s i → t.copies = nextCopies s i) ∧
      (¬ CopyDueNext s i → t.copies = s.copies)) ∧
    (¬ CollapseDueNext s i →
      let next := fun (cycle : CycleState) (copies : CopyLog) (copied : Bool) => { s with
        total := s.total + 1
        session := { s.session with
          cycle := cycle
          confCnt := 2#2
          hist := nextHistory s
          seq := s.session.seq + 1
          pos := nextFile s i
          ring := nextRing s i
          meanConf := BitVec.ofNat 17 (nextMean s i) }
        copies := copies
        det := nextDet s
        lastResult := .ok
        out := .response ⟨.ok, none, copied⟩ }
      (CopyDueNext s i → exec .push s = .next (next .confirmed (nextCopies s i) true)) ∧
      (¬ CopyDueNext s i → exec .push s =
        .next (next (if s.session.cycle = .detecting then .locked else s.session.cycle) s.copies false)))

/-- R144, R171: at a boundary of a session that is LOCKED or CONFIRMED there, the session is cleared exactly when the
counts reach COLLAPSE_WINDOW and that many newest ring values, this boundary's included, are below COLLAPSE_TH. The copy
log keeps a record of the same push; the phase and the other preserved registers stay. Otherwise nothing is reset. -/
def Obligations.LowWindowCollapses : Prop :=
  ∀ (s : State) (i : Fin 30), s.Inv → SettledBoundary s i →
    (CollapseDueNext s i →
      let collapsed := fun (copies : CopyLog) (copied : Bool) => { s with
        total := s.total + 1
        session := Session.initial
        copies := copies
        det := nextDet s
        resetEvents := s.resetEvents + 1
        lastReset := ⟨true, .collapse, 0#8⟩
        lastResult := .ok
        out := .response ⟨.ok, some ⟨.collapse, 0#8⟩, copied⟩ }
      (CopyDueNext s i → exec .push s = .next (collapsed (nextCopies s i) true)) ∧
      (¬ CopyDueNext s i → exec .push s = .next (collapsed s.copies false))) ∧
    (¬ CollapseDueNext s i → ∃ (t : State) (c : Bool), exec .push s = .next t ∧
      t.out = .response ⟨.ok, none, c⟩ ∧ t.resetEvents = s.resetEvents ∧ t.lastReset = s.lastReset ∧
      t.session.len = s.session.len ∧ t.session.Settled)

/-- R194: where COPY_TH is not below COLLAPSE_TH, no push reports both a copy and a collapse. -/
def Obligations.CopyAndCollapseAreExclusive : Prop :=
  ∀ s t : State, s.params.collapseTh ≤ s.params.copyTh → exec .push s = .next t →
    ∀ e, t.out ≠ .response ⟨.ok, some e, true⟩

/-- R134: a push that would overflow TOTAL, SEQ, a count or sum of the position it routes to, or a position of the replay
it adopts with, is rejected whole: the sticky bit, the result and the response, and nothing else. That this holds also
where a collapse of the same push would have cleared the value is the model's reading of R134 (log 7). -/
def Obligations.OverflowingPushIsRejected : Prop :=
  ∀ (s : State) (i : Fin 30),
    (s.total.toNat + 1 = 2 ^ 64 ∨ s.session.seq.toNat + 1 = 2 ^ 64 ∨
      (s.session.len ≠ 0#5 ∧ (s.session.Settled ∨ ¬ CheckpointNext s ∨ ConfirmsNext s) ∧
        i.val = s.session.seq.toNat % s.session.len.toNat ∧
        (s.session.pos[i].count.toNat + 1 = 2 ^ 32 ∨
          ∃ k : Fin 8, 2 ^ 64 ≤ s.session.pos[i].sum[k].toNat + s.mag[k].toNat)) ∨
      (AdoptsNext s ∧ 6 ≤ (nextHistory s).length ∧ nextReplay s = none)) →
    exec .push s = .next { s with
      errOvf := true
      lastResult := .rejectedOvf
      out := .response ⟨.rejectedOvf, none, false⟩ }

/-- R134: in a good state with room in the counters, the counts and the sums, every push is accepted, at a checkpoint too,
on every instance: with HIST_CAP = ∞ while the history has fewer than 2^32 entries. -/
def Obligations.PushWithRoomIsAccepted : Prop :=
  ∀ s : State, s.Inv → (s.params.histCap = none → s.session.hist.length + 1 < 2 ^ 32) → s.total.toNat + 1 < 2 ^ 64 →
    (∀ i : Fin 30, s.session.pos[i].count.toNat + 1 < 2 ^ 32 ∧
      ∀ k : Fin 8, s.session.pos[i].sum[k].toNat + 2 ^ 32 ≤ 2 ^ 64) →
    ∃ t e c, exec .push s = .next t ∧ t.out = .response ⟨.ok, e, c⟩ ∧ t.lastResult = .ok ∧
      t.total.toNat = s.total.toNat + 1 ∧ t.errOvf = s.errOvf

/-- The frame of PUSH in every state (R134, R136, R146): what it never writes, and what an accepted or a rejected one
leaves. -/
def Obligations.PushFrame : Prop :=
  ∀ s t : State, exec .push s = .next t →
    t.inst = s.inst ∧ t.mag = s.mag ∧ t.phase = s.phase ∧ t.dec = s.dec ∧ t.errIll = s.errIll ∧
    t.errBus = s.errBus ∧ t.pending = s.pending ∧
    ((t.lastResult = .ok ∧ t.errOvf = s.errOvf ∧ t.total = s.total + 1 ∧
        (¬ CheckpointNext s → t.det = s.det) ∧ (s.session.Settled → t.det = s.det)) ∨
     (t.lastResult = .rejectedOvf ∧ t.errOvf = true ∧ t.total = s.total ∧ t.session = s.session ∧
        t.copies = s.copies ∧ t.det = s.det ∧ t.resetEvents = s.resetEvents ∧ t.lastReset = s.lastReset))

/-! ### Control commands and resets (43_control.md, 70_reset_and_hazards.md) -/

/-- R170: NOP is the word 0; it completes in every state and sets LAST_RESULT to OK without changing any other state. -/
def Obligations.NopCompletes : Prop :=
  decode 0x00000000#32 = .ok .nop ∧
  ∀ s : State, exec .nop s = .next { s with lastResult := .ok, out := .response ⟨.ok, none, false⟩ }

/-- R171, R172: RESET is the word 0x0000rr03; it completes in every state with every reason code: the session is
cleared to the values written out here, the event is counted and recorded, and everything else is kept. -/
def Obligations.ResetCompletes : Prop :=
  (∀ code : Byte, decode (0x3#32 ||| code.setWidth 32 <<< 8) = .ok (.reset code)) ∧
  Position.initial = { sum := Vector.replicate 8 0#64, count := 0#32, char := 0x3F#8, conf := 0#17, flip := false } ∧
  PosFile.initial = Vector.replicate 30 Position.initial ∧
  Session.initial =
    { cycle := .searching, len := 0#5, confCnt := 0#2, seq := 0#64, hist := [], pos := PosFile.initial
      ring := [], meanConf := 0#17 } ∧
  ∀ (s : State) (code : Byte), exec (.reset code) s = .next { s with
    session := Session.initial
    resetEvents := s.resetEvents + 1
    lastReset := ⟨true, .manual, code⟩
    lastResult := .ok
    out := .response ⟨.ok, some ⟨.manual, code⟩, false⟩ }

/-- R173: SETPHASE is the word 0x0000nn04; it completes in every state with every phase and writes PHASE and the result
only. -/
def Obligations.SetPhaseCompletes : Prop :=
  (∀ n : Byte, decode (0x4#32 ||| n.setWidth 32 <<< 8) = .ok (.setPhase n)) ∧
  ∀ (s : State) (n : Byte), exec (.setPhase n) s = .next { s with
    phase := n, lastResult := .ok, out := .response ⟨.ok, none, false⟩ }

/-- R210, R211: power-on reset gives every register the value of the table, on the same instance; the events still
pending are the model's (log 9). -/
def Obligations.HardwareResetGivesTheTable : Prop :=
  ∀ (s : State) (rest : List HostEvent), s.pending = .hardwareReset :: rest →
    step s = .next
      { inst := s.inst
        mag := Vector.replicate 8 0#32
        session :=
          { cycle := .searching, len := 0#5, confCnt := 0#2, seq := 0#64, hist := []
            pos := Vector.replicate 30
              { sum := Vector.replicate 8 0#64, count := 0#32, char := 0x3F#8, conf := 0#17, flip := false }
            ring := [], meanConf := 0#17 }
        total := 0#64
        copies := ⟨[], 0#32⟩
        phase := 0#8
        dec := ⟨0x03F#9, 0#8, 0#17, false⟩
        det := ⟨.none, 0#32, 0#5, 0#5, 0#5, 0#17, Vector.replicate 28 0#17, Vector.replicate 28 0#32⟩
        resetEvents := 0#32
        lastReset := ⟨false, .manual, 0#8⟩
        errIll := false
        errOvf := false
        errBus := false
        lastResult := .ok
        pending := rest
        out := .nothing }

/-! ### Whole-machine rules -/

/-- R148: the only changes of STATE one command can make. A push may pass through LOCKED (R146 corner case 4). -/
def Obligations.StateChangesOnlyAsListed : Prop :=
  ∀ (i : Instr) (s t : State), exec i s = .next t → t.session.cycle ≠ s.session.cycle →
    ((∃ code, i = .reset code) ∧ t.session.cycle = .searching) ∨
    (i = .push ∧
      ((s.session.cycle = .searching ∧ t.session.cycle = .detecting ∧ CheckpointNext s) ∨
       (s.session.cycle = .detecting ∧ CheckpointNext s ∧ (t.session.cycle = .locked ∨ t.session.cycle = .confirmed)) ∨
       (s.session.cycle = .locked ∧ t.session.cycle = .confirmed ∧ BoundaryNext s) ∨
       (s.session.cycle ≠ .searching ∧ (s.session.cycle = .detecting → CheckpointNext s) ∧
         t.session.cycle = .searching ∧ BoundaryNext s ∧ t.lastReset = ⟨true, .collapse, 0#8⟩)))

/-- R24, R138: once locked, no command changes the length but by the soft reset that clears it. -/
def Obligations.LengthIsFrozenOnceLocked : Prop :=
  ∀ (i : Instr) (s t : State), s.session.Settled → exec i s = .next t →
    t.session.len = s.session.len ∨ t.session = Session.initial

/-- R190, R197: no access clears a sticky error bit; only hardware reset does. -/
def Obligations.StickyBitsOnlyClearAtHardwareReset : Prop :=
  ∀ s t : State, step s = .next t → (∀ rest, s.pending ≠ .hardwareReset :: rest) →
    (s.errIll = true → t.errIll = true) ∧ (s.errOvf = true → t.errOvf = true) ∧ (s.errBus = true → t.errBus = true)

/-- R35, R173: the phase has no decode effect. Two states that differ only in phases go to states that differ only in
phases, whatever the command. -/
def Obligations.PhaseHasNoDecodeEffect : Prop :=
  ∀ (i : Instr) (s₁ s₂ t₁ t₂ : State), forgetPhase s₁ = forgetPhase s₂ →
    exec i s₁ = .next t₁ → exec i s₂ = .next t₂ → forgetPhase t₁ = forgetPhase t₂

/-- R44, R6: no step changes the instance's parameters. -/
def Obligations.ParametersAreFixed : Prop :=
  ∀ s t : State, step s = .next t → t.inst = s.inst

/-- R40, R24, R26, R31, R34, R118: every step keeps the invariants. -/
def Obligations.EveryStepKeepsTheInvariant : Prop :=
  ∀ s t : State, s.Inv → step s = .next t → t.Inv

/-- R141, R149, R217: every step keeps the counts and the latencies: active positions have two repeats, a length needs 60
pushes and a lock 90. -/
def Obligations.EveryStepKeepsCountsAndLatency : Prop :=
  ∀ s t : State, s.Inv → CountsAtLeastTwo s.session → LatencyInv s.session → step s = .next t →
    CountsAtLeastTwo t.session ∧ LatencyInv t.session

/-- R29, R31, R32, R34, R36, R37, R90, R113: every step keeps every stored confidence, mean and score at most 1.0, and
every normalised score within ±1.0. -/
def Obligations.EveryStepKeepsConfidencesBounded : Prop :=
  ∀ s t : State, s.ConfBounded → step s = .next t → t.ConfBounded

/-- The reset state of every instance meets every invariant above, `State.reset` among them. -/
def Obligations.ResetMeetsTheInvariants : Prop :=
  ∀ inst : Instance,
    (State.resetOf inst).Inv ∧ CountsAtLeastTwo (State.resetOf inst).session ∧
      LatencyInv (State.resetOf inst).session ∧ (State.resetOf inst).ConfBounded
end

