-- ==== Sys2Proof/Laws/Ops.lean ====
section
/-! SUPPORT. Lemmas about the shared operations of Ops.lean and about the detector's integer helpers. -/

namespace Sys2Proof.Machine

/-! ### `isqrt` -/

theorem isqrtFuel_spec (fuel n : Nat) (h : n < 4 ^ fuel) :
    isqrtFuel fuel n * isqrtFuel fuel n ≤ n ∧ n < (isqrtFuel fuel n + 1) * (isqrtFuel fuel n + 1) := by
  induction fuel generalizing n with
  | zero =>
    have : n = 0 := by simpa using h
    simp [isqrtFuel, this]
  | succ fuel ih =>
    obtain ⟨lo, hi⟩ := ih (n / 4) (by rw [Nat.div_lt_iff_lt_mul (by omega)]; rw [pow_succ] at h; exact h)
    simp only [isqrtFuel]
    generalize isqrtFuel fuel (n / 4) = r at lo hi
    have h4 : 4 * (n / 4) ≤ n := by omega
    have h4' : n < 4 * (n / 4) + 4 := by omega
    split
    · constructor
      · assumption
      · nlinarith
    · constructor
      · nlinarith
      · omega

/-- `isqrt n` is the largest `r` with `r·r ≤ n` (R9). -/
theorem isqrt_spec (n : Nat) : isqrt n * isqrt n ≤ n ∧ n < (isqrt n + 1) * (isqrt n + 1) := by
  refine isqrtFuel_spec _ _ ?_
  have h : n < 2 ^ (n.log2 + 1) := Nat.lt_log2_self
  calc n < 2 ^ (n.log2 + 1) := h
    _ ≤ 2 ^ (2 * (n.log2 / 2 + 1)) := Nat.pow_le_pow_right (by omega) (by omega)
    _ = 4 ^ (n.log2 / 2 + 1) := by rw [pow_mul]; norm_num

/-- A bound whose square is at most `n` is at most `isqrt n`. -/
theorem le_isqrt {r n : Nat} (h : r * r ≤ n) : r ≤ isqrt n := by
  have := (isqrt_spec n).2
  by_contra hlt
  have : isqrt n + 1 ≤ r := by omega
  nlinarith

@[simp] theorem isqrt_mul_self (n : Nat) : isqrt (n * n) = n := by
  have h1 := le_isqrt (le_refl (n * n))
  have h2 := (isqrt_spec (n * n)).1
  nlinarith

/-! ### `maxNat`, `maxInt` -/

theorem le_foldl_max {α : Type} [LinearOrder α] (l : List α) (a : α) :
    a ≤ l.foldl max a ∧ ∀ x ∈ l, x ≤ l.foldl max a := by
  induction l generalizing a with
  | nil => simp
  | cons y l ih =>
    obtain ⟨h1, h2⟩ := ih (max a y)
    refine ⟨le_trans (le_max_left _ _) h1, ?_⟩
    intro x hx
    rcases List.mem_cons.mp hx with rfl | hx
    · exact le_trans (le_max_right _ _) h1
    · exact h2 x hx

theorem foldl_max_mem {α : Type} [LinearOrder α] (l : List α) (a : α) : l.foldl max a = a ∨ l.foldl max a ∈ l := by
  induction l generalizing a with
  | nil => simp
  | cons y l ih =>
    rcases ih (max a y) with h | h
    · rcases max_choice a y with h' | h'
      · rw [h'] at h; simp [h', h]
      · rw [h'] at h; simp [h', h]
    · simp [h]

theorem le_maxNat {l : List Nat} {x : Nat} (h : x ∈ l) : x ≤ maxNat l := (le_foldl_max l 0).2 x h

/-- The maximum of a non-empty list is one of its elements. -/
theorem maxNat_mem {l : List Nat} (h : l ≠ []) : maxNat l ∈ l := by
  rcases foldl_max_mem l 0 with h0 | hm
  · obtain ⟨x, hx⟩ := List.exists_mem_of_ne_nil l h
    have hle : x ≤ l.foldl max 0 := (le_foldl_max l 0).2 x hx
    have : x = maxNat l := by rw [maxNat, h0] at *; omega
    exact this ▸ hx
  · exact hm

theorem le_maxInt {l : List Int} {x : Int} (h : x ∈ l) : x ≤ maxInt l := by
  cases l with
  | nil => simp at h
  | cons a l =>
    rcases List.mem_cons.mp h with rfl | h
    · exact (le_foldl_max l x).1
    · exact (le_foldl_max l a).2 x h

theorem maxInt_mem {l : List Int} (h : l ≠ []) : maxInt l ∈ l := by
  cases l with
  | nil => exact absurd rfl h
  | cons a l =>
    rcases foldl_max_mem l a with h' | h'
    · simp [maxInt, h']
    · simp [maxInt, h']

/-! ### `appendBounded` -/

section Buffers

variable {α : Type}

theorem appendBounded_full (c : Nat) (l : List α) (x : α) (h : l.length = c) :
    appendBounded (some c) l x = l.tail ++ [x] := by simp [appendBounded, h]

theorem appendBounded_room (cap : Option Nat) (l : List α) (x : α) (h : cap ≠ some l.length) :
    appendBounded cap l x = l ++ [x] := by simp [appendBounded, h]

/-- The newest entry is the one appended. -/
@[simp] theorem appendBounded_getLast? (cap : Option Nat) (l : List α) (x : α) :
    (appendBounded cap l x).getLast? = some x := by simp [appendBounded]

@[simp] theorem appendBounded_ne_nil (cap : Option Nat) (l : List α) (x : α) : appendBounded cap l x ≠ [] := by
  simp [appendBounded]

theorem mem_appendBounded {cap : Option Nat} {l : List α} {x y : α} (h : y ∈ appendBounded cap l x) :
    y ∈ l ∨ y = x := by
  unfold appendBounded at h
  rcases List.mem_append.mp h with h | h
  · left
    split at h
    · exact List.mem_of_mem_tail h
    · exact h
  · right; simpa using h

/-- A buffer of positive capacity that is within it stays within it, and holds one more entry while there is room. -/
theorem appendBounded_length (c : Nat) (l : List α) (x : α) (hc : 1 ≤ c) (hl : l.length ≤ c) :
    (appendBounded (some c) l x).length = min (l.length + 1) c := by
  by_cases h : l.length = c
  · rw [appendBounded_full c l x h]; simp; omega
  · rw [appendBounded_room _ l x (by simpa [eq_comm] using h)]; simp; omega

theorem appendBounded_length_le (c : Nat) (l : List α) (x : α) (hc : 1 ≤ c) (hl : l.length ≤ c) :
    (appendBounded (some c) l x).length ≤ c := by
  rw [appendBounded_length c l x hc hl]; omega

theorem appendBounded_length_none (l : List α) (x : α) : (appendBounded none l x).length = l.length + 1 := by
  simp [appendBounded]

end Buffers

end Sys2Proof.Machine
end

