-- ==== Sys2Proof/Laws/State.lean ====
section
/-! SUPPORT. For each named update of the state, what every field is after it: one lemma per field, true by
unfolding, so that no proof unfolds a record update. -/

namespace Sys2Proof.Machine

variable (s : State)

/-! ### `respond` -/

@[simp] theorem respond_inst (r : CommandResult) (ev : Option ResetEvent) (c : Bool) : (respond r ev c s).inst =
    s.inst := rfl
@[simp] theorem respond_mag (r : CommandResult) (ev : Option ResetEvent) (c : Bool) : (respond r ev c s).mag =
    s.mag := rfl
@[simp] theorem respond_session (r : CommandResult) (ev : Option ResetEvent) (c : Bool) : (respond r ev c s).session =
    s.session := rfl
@[simp] theorem respond_total (r : CommandResult) (ev : Option ResetEvent) (c : Bool) : (respond r ev c s).total =
    s.total := rfl
@[simp] theorem respond_copies (r : CommandResult) (ev : Option ResetEvent) (c : Bool) : (respond r ev c s).copies =
    s.copies := rfl
@[simp] theorem respond_phase (r : CommandResult) (ev : Option ResetEvent) (c : Bool) : (respond r ev c s).phase =
    s.phase := rfl
@[simp] theorem respond_dec (r : CommandResult) (ev : Option ResetEvent) (c : Bool) : (respond r ev c s).dec =
    s.dec := rfl
@[simp] theorem respond_det (r : CommandResult) (ev : Option ResetEvent) (c : Bool) : (respond r ev c s).det =
    s.det := rfl
@[simp] theorem respond_resetEvents (r : CommandResult) (ev : Option ResetEvent) (c : Bool) : (respond r ev c s).resetEvents =
    s.resetEvents := rfl
@[simp] theorem respond_lastReset (r : CommandResult) (ev : Option ResetEvent) (c : Bool) : (respond r ev c s).lastReset =
    s.lastReset := rfl
@[simp] theorem respond_errIll (r : CommandResult) (ev : Option ResetEvent) (c : Bool) : (respond r ev c s).errIll =
    s.errIll := rfl
@[simp] theorem respond_errOvf (r : CommandResult) (ev : Option ResetEvent) (c : Bool) : (respond r ev c s).errOvf =
    s.errOvf := rfl
@[simp] theorem respond_errBus (r : CommandResult) (ev : Option ResetEvent) (c : Bool) : (respond r ev c s).errBus =
    s.errBus := rfl
@[simp] theorem respond_lastResult (r : CommandResult) (ev : Option ResetEvent) (c : Bool) : (respond r ev c s).lastResult =
    r := rfl
@[simp] theorem respond_pending (r : CommandResult) (ev : Option ResetEvent) (c : Bool) : (respond r ev c s).pending =
    s.pending := rfl
@[simp] theorem respond_out (r : CommandResult) (ev : Option ResetEvent) (c : Bool) : (respond r ev c s).out =
    .response ⟨r, ev, c⟩ := rfl

/-! ### `softReset` -/

@[simp] theorem softReset_inst (k : ResetKind) (c : Byte) : (softReset k c s).inst = s.inst := rfl
@[simp] theorem softReset_mag (k : ResetKind) (c : Byte) : (softReset k c s).mag = s.mag := rfl
@[simp] theorem softReset_session (k : ResetKind) (c : Byte) : (softReset k c s).session =
    Session.initial := rfl
@[simp] theorem softReset_total (k : ResetKind) (c : Byte) : (softReset k c s).total = s.total := rfl
@[simp] theorem softReset_copies (k : ResetKind) (c : Byte) : (softReset k c s).copies = s.copies := rfl
@[simp] theorem softReset_phase (k : ResetKind) (c : Byte) : (softReset k c s).phase = s.phase := rfl
@[simp] theorem softReset_dec (k : ResetKind) (c : Byte) : (softReset k c s).dec = s.dec := rfl
@[simp] theorem softReset_det (k : ResetKind) (c : Byte) : (softReset k c s).det = s.det := rfl
@[simp] theorem softReset_resetEvents (k : ResetKind) (c : Byte) : (softReset k c s).resetEvents =
    s.resetEvents + 1 := rfl
@[simp] theorem softReset_lastReset (k : ResetKind) (c : Byte) : (softReset k c s).lastReset =
    ⟨true, k, c⟩ := rfl
@[simp] theorem softReset_errIll (k : ResetKind) (c : Byte) : (softReset k c s).errIll = s.errIll := rfl
@[simp] theorem softReset_errOvf (k : ResetKind) (c : Byte) : (softReset k c s).errOvf = s.errOvf := rfl
@[simp] theorem softReset_errBus (k : ResetKind) (c : Byte) : (softReset k c s).errBus = s.errBus := rfl
@[simp] theorem softReset_lastResult (k : ResetKind) (c : Byte) : (softReset k c s).lastResult =
    s.lastResult := rfl
@[simp] theorem softReset_pending (k : ResetKind) (c : Byte) : (softReset k c s).pending = s.pending := rfl
@[simp] theorem softReset_out (k : ResetKind) (c : Byte) : (softReset k c s).out = s.out := rfl

/-! ### `writeDetect` -/

@[simp] theorem writeDetect_inst (r : DetectResult) : (writeDetect r s).inst = s.inst := rfl
@[simp] theorem writeDetect_mag (r : DetectResult) : (writeDetect r s).mag = s.mag := rfl
@[simp] theorem writeDetect_session (r : DetectResult) : (writeDetect r s).session = s.session := rfl
@[simp] theorem writeDetect_total (r : DetectResult) : (writeDetect r s).total = s.total := rfl
@[simp] theorem writeDetect_copies (r : DetectResult) : (writeDetect r s).copies = s.copies := rfl
@[simp] theorem writeDetect_phase (r : DetectResult) : (writeDetect r s).phase = s.phase := rfl
@[simp] theorem writeDetect_dec (r : DetectResult) : (writeDetect r s).dec = s.dec := rfl
@[simp] theorem writeDetect_det (r : DetectResult) : (writeDetect r s).det = DetectRegs.ofResult r := rfl
@[simp] theorem writeDetect_resetEvents (r : DetectResult) : (writeDetect r s).resetEvents =
    s.resetEvents := rfl
@[simp] theorem writeDetect_lastReset (r : DetectResult) : (writeDetect r s).lastReset = s.lastReset := rfl
@[simp] theorem writeDetect_errIll (r : DetectResult) : (writeDetect r s).errIll = s.errIll := rfl
@[simp] theorem writeDetect_errOvf (r : DetectResult) : (writeDetect r s).errOvf = s.errOvf := rfl
@[simp] theorem writeDetect_errBus (r : DetectResult) : (writeDetect r s).errBus = s.errBus := rfl
@[simp] theorem writeDetect_lastResult (r : DetectResult) : (writeDetect r s).lastResult = s.lastResult := rfl
@[simp] theorem writeDetect_pending (r : DetectResult) : (writeDetect r s).pending = s.pending := rfl
@[simp] theorem writeDetect_out (r : DetectResult) : (writeDetect r s).out = s.out := rfl

/-! ### `countPush` -/

@[simp] theorem countPush_inst : (countPush s).inst = s.inst := rfl
@[simp] theorem countPush_mag : (countPush s).mag = s.mag := rfl
@[simp] theorem countPush_session : (countPush s).session =
    { histAppend s.params s.mag s.session with seq := s.session.seq + 1 } := rfl
@[simp] theorem countPush_total : (countPush s).total = s.total + 1 := rfl
@[simp] theorem countPush_copies : (countPush s).copies = s.copies := rfl
@[simp] theorem countPush_phase : (countPush s).phase = s.phase := rfl
@[simp] theorem countPush_dec : (countPush s).dec = s.dec := rfl
@[simp] theorem countPush_det : (countPush s).det = s.det := rfl
@[simp] theorem countPush_resetEvents : (countPush s).resetEvents = s.resetEvents := rfl
@[simp] theorem countPush_lastReset : (countPush s).lastReset = s.lastReset := rfl
@[simp] theorem countPush_errIll : (countPush s).errIll = s.errIll := rfl
@[simp] theorem countPush_errOvf : (countPush s).errOvf = s.errOvf := rfl
@[simp] theorem countPush_errBus : (countPush s).errBus = s.errBus := rfl
@[simp] theorem countPush_lastResult : (countPush s).lastResult = s.lastResult := rfl
@[simp] theorem countPush_pending : (countPush s).pending = s.pending := rfl
@[simp] theorem countPush_out : (countPush s).out = s.out := rfl

/-! ### `appendCopy` -/

@[simp] theorem appendCopy_inst : (appendCopy s).inst = s.inst := rfl
@[simp] theorem appendCopy_mag : (appendCopy s).mag = s.mag := rfl
@[simp] theorem appendCopy_session : (appendCopy s).session = { s.session with cycle := .confirmed } := rfl
@[simp] theorem appendCopy_total : (appendCopy s).total = s.total := rfl
@[simp] theorem appendCopy_copies : (appendCopy s).copies =
    ⟨appendBounded (some s.params.copyLogCap) s.copies.log (newRecord s), s.copies.appended + 1⟩ := rfl
@[simp] theorem appendCopy_phase : (appendCopy s).phase = s.phase := rfl
@[simp] theorem appendCopy_dec : (appendCopy s).dec = s.dec := rfl
@[simp] theorem appendCopy_det : (appendCopy s).det = s.det := rfl
@[simp] theorem appendCopy_resetEvents : (appendCopy s).resetEvents = s.resetEvents := rfl
@[simp] theorem appendCopy_lastReset : (appendCopy s).lastReset = s.lastReset := rfl
@[simp] theorem appendCopy_errIll : (appendCopy s).errIll = s.errIll := rfl
@[simp] theorem appendCopy_errOvf : (appendCopy s).errOvf = s.errOvf := rfl
@[simp] theorem appendCopy_errBus : (appendCopy s).errBus = s.errBus := rfl
@[simp] theorem appendCopy_lastResult : (appendCopy s).lastResult = s.lastResult := rfl
@[simp] theorem appendCopy_pending : (appendCopy s).pending = s.pending := rfl
@[simp] theorem appendCopy_out : (appendCopy s).out = s.out := rfl

/-! ### `ringStep` -/

@[simp] theorem ringStep_inst : (ringStep s).inst = s.inst := rfl
@[simp] theorem ringStep_mag : (ringStep s).mag = s.mag := rfl
@[simp] theorem ringStep_session : (ringStep s).session =
    { s.session with
      ring := appendBounded (some s.params.ringCap) s.session.ring
        (BitVec.ofNat 17 (cycleMean s.session.pos s.session.len.toNat)) } := rfl
@[simp] theorem ringStep_total : (ringStep s).total = s.total := rfl
@[simp] theorem ringStep_copies : (ringStep s).copies = s.copies := rfl
@[simp] theorem ringStep_phase : (ringStep s).phase = s.phase := rfl
@[simp] theorem ringStep_dec : (ringStep s).dec = s.dec := rfl
@[simp] theorem ringStep_det : (ringStep s).det = s.det := rfl
@[simp] theorem ringStep_resetEvents : (ringStep s).resetEvents = s.resetEvents := rfl
@[simp] theorem ringStep_lastReset : (ringStep s).lastReset = s.lastReset := rfl
@[simp] theorem ringStep_errIll : (ringStep s).errIll = s.errIll := rfl
@[simp] theorem ringStep_errOvf : (ringStep s).errOvf = s.errOvf := rfl
@[simp] theorem ringStep_errBus : (ringStep s).errBus = s.errBus := rfl
@[simp] theorem ringStep_lastResult : (ringStep s).lastResult = s.lastResult := rfl
@[simp] theorem ringStep_pending : (ringStep s).pending = s.pending := rfl
@[simp] theorem ringStep_out : (ringStep s).out = s.out := rfl

/-! ### `withRouted` -/

@[simp] theorem withRouted_inst (f : PosFile) : (withRouted f s).inst = s.inst := rfl
@[simp] theorem withRouted_mag (f : PosFile) : (withRouted f s).mag = s.mag := rfl
@[simp] theorem withRouted_session (f : PosFile) : (withRouted f s).session =
    { s.session with
      pos := f, meanConf := BitVec.ofNat 17 (cycleMean f s.session.len.toNat) } := rfl
@[simp] theorem withRouted_total (f : PosFile) : (withRouted f s).total = s.total := rfl
@[simp] theorem withRouted_copies (f : PosFile) : (withRouted f s).copies = s.copies := rfl
@[simp] theorem withRouted_phase (f : PosFile) : (withRouted f s).phase = s.phase := rfl
@[simp] theorem withRouted_dec (f : PosFile) : (withRouted f s).dec = s.dec := rfl
@[simp] theorem withRouted_det (f : PosFile) : (withRouted f s).det = s.det := rfl
@[simp] theorem withRouted_resetEvents (f : PosFile) : (withRouted f s).resetEvents = s.resetEvents := rfl
@[simp] theorem withRouted_lastReset (f : PosFile) : (withRouted f s).lastReset = s.lastReset := rfl
@[simp] theorem withRouted_errIll (f : PosFile) : (withRouted f s).errIll = s.errIll := rfl
@[simp] theorem withRouted_errOvf (f : PosFile) : (withRouted f s).errOvf = s.errOvf := rfl
@[simp] theorem withRouted_errBus (f : PosFile) : (withRouted f s).errBus = s.errBus := rfl
@[simp] theorem withRouted_lastResult (f : PosFile) : (withRouted f s).lastResult = s.lastResult := rfl
@[simp] theorem withRouted_pending (f : PosFile) : (withRouted f s).pending = s.pending := rfl
@[simp] theorem withRouted_out (f : PosFile) : (withRouted f s).out = s.out := rfl

/-! ### `raiseError` -/

@[simp] theorem raiseError_inst (e : BlockError) : (raiseError e s).inst = s.inst := by cases e <;> rfl
@[simp] theorem raiseError_mag (e : BlockError) : (raiseError e s).mag = s.mag := by cases e <;> rfl
@[simp] theorem raiseError_session (e : BlockError) : (raiseError e s).session = s.session := by cases e <;> rfl
@[simp] theorem raiseError_total (e : BlockError) : (raiseError e s).total = s.total := by cases e <;> rfl
@[simp] theorem raiseError_copies (e : BlockError) : (raiseError e s).copies = s.copies := by cases e <;> rfl
@[simp] theorem raiseError_phase (e : BlockError) : (raiseError e s).phase = s.phase := by cases e <;> rfl
@[simp] theorem raiseError_dec (e : BlockError) : (raiseError e s).dec = s.dec := by cases e <;> rfl
@[simp] theorem raiseError_det (e : BlockError) : (raiseError e s).det = s.det := by cases e <;> rfl
@[simp] theorem raiseError_resetEvents (e : BlockError) : (raiseError e s).resetEvents = s.resetEvents := by cases e <;> rfl
@[simp] theorem raiseError_lastReset (e : BlockError) : (raiseError e s).lastReset = s.lastReset := by cases e <;> rfl
@[simp] theorem raiseError_illegalCommand_errIll : (raiseError .illegalCommand s).errIll = true := rfl
@[simp] theorem raiseError_pushOverflow_errIll : (raiseError .pushOverflow s).errIll = s.errIll := rfl
@[simp] theorem raiseError_busError_errIll : (raiseError .busError s).errIll = s.errIll := rfl
@[simp] theorem raiseError_illegalCommand_errOvf : (raiseError .illegalCommand s).errOvf = s.errOvf := rfl
@[simp] theorem raiseError_pushOverflow_errOvf : (raiseError .pushOverflow s).errOvf = true := rfl
@[simp] theorem raiseError_busError_errOvf : (raiseError .busError s).errOvf = s.errOvf := rfl
@[simp] theorem raiseError_illegalCommand_errBus : (raiseError .illegalCommand s).errBus = s.errBus := rfl
@[simp] theorem raiseError_pushOverflow_errBus : (raiseError .pushOverflow s).errBus = s.errBus := rfl
@[simp] theorem raiseError_busError_errBus : (raiseError .busError s).errBus = true := rfl
@[simp] theorem raiseError_lastResult (e : BlockError) : (raiseError e s).lastResult = s.lastResult := by cases e <;> rfl
@[simp] theorem raiseError_pending (e : BlockError) : (raiseError e s).pending = s.pending := by cases e <;> rfl
@[simp] theorem raiseError_out (e : BlockError) : (raiseError e s).out = s.out := by cases e <;> rfl

/-- Raising an error sets bits and clears none (R190, R197). -/
theorem raiseError_sticky (e : BlockError) :
    (s.errIll = true → (raiseError e s).errIll = true) ∧ (s.errOvf = true → (raiseError e s).errOvf = true) ∧
      (s.errBus = true → (raiseError e s).errBus = true) := by
  cases e <;> simp +contextual

/-! ### `busError` and `hardwareReset` -/

@[simp] theorem busError_inst (a : HostOutput) : (busError a s).inst = s.inst := rfl
@[simp] theorem busError_mag (a : HostOutput) : (busError a s).mag = s.mag := rfl
@[simp] theorem busError_session (a : HostOutput) : (busError a s).session = s.session := rfl
@[simp] theorem busError_total (a : HostOutput) : (busError a s).total = s.total := rfl
@[simp] theorem busError_copies (a : HostOutput) : (busError a s).copies = s.copies := rfl
@[simp] theorem busError_phase (a : HostOutput) : (busError a s).phase = s.phase := rfl
@[simp] theorem busError_dec (a : HostOutput) : (busError a s).dec = s.dec := rfl
@[simp] theorem busError_det (a : HostOutput) : (busError a s).det = s.det := rfl
@[simp] theorem busError_resetEvents (a : HostOutput) : (busError a s).resetEvents = s.resetEvents := rfl
@[simp] theorem busError_lastReset (a : HostOutput) : (busError a s).lastReset = s.lastReset := rfl
@[simp] theorem busError_errIll (a : HostOutput) : (busError a s).errIll = s.errIll := rfl
@[simp] theorem busError_errOvf (a : HostOutput) : (busError a s).errOvf = s.errOvf := rfl
@[simp] theorem busError_errBus (a : HostOutput) : (busError a s).errBus = true := rfl
@[simp] theorem busError_lastResult (a : HostOutput) : (busError a s).lastResult = s.lastResult := rfl
@[simp] theorem busError_pending (a : HostOutput) : (busError a s).pending = s.pending := rfl
@[simp] theorem busError_out (a : HostOutput) : (busError a s).out = a := rfl

@[simp] theorem hardwareReset_inst : (hardwareReset s).inst = s.inst := rfl
@[simp] theorem hardwareReset_pending : (hardwareReset s).pending = s.pending := rfl

/-- But for the events still pending, hardware reset is the reset state of the instance (R210). -/
theorem hardwareReset_eq : hardwareReset s = { State.resetOf s.inst with pending := s.pending } := rfl

/-! ### `Position.initial`, `PosFile.initial` -/

@[simp] theorem PosFile.initial_get (i : Nat) (h : i < 30) : PosFile.initial[i] = Position.initial := by
  simp [PosFile.initial]

@[simp] theorem Position.initial_sum_get (i : Nat) (h : i < 8) : Position.initial.sum[i] = 0#64 := by
  simp [Position.initial]

@[simp] theorem Position.initial_count : Position.initial.count = 0#32 := rfl
@[simp] theorem Position.initial_char : Position.initial.char = questionMark := rfl
@[simp] theorem Position.initial_conf : Position.initial.conf = 0#17 := rfl
@[simp] theorem Position.initial_flip : Position.initial.flip = false := rfl

end Sys2Proof.Machine
end

