-- ==== Sys2Proof/Laws/Accumulator.lean ====
section
/-! SUPPORT. What an update of a position, of the position file and a replay can do (R130, R134, R137). -/

namespace Sys2Proof.Machine

/-- An update answers a position exactly when every store fits, and then it is the one of R130. -/
theorem updatePosition_eq_some {p : Params} {q q' : Position} {m : Mags} :
    updatePosition p q m = some q' ↔ UpdateFits q m ∧ q' = updatedPosition p q m := by
  by_cases h : UpdateFits q m
  · rw [updatePosition, if_pos h, Option.some.injEq]
    exact ⟨fun e => ⟨h, e.symm⟩, fun e => e.2.symm⟩
  · rw [updatePosition, if_neg h]
    exact ⟨fun e => (nomatch e), fun e => absurd e.1 h⟩

theorem updatePosition_eq_none {p : Params} {q : Position} {m : Mags} :
    updatePosition p q m = none ↔ ¬ UpdateFits q m := by
  by_cases h : UpdateFits q m
  · rw [updatePosition, if_pos h]
    exact ⟨fun e => (nomatch e), fun e => absurd h e⟩
  · rw [updatePosition, if_neg h]
    exact ⟨fun _ => h, fun _ => rfl⟩

/-- An update inside the file is an update of that entry and of no other. -/
theorem updateAt_eq_some {p : Params} {f f' : PosFile} {i : Nat} {m : Mags} (h : i < 30) :
    updateAt p f i m = some f' ↔ ∃ q, updatePosition p f[i] m = some q ∧ f' = f.set i q := by
  simp [updateAt, h, eq_comm]

theorem updateAt_eq_none {p : Params} {f : PosFile} {i : Nat} {m : Mags} (h : i < 30) :
    updateAt p f i m = none ↔ ¬ UpdateFits f[i] m := by
  rw [updateAt, dif_pos h, Option.map_eq_none_iff]
  exact updatePosition_eq_none

/-- Every entry but the updated one is unchanged. -/
theorem updateAt_get_ne {p : Params} {f f' : PosFile} {i : Nat} {m : Mags} (hu : updateAt p f i m = some f')
    (k : Nat) (hk : k < 30) (hne : k ≠ i) : f'[k] = f[k] := by
  by_cases h : i < 30
  · obtain ⟨q, _, rfl⟩ := (updateAt_eq_some h).mp hu
    exact Vector.getElem_set_ne h hk (fun e => hne e.symm)
  · simp only [updateAt, h, dif_neg, not_false_eq_true, Option.some.injEq] at hu
    rw [hu]

/-- The updated entry. -/
theorem updateAt_get_self {p : Params} {f f' : PosFile} {i : Nat} {m : Mags} (hu : updateAt p f i m = some f')
    (h : i < 30) : updatePosition p f[i] m = some f'[i] := by
  obtain ⟨q, hq, rfl⟩ := (updateAt_eq_some h).mp hu
  simpa using hq

/-- An update keeps what holds of every entry, if it keeps it of the updated one. -/
theorem updateAt_forall {P : Position → Prop} {p : Params} {f f' : PosFile} {i : Nat} {m : Mags}
    (hu : updateAt p f i m = some f') (hf : ∀ k, (h : k < 30) → P f[k])
    (hstep : ∀ q q', P q → updatePosition p q m = some q' → P q') : ∀ k, (h : k < 30) → P f'[k] := by
  intro k hk
  by_cases hki : k = i
  · subst hki
    exact hstep _ _ (hf k hk) (updateAt_get_self hu hk)
  · rw [updateAt_get_ne hu k hk hki]
    exact hf k hk

@[simp] theorem replay_nil (p : Params) (L j : Nat) (f : PosFile) : replay p L j [] f = some f := rfl

theorem replay_cons_eq_some {p : Params} {L j : Nat} {m : Mags} {ms : List Mags} {f f' : PosFile} :
    replay p L j (m :: ms) f = some f' ↔
      ∃ g, updateAt p f (j % L) m = some g ∧ replay p L (j + 1) ms g = some f' := by
  simp [replay, Option.bind_eq_some_iff]

/-- A replay modulo `L` leaves the inactive entries alone. -/
theorem replay_get_inactive {p : Params} {L j : Nat} {ms : List Mags} {f f' : PosFile} (hL : 0 < L)
    (h : replay p L j ms f = some f') (k : Nat) (hk : k < 30) (hkL : L ≤ k) : f'[k] = f[k] := by
  induction ms generalizing j f with
  | nil => simp only [replay_nil, Option.some.injEq] at h; rw [h]
  | cons m ms ih =>
    obtain ⟨g, hg, hr⟩ := replay_cons_eq_some.mp h
    rw [ih hr]
    have := Nat.mod_lt j hL
    exact updateAt_get_ne hg k hk (by omega)

/-- A replay keeps what every update keeps. -/
theorem replay_forall {P : Position → Prop} {p : Params} {L j : Nat} {ms : List Mags} {f f' : PosFile}
    (h : replay p L j ms f = some f') (hf : ∀ k, (hk : k < 30) → P f[k])
    (hstep : ∀ q q' m, P q → updatePosition p q m = some q' → P q') : ∀ k, (hk : k < 30) → P f'[k] := by
  induction ms generalizing j f with
  | nil => simp only [replay_nil, Option.some.injEq] at h; exact h ▸ hf
  | cons m ms ih =>
    obtain ⟨g, hg, hr⟩ := replay_cons_eq_some.mp h
    exact ih hr (updateAt_forall hg hf fun q q' => hstep q q' m)

/-- All repeats held by a position file. -/
def totalCount (f : PosFile) : Nat := ∑ i : Fin 30, f[i].count.toNat

/-- An update inside the file adds one repeat (R130). -/
theorem updateAt_totalCount {p : Params} {f f' : PosFile} {i : Nat} {m : Mags} (hi : i < 30)
    (h : updateAt p f i m = some f') : totalCount f' = totalCount f + 1 := by
  have hself := (updatePosition_eq_some.mp (updateAt_get_self h hi))
  have hcount : f'[i].count.toNat = f[i].count.toNat + 1 := by
    rw [hself.2]
    have := hself.1.2
    simp only [updatedPosition]
    bv_omega
  have hrest : ∑ k ∈ Finset.univ.erase (⟨i, hi⟩ : Fin 30), f'[k].count.toNat =
      ∑ k ∈ Finset.univ.erase (⟨i, hi⟩ : Fin 30), f[k].count.toNat := by
    refine Finset.sum_congr rfl fun k hk => ?_
    have hne : k.val ≠ i := fun e => (Finset.mem_erase.mp hk).1 (Fin.ext e)
    have := updateAt_get_ne h k.val k.isLt hne
    exact congrArg (fun q : Position => q.count.toNat) this
  unfold totalCount
  rw [← Finset.add_sum_erase _ _ (Finset.mem_univ (⟨i, hi⟩ : Fin 30)), hrest,
    ← Finset.add_sum_erase _ (fun k : Fin 30 => f[k].count.toNat) (Finset.mem_univ (⟨i, hi⟩ : Fin 30))]
  simp only [Fin.getElem_fin]
  omega

/-- A replay counts every vector once (R137). -/
theorem replay_totalCount {p : Params} {L j : Nat} {ms : List Mags} {f f' : PosFile} (hL : 1 ≤ L) (hL' : L ≤ 30)
    (h : replay p L j ms f = some f') : totalCount f' = totalCount f + ms.length := by
  induction ms generalizing j f with
  | nil => simp only [replay_nil, Option.some.injEq] at h; simp [h]
  | cons m ms ih =>
    obtain ⟨g, hg, hr⟩ := replay_cons_eq_some.mp h
    have hlt := Nat.mod_lt j hL
    rw [ih hr, updateAt_totalCount (by omega) hg, List.length_cons]
    omega

/-- A replay of `30 · 2^32` vectors overflows a count (R134). -/
theorem replay_eq_none_of_length {p : Params} {L j : Nat} {ms : List Mags} {f : PosFile} (hL : 1 ≤ L) (hL' : L ≤ 30)
    (h : 30 * 2 ^ 32 ≤ ms.length) : replay p L j ms f = none := by
  cases hr : replay p L j ms f with
  | none => rfl
  | some f' =>
    have htotal := replay_totalCount hL hL' hr
    have hbound : totalCount f' ≤ 30 * (2 ^ 32 - 1) := by
      have : totalCount f' ≤ ∑ _i : Fin 30, (2 ^ 32 - 1) :=
        Finset.sum_le_sum fun i _ => by have := f'[i].count.isLt; omega
      simpa using this
    omega

/-! ### The text of a cycle -/

/-- The texts of two cycles are equal when the lengths are and the characters at every position (R143). -/
theorem cycleText_eq_take_iff {f : PosFile} {L n : Nat} {v : Vector Byte 30} (hL : L ≤ 30) (hn : n ≤ 30) :
    cycleText f L = v.toList.take n ↔ n = L ∧ ∀ k : Fin 30, k.val < L → v[k] = f[k].char := by
  have hlen : (cycleText f L).length = L := by simp [cycleText, activePositions, hL]
  have hlen' : (v.toList.take n).length = n := by simp [hn]
  constructor
  · intro h
    have hnL : n = L := by rw [← hlen', ← h, hlen]
    refine ⟨hnL, fun k hk => ?_⟩
    have hget := congrArg (fun l => l[k.val]?) h
    simpa [cycleText, activePositions, hnL, hk] using hget.symm
  · rintro ⟨rfl, h⟩
    refine List.ext_getElem (by rw [hlen, hlen']) fun k hk hk' => ?_
    rw [hlen] at hk
    have := h ⟨k, by omega⟩ hk
    simpa [cycleText, activePositions] using this.symm

end Sys2Proof.Machine
end

