-- ==== Sys2Proof/Laws/Bus.lean ====
section
/-! SUPPORT. What a host event and a step can do (R174, R175, R54, R203). -/

namespace Sys2Proof.Machine

theorem busRead_unsupported {off size : Nat} (s : State) (h : size ≠ 4 ∨ off % 4 ≠ 0) :
    busRead off size s = busError (.readData 0#32) s := by
  unfold busRead; rw [if_pos h]

theorem busRead_supported {off : Nat} (s : State) (h : off % 4 = 0) :
    busRead off 4 s = { s with out := .readData (windowRead s off) } := by
  simp [busRead, h]

/-- What a write inside the window does: a bus error, a MAG store, a command, or nothing but the empty answer. -/
theorem busWrite_cases (off size : Nat) (v : Word) (s : State) :
    ((size ≠ 4 ∨ off % 4 ≠ 0) ∧ busWrite off size v s = .next (busError .nothing s)) ∨
    (size = 4 ∧ off % 4 = 0 ∧
      ((∃ h : off ≤ 0x1C, busWrite off size v s =
          .next { s with mag := s.mag.set (off / 4) v (by omega), out := .nothing }) ∨
       (off = 0x20 ∧ busWrite off size v s = executeWord v s) ∨
       (0x20 < off ∧ busWrite off size v s = .next { s with out := .nothing }))) := by
  unfold busWrite
  by_cases hs : size ≠ 4 ∨ off % 4 ≠ 0
  · exact .inl ⟨hs, by rw [if_pos hs]⟩
  · rw [not_or, not_not, not_not] at hs
    refine .inr ⟨hs.1, hs.2, ?_⟩
    by_cases hm : off ≤ 0x1C
    · exact .inl ⟨hm, by simp [hs, hm]⟩
    · by_cases hc : off = 0x20
      · exact .inr (.inl ⟨hc, by simp [hs, hc]⟩)
      · exact .inr (.inr ⟨by omega, by simp [hs, hm, hc]⟩)

/-- A command word runs its instruction, or raises ILLEGAL_COMMAND (R175). -/
theorem executeWord_cases (w : Word) (s : State) :
    (∃ i, decode w = .ok i ∧ executeWord w s = exec i s) ∨
    (∃ e, decode w = .error e ∧ executeWord w s = .next (illegalCommand s)) := by
  unfold executeWord
  cases h : decode w with
  | ok i => exact .inl ⟨i, rfl, rfl⟩
  | error e => exact .inr ⟨e, rfl, rfl⟩

/-- Every command answers a next state. -/
theorem exec_next (i : Instr) (s : State) : ∃ t, exec i s = .next t := by
  cases i with
  | push =>
    show ∃ t, execPush s = .next t
    unfold execPush
    split <;> exact ⟨_, rfl⟩
  | nop => exact ⟨_, rfl⟩
  | decode => exact ⟨_, rfl⟩
  | decodeG => exact ⟨_, rfl⟩
  | reset code => exact ⟨_, rfl⟩
  | setPhase phase => exact ⟨_, rfl⟩
  | detect => exact ⟨_, rfl⟩

theorem executeWord_next (w : Word) (s : State) : ∃ t, executeWord w s = .next t := by
  rcases executeWord_cases w s with ⟨i, _, h⟩ | ⟨_, _, h⟩
  · rw [h]; exact exec_next i s
  · exact ⟨_, h⟩

theorem busWrite_next (off size : Nat) (v : Word) (s : State) : ∃ t, busWrite off size v s = .next t := by
  rcases busWrite_cases off size v s with ⟨_, h⟩ | ⟨_, _, ⟨_, h⟩ | ⟨_, h⟩ | ⟨_, h⟩⟩
  · exact ⟨_, h⟩
  · exact ⟨_, h⟩
  · rw [h]; exact executeWord_next v s
  · exact ⟨_, h⟩

theorem serveNext_nil {s : State} (h : s.pending = []) : serveNext s = .next s := by
  unfold serveNext; rw [h]

theorem serveNext_cons {s : State} {e : HostEvent} {rest : List HostEvent} (h : s.pending = e :: rest) :
    serveNext s = perform e { s with pending := rest } := by
  unfold serveNext; rw [h]

theorem perform_read_inside {off size : Nat} (s : State) (h : off < 0x2000) :
    perform (.read off size) s = .next (busRead off size s) := by simp [perform, h]

theorem perform_write_inside {off size : Nat} {v : Word} (s : State) (h : off < 0x2000) :
    perform (.write off size v) s = busWrite off size v s := by simp [perform, h]

/-- An access outside the window is the one stop (R54). -/
theorem perform_outside (s : State) {off : Nat} (h : 0x2000 ≤ off) (size : Nat) (v : Word) :
    perform (.read off size) s = .fault (.outsideWindow off) ∧
      perform (.write off size v) s = .fault (.outsideWindow off) := by
  have : ¬ off < 0x2000 := by omega
  simp [perform, this]

/-- What a served event can do, when it answers a next state. -/
theorem perform_cases {e : HostEvent} {s t : State} (h : perform e s = .next t) :
    (∃ off size, e = .read off size ∧ off < 0x2000 ∧ t = busRead off size s) ∨
    (∃ off size v, e = .write off size v ∧ off < 0x2000 ∧ busWrite off size v s = .next t) ∨
    (e = .hardwareReset ∧ t = hardwareReset s) := by
  cases e with
  | read off size =>
    by_cases ho : off < 0x2000
    · rw [perform_read_inside s ho] at h
      cases h
      exact .inl ⟨off, size, rfl, ho, rfl⟩
    · simp [perform, ho] at h
  | write off size v =>
    by_cases ho : off < 0x2000
    · rw [perform_write_inside s ho] at h
      exact .inr (.inl ⟨off, size, v, rfl, ho, h⟩)
    · simp [perform, ho] at h
  | hardwareReset =>
    simp only [perform] at h
    cases h
    exact .inr (.inr ⟨rfl, rfl⟩)

/-! ### Packed registers -/

/-- A field that fits above its lowest bit reads as its value at that weight. -/
theorem place_toNat {w lo : Nat} (v : BitVec w) (h : w + lo ≤ 32) : (place lo v).toNat = 2 ^ lo * v.toNat := by
  have h1 : v.toNat < 2 ^ 32 := v.isLt.trans_le (Nat.pow_le_pow_right (by omega) (by omega))
  have h2 : v.toNat * 2 ^ lo < 2 ^ 32 :=
    calc v.toNat * 2 ^ lo < 2 ^ w * 2 ^ lo := Nat.mul_lt_mul_of_pos_right v.isLt (by positivity)
      _ = 2 ^ (w + lo) := (pow_add _ _ _).symm
      _ ≤ 2 ^ 32 := Nat.pow_le_pow_right (by omega) h
  simp only [place, BitVec.toNat_shiftLeft, BitVec.toNat_setWidth, Nat.shiftLeft_eq]
  rw [Nat.mod_eq_of_lt h1, Nat.mod_eq_of_lt h2, Nat.mul_comm]

/-- Fields that do not overlap add up. -/
theorem or_toNat_of_dvd {lo : Nat} {a b : Word} (ha : a.toNat < 2 ^ lo) (hb : 2 ^ lo ∣ b.toNat) :
    (a ||| b).toNat = a.toNat + b.toNat := by
  obtain ⟨k, hk⟩ := hb
  rw [BitVec.toNat_or, hk, Nat.or_comm, ← Nat.two_pow_add_eq_or_of_lt ha, Nat.add_comm]

end Sys2Proof.Machine
end

