-- ==== Sys2Proof/Laws/Detector.lean ====
section
/-! SUPPORT. What the pieces of the length detector can answer (R111, R113, R115, R116). -/

namespace Sys2Proof.Machine

/-- The candidates are MIN_L..MAXL (R111). -/
theorem mem_candidates {maxl c : Nat} : c ∈ candidates maxl ↔ 3 ≤ c ∧ c ≤ maxl := by
  simp [candidates, List.mem_range'_1]
  omega

@[simp] theorem candidates_length (maxl : Nat) : (candidates maxl).length = maxl - 2 := by
  simp [candidates]

theorem candidates_get {maxl i : Nat} (h : i < (candidates maxl).length) : (candidates maxl)[i] = i + 3 := by
  simp [candidates]
  omega

@[simp] theorem normScores_length (scores : List Nat) : (normScores scores).length = scores.length := by
  simp [normScores]

/-- The detector on a short history (R111, R117). -/
theorem detectCore_insufficient {H : List (List Nat)} (h : H.length < 6) :
    detectCore H = ⟨.insufficient, H.length, maxCandidate H.length, 0, 0, 0, [], []⟩ := by
  have : maxCandidate H.length < Config.minL := by simp [maxCandidate]; omega
  unfold detectCore
  rw [if_pos this]

/-- The detector on a sufficient history (R111, R113). -/
theorem detectCore_sufficient {H : List (List Nat)} (h : 6 ≤ H.length) :
    detectCore H = DetectResult.ofScores H.length (maxCandidate H.length)
      ((candidates (maxCandidate H.length)).map (rawScore H)) := by
  have : ¬ maxCandidate H.length < Config.minL := by simp [maxCandidate]; omega
  unfold detectCore
  rw [if_neg this]

theorem detectCore_status (H : List (List Nat)) :
    (detectCore H).status = if H.length < 6 then .insufficient else .ok := by
  by_cases h : H.length < 6
  · rw [detectCore_insufficient h, if_pos h]
  · rw [detectCore_sufficient (by omega), if_neg h]; rfl

/-- The correction keeps the length or takes the quotient by the first winning divisor (R116). -/
theorem correctedLength_cases (norms : List Int) (lraw : Nat) :
    (∃ d, 2 ≤ d ∧ d < lraw ∧ subMultipleWins norms lraw d = true ∧
      (∀ e, 2 ≤ e → e < d → subMultipleWins norms lraw e = false) ∧ correctedLength norms lraw = lraw / d) ∨
    ((∀ d, 2 ≤ d → d < lraw → subMultipleWins norms lraw d = false) ∧ correctedLength norms lraw = lraw) := by
  unfold correctedLength
  cases h : (List.range' 2 (lraw - 2)).find? (subMultipleWins norms lraw) with
  | none =>
    refine .inr ⟨fun d h1 h2 => ?_, rfl⟩
    have := List.find?_eq_none.mp h d (by rw [List.mem_range'_1]; omega)
    simpa using this
  | some d =>
    have hm := List.mem_of_find?_eq_some h
    rw [List.mem_range'_1] at hm
    refine .inl ⟨d, hm.1, by omega, List.find?_some h, fun e h1 h2 => ?_, rfl⟩
    obtain ⟨_, as, bs, hab, hbefore⟩ := List.find?_eq_some_iff_append.mp h
    have hlt : as.length = d - 2 ∧ as = List.range' 2 as.length := by
      have hpre : as = (List.range' 2 (lraw - 2)).take as.length := by rw [hab]; simp
      have hlen : as.length < lraw - 2 := by
        have := congrArg List.length hab
        simp at this
        omega
      have hd : d = (List.range' 2 (lraw - 2))[as.length]'(by simpa using hlen) := by
        simp [hab]
      rw [List.getElem_range'] at hd
      refine ⟨by omega, ?_⟩
      refine List.ext_getElem (by simp) fun k h1 h2 => ?_
      have h3 : k < (List.range' 2 (lraw - 2)).length := by simp; omega
      have : as[k] = (List.range' 2 (lraw - 2))[k] := by simp [hab, h1]
      rw [this, List.getElem_range', List.getElem_range']
    have : e ∈ as := by
      rw [hlt.2, List.mem_range'_1]; omega
    simpa using hbefore e this

/-- The raw length is a candidate (R115). -/
theorem detectCore_raw_range {H : List (List Nat)} (h : 6 ≤ H.length) :
    3 ≤ (detectCore H).raw ∧ (detectCore H).raw ≤ maxCandidate H.length := by
  rw [detectCore_sufficient h]
  simp only [DetectResult.ofScores, rawLength]
  have hne : normScores ((candidates (maxCandidate H.length)).map (rawScore H)) ≠ [] := by
    intro h'
    have := congrArg List.length h'
    simp [maxCandidate] at this
    omega
  have := List.idxOf_lt_length_of_mem (maxInt_mem hne)
  simp at this ⊢
  omega

/-- The corrected length is at least 3 and at most the raw one (R116). -/
theorem detectCore_lstar_range {H : List (List Nat)} (h : 6 ≤ H.length) :
    3 ≤ (detectCore H).lstar ∧ (detectCore H).lstar ≤ (detectCore H).raw := by
  have hr := detectCore_raw_range h
  rw [detectCore_sufficient h] at *
  simp only [DetectResult.ofScores] at *
  generalize normScores _ = norms at *
  rcases correctedLength_cases norms (rawLength norms) with ⟨d, _, _, hw, _, he⟩ | ⟨_, he⟩
  · rw [he]
    simp only [subMultipleWins, decide_eq_true_eq] at hw
    exact ⟨hw.2.1, Nat.div_le_self _ _⟩
  · rw [he]; exact ⟨hr.1, le_refl _⟩

end Sys2Proof.Machine
end

