-- ==== Sys2Proof/Laws/PerInstr.lean ====
section
/-! SUPPORT. What holds of every command as syntax: its word is well formed and matches the command's own row of R73. -/

namespace Sys2Proof.Laws

/-- The word of a command meets none of R74's four conditions, and some row of R73's table matches it and builds the
command back from it. -/
def EncodeMatchesRow.Statement (i : Instr) : Prop :=
  i.wellFormed = true ∧ wordWellFormed (encode i) = true ∧
    ∃ r ∈ opcodeRows, r.matches (encode i) = true ∧ r.build (encode i) = i

theorem EncodeMatchesRow.nop : EncodeMatchesRow.Statement .nop :=
  ⟨rfl, by decide, opcodeRows[0], by simp [opcodeRows], by decide, rfl⟩

theorem EncodeMatchesRow.decode : EncodeMatchesRow.Statement .decode :=
  ⟨rfl, by decide, opcodeRows[1], by simp [opcodeRows], by decide, rfl⟩

theorem EncodeMatchesRow.decodeG : EncodeMatchesRow.Statement .decodeG :=
  ⟨rfl, by decide, opcodeRows[2], by simp [opcodeRows], by decide, rfl⟩

theorem EncodeMatchesRow.push : EncodeMatchesRow.Statement .push :=
  ⟨rfl, by decide, opcodeRows[3], by simp [opcodeRows], by decide, rfl⟩

/-- The immediate of a word built with opcode 3 or 4 is the immediate it was built from (R72). -/
theorem immediate_of_word :
    ∀ imm : Byte, cmdImm8 (commandWord 0x3#4 false imm) = imm ∧ cmdImm8 (commandWord 0x4#4 false imm) = imm ∧
      wordWellFormed (commandWord 0x3#4 false imm) = true ∧ wordWellFormed (commandWord 0x4#4 false imm) = true ∧
      commandWord 0x3#4 false imm &&& 0xFFFF00FF#32 = 3#32 ∧
      commandWord 0x4#4 false imm &&& 0xFFFF00FF#32 = 4#32 := by
  decide

theorem EncodeMatchesRow.reset (code : Byte) : EncodeMatchesRow.Statement (.reset code) := by
  obtain ⟨h1, -, h3, -, h5, -⟩ := immediate_of_word code
  exact ⟨rfl, h3, opcodeRows[4], by simp [opcodeRows], beq_iff_eq.mpr h5, congrArg Instr.reset h1⟩

theorem EncodeMatchesRow.setPhase (phase : Byte) : EncodeMatchesRow.Statement (.setPhase phase) := by
  obtain ⟨-, h2, -, h4, -, h6⟩ := immediate_of_word phase
  exact ⟨rfl, h4, opcodeRows[5], by simp [opcodeRows], beq_iff_eq.mpr h6, congrArg Instr.setPhase h2⟩

theorem EncodeMatchesRow.detect : EncodeMatchesRow.Statement .detect :=
  ⟨rfl, by decide, opcodeRows[6], by simp [opcodeRows], by decide, rfl⟩

end Sys2Proof.Laws
end

