-- ==== Sys2Proof/Laws/Push.lean ====
section
/-! SUPPORT. What each part of a push can do: one inversion lemma per operation of Push.lean, which later proofs cite
instead of unfolding it (R134..R147). -/

namespace Sys2Proof.Machine

/-- `ADOPT` either overflows in the replay or gives the session of R137. -/
theorem adopt_eq_some {p : Params} {lc : Nat} {x y : Session} :
    adopt p lc x = some y ↔
      ∃ f, replay p lc x.histBase x.hist PosFile.initial = some f ∧
        y = { x with len := BitVec.ofNat 5 lc, pos := f, confCnt := 1#2, ring := [], cycle := .detecting } := by
  simp [adopt, eq_comm]

/-- `CONFIRM` counts, and locks from the second confirmation on (R138). -/
theorem confirm_eq_some {x y : Session} :
    confirm x = some y ↔
      x.confCnt.toNat + 1 < 4 ∧
        y = { x with
              confCnt := x.confCnt + 1
              cycle := if Config.lockConfirmations ≤ x.confCnt.toNat + 1 then .locked else x.cycle } := by
  unfold confirm
  split <;> simp [*, eq_comm]

/-- What a checkpoint's detection does to the session: nothing, an adopt or a confirmation (R136). -/
theorem takeDetection_cases {p : Params} {r : DetectResult} {x y : Session} {b : Bool}
    (h : takeDetection p r x = some (y, b)) :
    (r.status ≠ .ok ∧ y = x ∧ b = false) ∨
    (r.status = .ok ∧ (x.cycle = .searching ∨ r.lstar ≠ x.len.toNat) ∧ adopt p r.lstar x = some y ∧ b = true) ∨
    (r.status = .ok ∧ x.cycle ≠ .searching ∧ r.lstar = x.len.toNat ∧ confirm x = some y ∧ b = false) := by
  unfold takeDetection at h
  split at h
  next hok =>
    split at h
    next hc =>
      obtain ⟨y', hy, he⟩ := Option.map_eq_some_iff.mp h
      obtain ⟨rfl, rfl⟩ := Prod.mk.inj he
      exact .inr (.inl ⟨hok, hc, hy, rfl⟩)
    next hc =>
      obtain ⟨y', hy, he⟩ := Option.map_eq_some_iff.mp h
      obtain ⟨rfl, rfl⟩ := Prod.mk.inj he
      rw [not_or, not_not] at hc
      exact .inr (.inr ⟨hok, hc.1, hc.2, hy, rfl⟩)
  next hok =>
    simp only [Option.some.injEq, Prod.mk.injEq] at h
    exact .inl ⟨hok, h.1.symm, h.2.symm⟩

/-- A push that is no checkpoint leaves the state to the routing; a checkpoint writes `DET_*` and takes the result. -/
theorem checkpointStep_cases {s t : State} {b : Bool} (h : checkpointStep s = some (t, b)) :
    (¬ AtCheckpoint s.session ∧ t = s ∧ b = false) ∨
    (AtCheckpoint s.session ∧ ∃ y, takeDetection s.params (detectCore s.historyOperand) s.session = some (y, b) ∧
      t = { writeDetect (detectCore s.historyOperand) s with session := y }) := by
  unfold checkpointStep at h
  split at h
  next hc =>
    obtain ⟨⟨y, b'⟩, hy, he⟩ := Option.map_eq_some_iff.mp h
    obtain ⟨rfl, rfl⟩ := Prod.mk.inj he
    exact .inr ⟨hc, y, hy, rfl⟩
  next hc =>
    simp only [Option.some.injEq, Prod.mk.injEq] at h
    exact .inl ⟨hc, h.1.symm, h.2.symm⟩

/-- The copy step appends exactly when the copy is due (R143). -/
theorem copyStep_cases (s : State) :
    (CopyDue s ∧ copyStep s = (appendCopy s, true)) ∨ (¬ CopyDue s ∧ copyStep s = (s, false)) := by
  unfold copyStep
  split
  · exact .inl ⟨‹_›, rfl⟩
  · exact .inr ⟨‹_›, rfl⟩

/-- The window of low means, value by value (R144). -/
theorem lastMeansLow_iff {p : Params} {ring : List Q16} :
    lastMeansLow p ring = true ↔ ∀ q ∈ ring.drop (ring.length - p.collapseWindow), q.toNat < p.collapseTh := by
  simp [lastMeansLow]

/-- The collapse step soft-resets exactly when the collapse is due (R144). -/
theorem collapseStep_cases (s : State) :
    (CollapseDue s ∧ collapseStep s = (softReset .collapse 0#8 s, some ⟨.collapse, 0#8⟩)) ∨
    (¬ CollapseDue s ∧ collapseStep s = (s, none)) := by
  unfold collapseStep
  split
  · exact .inl ⟨‹_›, rfl⟩
  · exact .inr ⟨‹_›, rfl⟩

/-- The state after ring and copy, with whether a record was appended. -/
theorem endOfCycle_cases (s : State) :
    ∃ u c, copyStep (ringStep s) = (u, c) ∧
      ((CollapseDue u ∧ endOfCycle s = ⟨softReset .collapse 0#8 u, some ⟨.collapse, 0#8⟩, c⟩) ∨
       (¬ CollapseDue u ∧ endOfCycle s = ⟨u, none, c⟩)) := by
  refine ⟨(copyStep (ringStep s)).1, (copyStep (ringStep s)).2, rfl, ?_⟩
  rcases collapseStep_cases (copyStep (ringStep s)).1 with ⟨hd, he⟩ | ⟨hd, he⟩
  · exact .inl ⟨hd, by rw [endOfCycle, he]⟩
  · exact .inr ⟨hd, by rw [endOfCycle, he]⟩

/-- The routing: without a length nothing; with one, the routed file and, at a boundary, the end of the cycle. -/
theorem routeStep_cases {b : Bool} {j : Nat} {s : State} {t : Tentative} (h : routeStep b j s = some t) :
    (s.session.len = 0#5 ∧ t = ⟨s, none, false⟩) ∨
    (s.session.len ≠ 0#5 ∧ ∃ f, routedFile b j s = some f ∧
      ((AtBoundary s.session j ∧ t = endOfCycle (withRouted f s)) ∨
       (¬ AtBoundary s.session j ∧ t = ⟨withRouted f s, none, false⟩))) := by
  unfold routeStep at h
  split at h
  next h0 => exact .inl ⟨h0, (Option.some.inj h).symm⟩
  next h0 =>
    obtain ⟨f, hf, he⟩ := Option.map_eq_some_iff.mp h
    refine .inr ⟨h0, f, hf, ?_⟩
    have hb : AtBoundary (withRouted f s).session j = AtBoundary s.session j := rfl
    simp only [hb] at he
    split at he
    · exact .inl ⟨‹_›, he.symm⟩
    · exact .inr ⟨‹_›, he.symm⟩

/-- A push is accepted exactly when the counters fit and no later store overflows (R134, R136). -/
theorem tentativePush_eq_some {s : State} {t : Tentative} :
    tentativePush s = some t ↔
      CountersFit s ∧ ∃ u b, checkpointStep (countPush s) = some (u, b) ∧
        routeStep b s.session.seq.toNat u = some t := by
  unfold tentativePush
  split
  next h =>
    rw [Option.bind_eq_some_iff]
    constructor
    · rintro ⟨⟨u, b⟩, h1, h2⟩; exact ⟨h, u, b, h1, h2⟩
    · rintro ⟨-, u, b, h1, h2⟩; exact ⟨(u, b), h1, h2⟩
  next h => simp [h]

/-- PUSH always answers a next state: the accepted push, or the rejection of R134. -/
theorem execPush_cases (s : State) :
    (∃ t, tentativePush s = some t ∧ execPush s = .next (respond .ok t.resetEvent t.copyAppended t.state)) ∨
    (tentativePush s = none ∧ execPush s = .next (rejectPush s)) := by
  unfold execPush
  cases h : tentativePush s with
  | none => exact .inr ⟨rfl, rfl⟩
  | some t => exact .inl ⟨t, rfl, rfl⟩

/-- A push whose checkpoint and routing answer commits them (R134, R136). -/
theorem execPush_of {s u : State} {b : Bool} {t : Tentative} (hc : CountersFit s)
    (hu : checkpointStep (countPush s) = some (u, b)) (hr : routeStep b s.session.seq.toNat u = some t) :
    execPush s = .next (respond .ok t.resetEvent t.copyAppended t.state) := by
  unfold execPush
  rw [tentativePush_eq_some.mpr ⟨hc, u, b, hu, hr⟩]

/-- The checkpoint test of R135, on the state before the push. -/
theorem atCheckpoint_countPush {s : State} (hc : CountersFit s) :
    AtCheckpoint (countPush s).session ↔
      (s.session.cycle = .searching ∨ s.session.cycle = .detecting) ∧
        (s.session.seq.toNat + 1) % 30 = 0 ∧ 60 ≤ s.session.seq.toNat + 1 := by
  have hseq : (s.session.seq + 1).toNat = s.session.seq.toNat + 1 := by
    have := hc.2
    bv_omega
  unfold AtCheckpoint
  simp only [countPush_session, histAppend, hseq, Config.maxMsgLen]

/-- A settled session runs no detection (R135, R138). -/
theorem checkpointStep_settled {s : State} (h : s.session.Settled) :
    checkpointStep (countPush s) = some (countPush s, false) := by
  unfold checkpointStep
  rw [if_neg]
  rintro ⟨hcycle, -⟩
  have hcycle : s.session.cycle = .searching ∨ s.session.cycle = .detecting := hcycle
  rcases h with h | h <;> rw [h] at hcycle <;> simp at hcycle

end Sys2Proof.Machine
end

