-- ==== Sys2Proof/Tests/Slice0.lean ====
section
/-! SUPPORT. The model's own tests: well-formedness, decoding, one or two single steps per command with results from
95_test_vectors.md, and for each statement with hypotheses a concrete witness that meets them. -/

-- One test after another: many kernel evaluations at once take a stack each.
set_option Elab.async false

namespace Sys2Proof.Tests

open Sys2Proof Sys2Proof.Machine

/-! ### Helpers -/

/-- The instance of the tests: the defaults, with `CT(x) = x` on the weight-4 codewords. -/
def inst : Instance := Config.defaultInstanceWith fun x => BitVec.ofNat 8 x

/-- Its reset state. -/
def reset : State := State.resetOf inst

/-- The state a command leaves. -/
def after (i : Instr) (s : State) : State :=
  match exec i s with
  | .next t => t
  | _ => s

/-- The state a step leaves. -/
def afterStep (s : State) : State :=
  match step s with
  | .next t => t
  | _ => s

theorem after_eq (i : Instr) (s : State) : exec i s = .next (after i s) := by
  obtain ⟨t, h⟩ := exec_next i s
  unfold after
  rw [h]

/-- The reset state with one host event pending. -/
def facing (e : HostEvent) : State := { reset with pending := [e] }

/-- `pat(cw, 1)`. -/
def pat (cw : Byte) : Mags := patVector cw 1#32

/-- `n` vectors of the message with these codewords, from position 0 on. -/
def message (m : List Byte) (n : Nat) : List Mags := (List.range n).map fun j => pat (m.getD (j % m.length) 0#8)

/-- A position that has seen `count` repeats of `pat(cw, 1)`. -/
def heard (cw : Byte) (count : Nat) : Position where
  sum := Vector.ofFn fun i : Fin 8 => if cw.getLsbD i then BitVec.ofNat 64 count else 0#64
  count := BitVec.ofNat 32 count
  char := cw
  conf := 65536#17
  flip := false

/-- The codewords A, B, C and D of 95_test_vectors.md. -/
def abcd : List Byte := [0x0F#8, 0xF0#8, 0x33#8, 0xCC#8]

/-- The codewords A, B and C. -/
def abc : List Byte := [0x0F#8, 0xF0#8, 0x33#8]

/-- A session that holds a message's length after `n` pushes, every position with `count` repeats; the next vector of the
message is in MAG, and the last `keep` vectors are retained. -/
def holdingOf (m : List Byte) (keep : Nat) (cycle : CycleState) (confCnt : BitVec 2) (n count : Nat) : State :=
  { reset with
    mag := pat (m.getD (n % m.length) 0#8)
    total := BitVec.ofNat 64 n
    session :=
      { cycle := cycle
        len := BitVec.ofNat 5 m.length
        confCnt := confCnt
        seq := BitVec.ofNat 64 n
        hist := (message m n).drop (n - keep)
        pos := Vector.ofFn fun p : Fin 30 =>
          if p.val < m.length then heard (m.getD p.val 0#8) count else Position.initial
        ring := []
        meanConf := 65536#17 } }

/-- The message `A B C D` held, on the default retention. -/
def holding (cycle : CycleState) (confCnt : BitVec 2) (n count : Nat) : State := holdingOf abcd 240 cycle confCnt n count

/-- SEARCHING after `n` pushes of a message. -/
def searchingOf (m : List Byte) (n : Nat) : State :=
  { reset with
    mag := pat (m.getD (n % m.length) 0#8)
    total := BitVec.ofNat 64 n
    session := { Session.initial with seq := BitVec.ofNat 64 n, hist := message m n } }

/-- SEARCHING after `n` pushes of `A B C D`. -/
def searching (n : Nat) : State := searchingOf abcd n

/-- DETECTING with length 5 on a history of period 3, one push before a checkpoint. -/
def revising : State :=
  let s := holding .detecting 1#2 59 1
  { s with
    mag := pat 0x33#8
    session := { s.session with len := 5#5, hist := message abc 59 } }

/-- The state on the instance with this retention. -/
def retaining (cap : Option Nat) (h : { inst.val with histCap := cap }.HistCapValid) (s : State) : State :=
  { s with inst := ⟨{ inst.val with histCap := cap }, by
      obtain ⟨h1, h2, h3, h4, h5, h6, h7, h8, h9, -⟩ := inst.2
      exact ⟨h1, h2, h3, h4, h5, h6, h7, h8, h9, h⟩⟩ }

/-- The state on the instance with `HIST_CAP = ∞`. -/
def unbounded (s : State) : State := retaining none (by simp [Params.HistCapValid]) s

/-- The state on the instance with `HIST_CAP = 60`. -/
def retaining60 (s : State) : State := retaining (some 60) (by simp [Params.HistCapValid]) s

/-- A ring before a boundary, with sums of no contrast, so that the next mean is 0. -/
def blurred (ring : List Q16) (s : State) : State :=
  { s with session := { s.session with
      ring := ring
      pos := s.session.pos.map fun q => if 0 < q.count.toNat then
        { q with sum := Vector.ofFn fun k : Fin 8 => if k.val = 0 then 1000000#64 else 9#64, conf := 0#17 } else q } }

/-- LOCKED one push before a boundary that brings the third low mean. -/
def fading : State := { blurred [0#17, 0#17] (holding .locked 2#2 95 23) with mag := Vector.replicate 8 0#32 }

/-- The same on an instance with `COPY_TH = 0`, below `COLLAPSE_TH`. -/
def fadingCopied : State :=
  { fading with inst := ⟨{ inst.val with copyTh := 0 }, by
      obtain ⟨h1, h2, -, h4, h5, h6, h7, h8, h9, h10⟩ := inst.2
      exact ⟨h1, h2, Nat.zero_le _, h4, h5, h6, h7, h8, h9, h10⟩⟩ }

/-- DETECTING with the message `A B C`, one push before the checkpoint at 90 that locks at a boundary (P2), on the
instance that retains 60 vectors. -/
def locking : State := retaining60 (holdingOf abc 60 .detecting 1#2 89 29)

/-- LOCKED with a copy record in the log. -/
def archived : State :=
  let s := holding .locked 2#2 91 22
  { s with copies := ⟨[⟨88#64, 4#5, Vector.replicate 30 0#8, 65536#17, 22#32, 9#8⟩], 1#32⟩ }

/-- CONFIRMED with the message `A B C`, whose text is the last record's, one push before a boundary (V-PUSH-9). -/
def repeating : State :=
  let text : Vector Byte 30 := Vector.ofFn fun k : Fin 30 => abc.getD k.val 0#8
  { holdingOf abc 240 .confirmed 2#2 92 31 with copies := ⟨[⟨90#64, 3#5, text, 65536#17, 30#32, 0#8⟩], 1#32⟩ }

/-- SEARCHING with `HIST_CAP = ∞` after `30 · 2^32 − 1` pushes, one before a checkpoint. -/
def endless : State :=
  unbounded { reset with
    total := 128849018879#64
    session := { Session.initial with seq := 128849018879#64, hist := List.replicate 128849018879 (pat 0x0F#8) } }

/-! ### Well-formedness: every check refuses an ill-formed term -/

theorem test_wellFormed_commands :
    Instr.wellFormed .nop = true ∧ Instr.wellFormed (.reset 0xFF#8) = true ∧ Instr.wellFormed (.setPhase 0#8) = true := by
  decide

theorem test_wellFormed_refuses_size : HostEvent.wellFormed (.read 0x24 2) = false := by decide

theorem test_wellFormed_refuses_alignment : HostEvent.wellFormed (.write 0x26 4 0#32) = false := by decide

theorem test_wellFormed_refuses_window : HostEvent.wellFormed (.read 0x2000 4) = false := by decide

theorem test_word_refuses_unused_opcode : wordWellFormed 0x00000006#32 = false ∧ opcodeUsed 0x00000006#32 = false := by
  decide

theorem test_word_refuses_reserved_fields :
    wordWellFormed 0x00000023#32 = false ∧ wordWellFormed 0x00010003#32 = false := by decide

theorem test_word_refuses_gate_bit : wordWellFormed 0x00000012#32 = false ∧ gateAllowed 0x00000012#32 = false := by
  decide

theorem test_word_refuses_immediate :
    wordWellFormed 0x00000101#32 = false ∧ immediateAllowed 0x00000101#32 = false := by decide

/-- R212: each condition refuses a parameter set that breaks it alone. -/
theorem test_params_refused :
    ¬ { inst.val with codeTable := Vector.replicate 256 0x41#8 }.Valid ∧
    ¬ { inst.val with confTh := 65537 }.Valid ∧ ¬ { inst.val with copyTh := 65537 }.Valid ∧
    ¬ { inst.val with collapseTh := 65537 }.Valid ∧ ¬ { inst.val with collapseWindow := 0 }.Valid ∧
    ¬ { inst.val with collapseWindow := 9 }.Valid ∧ ¬ { inst.val with ringCap := 17 }.Valid ∧
    ¬ { inst.val with copyLogCap := 0 }.Valid ∧ ¬ { inst.val with copyLogCap := 65 }.Valid ∧
    ¬ { inst.val with histCap := some 59 }.Valid ∧ ¬ { inst.val with histCap := some 4294967296 }.Valid := by
  refine ⟨?_, ?_, ?_, ?_, ?_, ?_, ?_, ?_, ?_, ?_, ?_⟩
  · intro h
    exact absurd (h.1 0 (by decide)) (by decide +kernel)
  all_goals
    rintro ⟨-, h1, h2, h3, h4, h5, h6, h7, h8, h9⟩
    simp [inst, Config.defaultInstanceWith, Config.defaultParams, Params.HistCapValid] at *

/-- R212: `HIST_CAP = ∞` is a valid instance, and so is `HIST_CAP = 60`. -/
theorem test_params_accepted :
    { inst.val with histCap := none }.HistCapValid ∧ { inst.val with histCap := some 60 }.HistCapValid := by
  exact ⟨by simp [Params.HistCapValid], by simp [Params.HistCapValid]⟩

/-! ### Decoding: words written out from R71 and R73, fields RSV1, IMM8, RSV0, G, OP -/

theorem test_decode_nop : decode (0#16 ++ 0x00#8 ++ 0b000#3 ++ 0#1 ++ 0x0#4) = .ok .nop := by decide

theorem test_decode_decode : decode (0#16 ++ 0x00#8 ++ 0b000#3 ++ 0#1 ++ 0x1#4) = .ok .decode := by decide

theorem test_decode_decodeG : decode (0#16 ++ 0x00#8 ++ 0b000#3 ++ 1#1 ++ 0x1#4) = .ok .decodeG := by decide

theorem test_decode_push : decode (0#16 ++ 0x00#8 ++ 0b000#3 ++ 0#1 ++ 0x2#4) = .ok .push := by decide

theorem test_decode_reset : decode (0#16 ++ 0xA5#8 ++ 0b000#3 ++ 0#1 ++ 0x3#4) = .ok (.reset 0xA5#8) := by decide

theorem test_decode_setPhase : decode (0#16 ++ 0xA5#8 ++ 0b000#3 ++ 0#1 ++ 0x4#4) = .ok (.setPhase 0xA5#8) := by decide

theorem test_decode_detect : decode (0#16 ++ 0x00#8 ++ 0b000#3 ++ 0#1 ++ 0x5#4) = .ok .detect := by decide

/-- V-CTL-6..12 of 95_test_vectors.md: the illegal words, each by its first reason. -/
theorem test_decode_illegal :
    decode 0x00000006#32 = .error .unusedOpcode ∧ decode 0x00000012#32 = .error .gateBit ∧
    decode 0x00000101#32 = .error .immediate ∧ decode 0x00000023#32 = .error .reservedField ∧
    decode 0x00010003#32 = .error .reservedField ∧ decode 0xFFFFFFFF#32 = .error .unusedOpcode ∧
    decode 0x00000015#32 = .error .gateBit := by decide

/-- The table's words as the host gives them, and one beyond each end. -/
theorem test_decodeTableWord :
    decodeTableWord 32 0x703 = some (.reset 7#8) ∧ decodeTableWord 32 0x11 = some .decodeG ∧
      decodeTableWord 8 0x05 = some .detect ∧ decodeTableWord 32 0x06 = none := by decide

/-- A placed word runs as the first command after reset (V-CTL-2). -/
theorem test_withFetchWord_runs :
    (afterStep (State.reset.withFetchWord 32 0x703)).lastReset = ⟨true, .manual, 7#8⟩ ∧
      (afterStep (State.reset.withFetchWord 32 0x703)).pending = [] := ⟨rfl, rfl⟩

/-! ### Symbol decoder (V-DEC of 95_test_vectors.md) -/

/-- V-DEC-10, gated: confidence 9362 is below CONF_TH, so UNK. -/
theorem test_decodeG_uncertain :
    (after .decodeG { reset with mag := #v[8, 7, 6, 5, 4, 3, 2, 1] }).dec = ⟨0x100#9, 0x0F#8, 9362#17, true⟩ := by
  decide +kernel

/-- The example of R94: full confidence, codeword 0x55. -/
theorem test_decodeG_certain :
    (after .decodeG { reset with mag := #v[10, 0, 10, 0, 10, 0, 10, 0] }).dec = ⟨0x055#9, 0x55#8, 65536#17, false⟩ := by
  decide +kernel

/-- P1: the same vector ungated. -/
theorem test_decode_ungated :
    (after .decode { reset with mag := #v[8, 7, 6, 5, 4, 3, 2, 1] }).dec = ⟨0x00F#9, 0x0F#8, 9362#17, false⟩ := by
  decide +kernel

/-- R95 item 4: three positive entries and slot 0 at zero; item 2: the zero vector. -/
theorem test_codeword_corners :
    codeword [0, 1, 1, 1, 0, 0, 0, 0] = 0x0F#8 ∧ codeword [0, 0, 0, 0, 0, 0, 0, 0] = 0x01#8 := by decide

/-! ### Length detector (V-DET of 95_test_vectors.md) -/

/-- The example of R119. -/
theorem test_detect_three :
    (after .detect { reset with session := { Session.initial with hist := message abc 12 } }).det =
      { status := .ok, n := 12#32, maxl := 6#5, raw := 3#5, len := 3#5, mean := 43739#17
        score := Vector.ofFn fun i : Fin 28 => [65536#17, 20480#17, 23405#17, 65536#17].getD i.val 0#17
        norm := Vector.ofFn fun i : Fin 28 => ([21797, -23259, -20334, 21797].map (BitVec.ofInt 32)).getD i.val 0#32 } := by
  decide +kernel

/-- R111, R117: five vectors are insufficient, and MAXL still reads 2. -/
theorem test_detect_insufficient :
    (after .detect { reset with session := { Session.initial with hist := message [0x0F#8] 5 } }).det =
      { DetectRegs.initial with status := .insufficient, n := 5#32, maxl := 2#5 } := by
  decide +kernel

/-! ### PUSH -/

/-- P4, push 92: a boundary of a locked session takes the first copy. -/
theorem test_push_copies :
    let t := after .push (holding .locked 2#2 91 22)
    t.session.cycle = .confirmed ∧ t.out = .response ⟨.ok, none, true⟩ ∧ t.copies.appended = 1#32 ∧
      t.session.ring = [65536#17] := by
  decide +kernel

/-- R144: the third low mean collapses, and the response says so. -/
theorem test_push_collapses :
    (after .push fading).session = Session.initial ∧
      (after .push fading).out = .response ⟨.ok, some ⟨.collapse, 0#8⟩, false⟩ := by
  decide +kernel

/-! ### Control commands and the bus (V-CTL, V-BUS of 95_test_vectors.md) -/

/-- V-CTL-13: NOP rewrites LAST_RESULT and leaves ERR_ILL. -/
theorem test_nop :
    Reg.status.read (after .nop { reset with errIll := true, lastResult := .illegal }) = 0x04#32 := by decide +kernel

/-- V-CTL-3. -/
theorem test_reset :
    Reg.lastReset.read (after (.reset 0xFF#8) reset) = 0x0000FF01#32 ∧ (after (.reset 0xFF#8) reset).resetEvents = 1#32 := by
  decide +kernel

/-- V-CTL-5. -/
theorem test_setPhase : Reg.phase.read (after (.setPhase 0xFF#8) reset) = 255#32 := by decide +kernel

/-- V-CTL-7: the illegal word sets the sticky bit and the result, and pushes nothing. -/
theorem test_illegal_word :
    Reg.status.read (afterStep (facing (.write 0x20 4 0x12#32))) = 0x24#32 ∧
      (afterStep (facing (.write 0x20 4 0x12#32))).total = 0#64 := by
  decide +kernel

/-- V-BUS-1. -/
theorem test_misaligned_read :
    (afterStep (facing (.read 0x26 4))).out = .readData 0#32 ∧
      Reg.status.read (afterStep (facing (.read 0x26 4))) = 0x10#32 := by
  decide +kernel

/-- V-BUS-9. -/
theorem test_mag_write : (afterStep (facing (.write 0x0C 4 0xDEADBEEF#32))).mag[3] = 0xDEADBEEF#32 := by decide +kernel

/-- V-BUS-5, V-BUS-11, V-BUS-13, V-BUS-14, V-BUS-15 and V-BUS-16. -/
theorem test_reset_reads :
    windowRead reset 0x88 = 0x4F4B0007#32 ∧ windowRead reset 0x80 = 0x00100803#32 ∧
    windowRead reset 0x30 = 0x0000003F#32 ∧ windowRead reset 0x64 = 0x00001000#32 ∧
    windowRead reset 0x54 = 0x00000800#32 ∧ windowRead reset 0x100 = 0x0000003F#32 := by
  decide +kernel

/-- R78: `PAT #0x33, #1` writes 1 to the slots of the codeword and 0 to the others. -/
theorem test_pat : (patVector 0x33#8 1#32).toList = [1#32, 1#32, 0#32, 0#32, 1#32, 1#32, 0#32, 0#32] := by decide +kernel

/-! ### Witnesses: for each statement with hypotheses, a concrete case that meets them all -/

/-- The invariant of a state with no detection yet, from checks that can be evaluated. -/
theorem inv_of_log_checks {s : State} (hhist : HistLengthInv s.params s.session)
    (hconf : s.session.cycle = .confirmed → ∃ r, s.copies.log.getLast? = some r ∧ r.len = s.session.len)
    (hlog : s.copies.log.length ≤ s.params.copyLogCap ∧ ∀ r ∈ s.copies.log, (3 ≤ r.len.toNat ∧ r.len.toNat ≤ 30) ∧
      ∀ i : Fin 30, r.len.toNat ≤ i.val → r.text[i] = 0#8)
    (hdet : s.det = DetectRegs.initial)
    (h : (s.session.cycle = .searching ↔ s.session.len = 0#5) ∧ (s.session.cycle = .detecting → s.session.confCnt = 1#2) ∧
      (s.session.Settled → s.session.confCnt = 2#2) ∧
      (s.session.len = 0#5 → s.session.confCnt = 0#2 ∧ s.session.ring = [] ∧ s.session.meanConf = 0#17) ∧
      (∀ i : Fin 30, s.session.len.toNat ≤ i.val → s.session.pos[i] = Position.initial) ∧
      (s.session.len ≠ 0#5 → 3 ≤ s.session.len.toNat ∧ s.session.len.toNat ≤ 30) ∧
      s.session.ring.length ≤ s.params.ringCap ∧ s.session.seq.toNat ≤ s.total.toNat) : s.Inv := by
  obtain ⟨h1, h2, h3, h4, h5, h7, h8, h9⟩ := h
  exact
    { session := ⟨h1, h2, h3, h4, h5, hhist, h7, h8⟩
      confirmed_copy := hconf
      log_bounded := hlog.1
      records := fun r hr => ⟨(hlog.2 r hr).1, (hlog.2 r hr).2⟩
      det_ok := by simp [hdet, DetectRegs.initial]
      det_none := by simp [hdet, DetectRegs.initial]
      seq_le_total := h9 }

/-- The same with an empty copy log. -/
theorem inv_of_checks {s : State} (hhist : HistLengthInv s.params s.session) (hlog : s.copies.log = [])
    (hdet : s.det = DetectRegs.initial)
    (h : (s.session.cycle = .searching ↔ s.session.len = 0#5) ∧ (s.session.cycle = .detecting → s.session.confCnt = 1#2) ∧
      (s.session.Settled → s.session.confCnt = 2#2) ∧
      (s.session.len = 0#5 → s.session.confCnt = 0#2 ∧ s.session.ring = [] ∧ s.session.meanConf = 0#17) ∧
      (∀ i : Fin 30, s.session.len.toNat ≤ i.val → s.session.pos[i] = Position.initial) ∧
      (s.session.len ≠ 0#5 → 3 ≤ s.session.len.toNat ∧ s.session.len.toNat ≤ 30) ∧
      s.session.ring.length ≤ s.params.ringCap ∧ s.session.cycle ≠ .confirmed ∧
      s.session.seq.toNat ≤ s.total.toNat) : s.Inv := by
  obtain ⟨h1, h2, h3, h4, h5, h7, h8, h9, h10⟩ := h
  exact inv_of_log_checks hhist (fun h => absurd h h9) (by simp [hlog]) hdet ⟨h1, h2, h3, h4, h5, h7, h8, h10⟩

/-- `HLEN = min(SEQ, HIST_CAP)` for a finite retention, by evaluation. -/
theorem histLength_of {s : State} {cap : Nat} (hcap : s.params.histCap = some cap)
    (h : s.session.hist.length = min s.session.seq.toNat cap) : HistLengthInv s.params s.session := by
  simpa [HistLengthInv, hcap] using h

theorem reset_inv : reset.Inv := inv_of_checks (histLength_of rfl (by decide +kernel)) rfl rfl (by decide +kernel)

/-- `SEQ = 59`, one push before the first checkpoint. -/
theorem searching_inv : (searching 59).Inv :=
  inv_of_checks (histLength_of rfl (by decide +kernel)) rfl rfl (by decide +kernel)

/-- The same with `HIST_CAP = ∞`. -/
theorem searching_unbounded_inv : (unbounded (searching 59)).Inv :=
  inv_of_checks (show (unbounded (searching 59)).session.hist.length = _ by decide +kernel) rfl rfl (by decide +kernel)

/-- A message of seven, one push before a first checkpoint that is no boundary. -/
theorem searching_seven_inv : (searchingOf (abcd ++ [0x55#8, 0x1E#8, 0x69#8]) 59).Inv :=
  inv_of_checks (histLength_of rfl (by decide +kernel)) rfl rfl (by decide +kernel)

/-- `SEQ = 89`, one push before the checkpoint that confirms away from a boundary (P4). -/
theorem detecting_inv : (retaining60 (holdingOf abcd 60 .detecting 1#2 89 22)).Inv :=
  inv_of_checks (histLength_of rfl (by decide +kernel)) rfl rfl (by decide +kernel)

theorem locking_inv : locking.Inv := inv_of_checks (histLength_of rfl (by decide +kernel)) rfl rfl (by decide +kernel)

/-- `SEQ = 91`, one push before the boundary of the first copy (P4). -/
theorem locked_inv : (holding .locked 2#2 91 22).Inv :=
  inv_of_checks (histLength_of rfl (by decide +kernel)) rfl rfl (by decide +kernel)

theorem locked_unbounded_inv : (unbounded (holding .locked 2#2 91 22)).Inv :=
  inv_of_checks (show (unbounded (holding .locked 2#2 91 22)).session.hist.length = _ by decide +kernel) rfl rfl
    (by decide +kernel)

theorem revising_inv : revising.Inv := inv_of_checks (histLength_of rfl (by decide +kernel)) rfl rfl (by decide +kernel)

theorem fading_inv : fading.Inv := inv_of_checks (histLength_of rfl (by decide +kernel)) rfl rfl (by decide +kernel)

theorem fadingCopied_inv : fadingCopied.Inv :=
  inv_of_checks (histLength_of rfl (by decide +kernel)) rfl rfl (by decide +kernel)

theorem repeating_inv : repeating.Inv :=
  inv_of_log_checks (histLength_of rfl (by decide +kernel)) (fun _ => ⟨_, rfl, rfl⟩) (by decide +kernel) rfl
    (by decide +kernel)

/-- The history of `endless`, as a number of vectors. -/
theorem endless_hist : endless.session.hist.length = 128849018879 := List.length_replicate

theorem endless_inv : endless.Inv :=
  inv_of_checks (show endless.session.hist.length = endless.session.seq.toNat by rw [endless_hist]; rfl) rfl rfl
    (by decide +kernel)

theorem witness_OpcodeRowsDisjoint : (opcodeRows[(4 : Fin 7)]).matches 0x0703#32 = true := by decide

/-- One word for each of R74's four conditions, at the lowest value that meets it, and a legal one. -/
theorem witness_IllegalWordRaises :
    6 ≤ (0x6#32).toNat % 16 ∧ (0x20#32).toNat / 32 % 8 ≠ 0 ∧ (0x10000#32).toNat / 65536 ≠ 0 ∧
      ((0x10#32).toNat / 16 % 2 = 1 ∧ (0x10#32).toNat % 16 ≠ 1) ∧
      ((0x105#32).toNat / 256 % 256 ≠ 0 ∧ (0x105#32).toNat % 16 = 5) ∧ decode 0xFF04#32 = .ok (.setPhase 0xFF#8) ∧
      (facing (.write 0x20 4 0x105#32)).pending = .write 0x20 4 0x105#32 :: [] := by
  decide

/-- A command, and an illegal word. -/
theorem witness_StepRunsDecodedCommand :
    ((facing (.write 0x20 4 0x703#32)).pending = .write 0x20 4 0x703#32 :: [] ∧ decode 0x703#32 = .ok (.reset 7#8)) ∧
      (facing (.write 0x20 4 0x12#32)).pending = .write 0x20 4 0x12#32 :: [] :=
  ⟨⟨rfl, by decide⟩, rfl⟩

theorem witness_IdleStepHolds : reset.pending = [] := rfl

theorem witness_BusErrorHasNoOtherEffect :
    (0x1FFF < 0x2000 ∧ ((4 : Nat) ≠ 4 ∨ 0x1FFF % 4 ≠ 0) ∧ (facing (.read 0x1FFF 4)).pending = [.read 0x1FFF 4]) ∧
      (0x20 < 0x2000 ∧ ((2 : Nat) ≠ 4 ∨ 0x20 % 4 ≠ 0) ∧
        (facing (.write 0x20 2 2#32)).pending = [.write 0x20 2 2#32]) :=
  ⟨⟨by decide, by decide, rfl⟩, by decide, by decide, rfl⟩

/-- MAG at both ends, and the ignored offsets at both ends. -/
theorem witness_AlignedWriteEffects :
    (facing (.write (4 * (0 : Fin 8).val) 4 5#32)).pending = [.write 0 4 5#32] ∧
    (facing (.write (4 * (7 : Fin 8).val) 4 5#32)).pending = [.write 0x1C 4 5#32] ∧
    (0x24 % 4 = 0 ∧ 0x24 ≤ 0x24 ∧ 0x24 < 0x2000 ∧ (facing (.write 0x24 4 5#32)).pending = [.write 0x24 4 5#32]) ∧
    (0x1FFC % 4 = 0 ∧ 0x24 ≤ 0x1FFC ∧ 0x1FFC < 0x2000 ∧
      (facing (.write 0x1FFC 4 5#32)).pending = [.write 0x1FFC 4 5#32]) :=
  ⟨rfl, rfl, ⟨by decide, by decide, by decide, rfl⟩, by decide, by decide, by decide, rfl⟩

/-- A mapped offset at each end of the window, and an unmapped one. -/
theorem witness_AlignedReadEffects :
    (0 % 4 = 0 ∧ 0 < 0x2000 ∧ (facing (.read 0 4)).pending = [.read 0 4] ∧ (Reg.mag 0).offset = 0) ∧
    (0x1FFC % 4 = 0 ∧ 0x1FFC < 0x2000 ∧ (facing (.read 0x1FFC 4)).pending = [.read 0x1FFC 4] ∧
      (Reg.copyLog 63 15).offset = 0x1FFC) ∧
    (0x8C % 4 = 0 ∧ 0x8C < 0x2000 ∧ (facing (.read 0x8C 4)).pending = [.read 0x8C 4] ∧
      ∀ r : Reg, r.offset ≠ 0x8C) := by
  refine ⟨⟨by decide, by decide, rfl, rfl⟩, ⟨by decide, by decide, rfl, rfl⟩, by decide, by decide, rfl, ?_⟩
  intro r
  cases r <;> simp only [Reg.offset] <;> omega

theorem witness_OutsideWindowStops :
    0x2000 ≤ 0x2000 ∧ (facing (.read 0x2000 4)).pending = [.read 0x2000 4] ∧
      (facing (.write 0x2000 1 0#32)).pending = [.write 0x2000 1 0#32] := ⟨by decide, rfl, rfl⟩

/-- Both sides of the equivalence are met: inside the window at its last offset, outside at the first. -/
theorem witness_OnlyLeavingTheWindowStops :
    (¬ leavesWindow (facing (.read 0x1FFF 1)) ∧ ∃ t, step (facing (.read 0x1FFF 1)) = .next t) ∧
      leavesWindow (facing (.read 0x2000 4)) ∧ step (facing (.read 0x2000 4)) = .fault (.outsideWindow 0x2000) :=
  ⟨⟨by simp [leavesWindow, facing], _, rfl⟩, by simp [leavesWindow, facing], rfl⟩

theorem witness_RegisterMapIsInjective : 0x1FFC % 4 = 0 ∧ regAt 0x1FFC = some (.copyLog 63 15) := ⟨by decide, rfl⟩

/-- Counts within their fields, a finite capacity, a held record and the empty slots after it. -/
theorem witness_PackedFieldsReadBack :
    archived.session.hist.length < 2 ^ 32 ∧ archived.session.ring.length ≤ archived.params.ringCap ∧
    archived.copies.log.length ≤ archived.params.copyLogCap ∧ archived.params.histCap = some 240 ∧
    (∃ r, archived.copies.log[(0 : Fin 64).val]? = some r ∧ (0 : Fin 64).val < archived.params.copyLogCap) ∧
    archived.copies.log.length ≤ (1 : Fin 64).val ∧ archived.params.copyLogCap ≤ (16 : Fin 64).val :=
  ⟨by decide +kernel, by decide +kernel, by decide, rfl, ⟨_, rfl, by decide⟩, by decide, by decide⟩

theorem witness_SnapshotReadsTheSession : (holding .locked 2#2 91 22).Inv := locked_inv

theorem witness_ConfidenceFromRanks :
    [1, 2, 3, 4, 5, 6, 7, 8].length = 8 ∧ List.Perm [8, 7, 6, 5, 4, 3, 2, 1] [1, 2, 3, 4, 5, 6, 7, 8] ∧
      List.Pairwise (· ≥ ·) [8, 7, 6, 5, 4, 3, 2, 1] := by decide

/-- Four equal largest values among ties: slot 0 is selected, slot 4 is not. -/
theorem witness_CodewordSelectsFourLargest :
    [5, 5, 5, 5, 5, 5, 5, 5].length = 8 ∧ 4 ≤ [5, 5, 5, 5, 5, 5, 5, 5].countP (fun x => decide (0 < x)) ∧
      (codeword [5, 5, 5, 5, 5, 5, 5, 5]).getLsbD 0 = true ∧ (codeword [5, 5, 5, 5, 5, 5, 5, 5]).getLsbD 4 = false := by
  decide

theorem witness_FewPositiveEntriesSelectSlotZero :
    [0, 1, 1, 1, 0, 0, 0, 0].length = 8 ∧ [0, 1, 1, 1, 0, 0, 0, 0].countP (fun x => decide (0 < x)) < 4 := by decide

theorem witness_FourOnVectorIsCertain :
    ((Finset.range 8).filter fun i => (0x0F#8 : Byte).getLsbD i = true).card = 4 ∧ 0 < 1 := by decide

theorem witness_AllEqualVectorIsUncertain : 0 < inst.val.confTh := by decide

theorem witness_DecodeIsScaleInvariant : [8, 7, 6, 5, 4, 3, 2, 1].length = 8 ∧ 1 ≤ 3 := by decide

theorem witness_OtherWeightsDecodeToQuestionMark :
    ((Finset.range 8).filter fun i => (codeword [7, 0, 0, 0, 0, 0, 0, 0]).getLsbD i = true).card ≠ 4 := by decide

theorem witness_CosineIsBounded :
    [1, 2, 3, 4, 5, 6, 7, 8].length = 8 ∧ [8, 7, 6, 5, 4, 3, 2, 1].length = 8 ∧
      pairValid [1, 2, 3, 4, 5, 6, 7, 8] [8, 7, 6, 5, 4, 3, 2, 1] = true := by decide

/-- The shortest sufficient history; every candidate 3..3 meets the last clause's bounds. -/
theorem witness_RawLengthIsSmallestArgmax : 6 ≤ ((message abc 6).map natsOf).length := by
  decide +kernel

/-- Two sufficient histories: a divisor wins in the first (V-DET-7 of 95_test_vectors.md) and none in the second. -/
theorem witness_AntiHarmonicTakesFirstDivisor :
    (let H := (message [0x0F#8, 0xF0#8, 0x33#8, 0x1E#8, 0xF0#8, 0x33#8] 24).map natsOf
     6 ≤ H.length ∧ (detectCore H).raw = 6 ∧ (detectCore H).lstar = 3) ∧
    let H := (message abcd 16).map natsOf
    6 ≤ H.length ∧ (detectCore H).raw = 4 ∧ (detectCore H).lstar = 4 := by
  decide +kernel

/-- Five vectors are insufficient and six are enough. -/
theorem witness_DetectStatusIsNeverALength :
    (∃ t, exec .detect (searching 5) = .next t ∧ t.det.status = .insufficient) ∧
      ∃ t, exec .detect (searching 6) = .next t ∧ t.det.status = .ok :=
  ⟨⟨_, after_eq _ _, by decide +kernel⟩, _, after_eq _ _, by decide +kernel⟩

theorem witness_ZeroHistoryGivesThree :
    6 ≤ (List.replicate 6 [0, 0]).length ∧ ∀ v ∈ List.replicate 6 [0, 0], dot v v = 0 := by decide

theorem witness_NoiseFreePeriodIsFound :
    let H := (message abc 6).map natsOf
    3 ≤ 3 ∧ 3 ≤ min 30 (H.length / 2) ∧ (∀ v ∈ H, 0 < dot v v) ∧
      (∀ i, i + 3 < H.length → H.getD (i + 3) [] = H.getD i []) ∧
      ∀ x y, x < 3 → y < 3 → x ≠ y → cosQ (H.getD x []) (H.getD y []) < 65536 := by
  intro H
  have hlen : H.length = 6 := by decide +kernel
  have hper : ∀ i < 3, H.getD (i + 3) [] = H.getD i [] := by decide +kernel
  have hcos : ∀ x < 3, ∀ y < 3, x ≠ y → cosQ (H.getD x []) (H.getD y []) < 65536 := by decide +kernel
  exact ⟨by decide, by rw [hlen]; decide, by decide +kernel, fun i hi => hper i (by omega),
    fun x y hx hy => hcos x hx y hy⟩

/-- Both clauses: a position whose count is one below the largest still fits, the largest does not. -/
theorem witness_UpdateAddsAndRedecodes :
    UpdateFits { Position.initial with count := 0xFFFFFFFE#32 } (pat 0x0F#8) ∧
      ¬ UpdateFits { Position.initial with count := 0xFFFFFFFF#32 } (pat 0x0F#8) := by
  decide +kernel

theorem witness_RepeatsAreIdempotent : 1 ≤ 2 ^ 32 - 1 ∧ 2 ^ 32 - 1 < 2 ^ 32 := by decide

/-- A replay that fits, and one that overflows. -/
theorem witness_ReplayIsFoldPerPosition :
    1 ≤ 3 ∧ 3 ≤ 30 ∧ (replay inst.val 3 7 (message abc 4) PosFile.initial).isSome = true ∧
      replay inst.val 3 0 (message abc 4) (Vector.replicate 30 { Position.initial with count := 0xFFFFFFFE#32 }) = none := by
  decide +kernel

theorem witness_RepeatAndCycleMean : (1 ≤ 1 ∧ 1 ≤ 30) ∧ 1 ≤ 30 ∧ 30 ≤ 30 := by decide

theorem witness_PushWhileSearchingCompletes :
    (searching 58).session.cycle = .searching ∧ (searching 58).session.len = 0#5 ∧ ¬ CheckpointNext (searching 58) ∧
      CountersFit (searching 58) := by decide +kernel

/-- Not at a boundary, in a settled session and in one between checkpoints. -/
theorem witness_PushRoutesOneVector :
    (let s := holding .locked 2#2 90 22
     s.session.len ≠ 0#5 ∧ s.session.Settled ∧ ¬ BoundaryNext s ∧
       (2 : Fin 30).val = s.session.seq.toNat % s.session.len.toNat ∧ CountersFit s ∧
       UpdateFits s.session.pos[(2 : Fin 30)] s.mag) ∧
    let s := holding .detecting 1#2 64 16
    s.session.len ≠ 0#5 ∧ ¬ CheckpointNext s ∧ ¬ BoundaryNext s ∧
      (0 : Fin 30).val = s.session.seq.toNat % s.session.len.toNat ∧ CountersFit s ∧
      UpdateFits s.session.pos[(0 : Fin 30)] s.mag := by
  decide +kernel

/-- A first adopt at a boundary and one away from it, and a re-adopt. -/
theorem witness_CheckpointAdoptsAndReplays :
    ((searching 59).Inv ∧ AdoptsNext (searching 59) ∧ CountersFit (searching 59) ∧
      (searching 59).params.histCap ≠ none ∧ (nextReplay (searching 59)).isSome = true) ∧
    (let s := searchingOf (abcd ++ [0x55#8, 0x1E#8, 0x69#8]) 59
     s.Inv ∧ AdoptsNext s ∧ CountersFit s ∧ (nextDetection s).lstar = 7 ∧ s.session.seq.toNat % 7 ≠ 7 - 1) ∧
    (revising.Inv ∧ AdoptsNext revising ∧ CountersFit revising) :=
  ⟨⟨searching_inv, by decide +kernel⟩, ⟨searching_seven_inv, by decide +kernel⟩, revising_inv, by decide +kernel⟩

theorem endless_adopts : AdoptsNext endless := ⟨by decide +kernel, .inl rfl⟩

theorem endless_nextHistory : (nextHistory endless).length = 128849018880 := by
  show (endless.session.hist ++ [endless.mag]).length = _
  rw [List.length_append, endless_hist]
  rfl

/-- The longest replay on `HIST_CAP = ∞` overflows a count. -/
theorem endless_replay : nextReplay endless = none := by
  have hlen := endless_nextHistory
  have h6 : 6 ≤ ((nextHistory endless).map natsOf).length := by rw [List.length_map, hlen]; decide
  have hl := detectCore_lstar_range h6
  have hr := (detectCore_raw_range h6).2
  have hc : maxCandidate ((nextHistory endless).map natsOf).length ≤ 30 := Nat.min_le_left _ _
  have h3 : 3 ≤ (nextDetection endless).lstar := hl.1
  have h30 : (nextDetection endless).lstar ≤ 30 := hl.2.trans (hr.trans hc)
  exact replay_eq_none_of_length (by omega) h30 (by rw [hlen]; decide)

/-- With `HIST_CAP = ∞`: a replay that fits, and one that overflows. -/
theorem witness_CheckpointAdoptsAndReplays_unbounded :
    ((unbounded (searching 59)).Inv ∧ AdoptsNext (unbounded (searching 59)) ∧ CountersFit (unbounded (searching 59)) ∧
      (nextHistory (unbounded (searching 59))).length < 2 ^ 32) ∧
    (endless.Inv ∧ AdoptsNext endless ∧ CountersFit endless ∧ nextReplay endless = none) :=
  ⟨⟨searching_unbounded_inv, by decide +kernel⟩, endless_inv, endless_adopts, by decide +kernel, endless_replay⟩

theorem witness_CheckpointConfirmsAndLocks :
    (retaining60 (holdingOf abcd 60 .detecting 1#2 89 22)).Inv ∧
    let s := retaining60 (holdingOf abcd 60 .detecting 1#2 89 22)
    s.session.cycle = .detecting ∧ CheckpointNext s ∧ ¬ BoundaryNext s ∧
      (1 : Fin 30).val = s.session.seq.toNat % s.session.len.toNat ∧ CountersFit s ∧
      UpdateFits s.session.pos[(1 : Fin 30)] s.mag ∧
      (detectCore ((appendBounded s.params.histCap s.session.hist s.mag).map natsOf)).lstar = s.session.len.toNat :=
  ⟨detecting_inv, by decide +kernel⟩

theorem witness_DetectingBoundaryFillsRing :
    let s := holding .detecting 1#2 63 15
    s.session.cycle = .detecting ∧ s.session.len ≠ 0#5 ∧ ¬ CheckpointNext s ∧ BoundaryNext s ∧
      (3 : Fin 30).val = s.session.seq.toNat % s.session.len.toNat ∧ CountersFit s ∧
      UpdateFits s.session.pos[(3 : Fin 30)] s.mag := by
  decide +kernel

/-- The boundary of a settled session, from evaluated checks. -/
theorem settledBoundary_of {s : State} {i : Fin 30} (h : (s.session.Settled ∨ ConfirmsNext s) ∧ BoundaryNext s ∧
    i.val = s.session.seq.toNat % s.session.len.toNat ∧ CountersFit s ∧ UpdateFits s.session.pos[i] s.mag) :
    SettledBoundary s i :=
  ⟨h.1, h.2.1, h.2.2.1, h.2.2.2.1, h.2.2.2.2⟩

theorem locked_boundary : SettledBoundary (holding .locked 2#2 91 22) 3 := settledBoundary_of (by decide +kernel)

theorem fading_boundary : SettledBoundary fading 3 := settledBoundary_of (by decide +kernel)

theorem fadingCopied_boundary : SettledBoundary fadingCopied 3 := settledBoundary_of (by decide +kernel)

/-- Push 90 of P2: the push that locks is a boundary. -/
theorem locking_boundary : SettledBoundary locking 2 := settledBoundary_of (by decide +kernel)

/-- The conditions of a copy, evaluated. -/
theorem copyDueNext_of {s : State} {i : Fin 30} (h : s.params.copyTh ≤ nextMean s i ∧
    2 ≤ minCount (nextFile s i) s.session.len.toNat ∧ s.copies.log = []) : CopyDueNext s i :=
  ⟨h.1, h.2.1, by simp [h.2.2]⟩

/-- The conditions of a collapse, evaluated. -/
theorem collapseDueNext_of {s : State} {i : Fin 30}
    (h : s.params.collapseWindow ≤ minCount (nextFile s i) s.session.len.toNat ∧
      s.params.collapseWindow ≤ (nextRing s i).length ∧ lastMeansLow s.params (nextRing s i) = true) :
    CollapseDueNext s i :=
  ⟨h.1, h.2.1, by simpa [lastMeansLow] using h.2.2⟩

/-- A boundary of `fading` with another ring. -/
def fadingWith (ring : List Q16) : State := { fading with session := { fading.session with ring := ring } }

theorem repeating_boundary : SettledBoundary repeating 2 := settledBoundary_of (by decide +kernel)

/-- A copy due, without a collapse and at the push that locks; none due, beside a collapse and, for a low mean, without
one. -/
theorem witness_BoundaryAppendsCopyExactlyWhenDue :
    ((holding .locked 2#2 91 22).Inv ∧ SettledBoundary (holding .locked 2#2 91 22) 3 ∧
      ¬ CollapseDueNext (holding .locked 2#2 91 22) 3 ∧ CopyDueNext (holding .locked 2#2 91 22) 3) ∧
    (locking.Inv ∧ SettledBoundary locking 2 ∧ ¬ CollapseDueNext locking 2 ∧ CopyDueNext locking 2) ∧
    (fading.Inv ∧ SettledBoundary fading 3 ∧ ¬ CopyDueNext fading 3) ∧
    ((fadingWith [0#17]).Inv ∧ SettledBoundary (fadingWith [0#17]) 3 ∧ ¬ CollapseDueNext (fadingWith [0#17]) 3 ∧
      ¬ CopyDueNext (fadingWith [0#17]) 3) := by
  refine ⟨⟨locked_inv, locked_boundary, ?_, copyDueNext_of (by decide +kernel)⟩,
    ⟨locking_inv, locking_boundary, ?_, copyDueNext_of (by decide +kernel)⟩, ⟨fading_inv, fading_boundary, ?_⟩,
    inv_of_checks (histLength_of rfl (by decide +kernel)) rfl rfl (by decide +kernel),
    settledBoundary_of (by decide +kernel), ?_, ?_⟩
  · rintro ⟨-, h, -⟩
    exact absurd h (by decide +kernel)
  · rintro ⟨-, h, -⟩
    exact absurd h (by decide +kernel)
  · rintro ⟨h, -, -⟩
    exact absurd h (by decide +kernel)
  · rintro ⟨-, h, -⟩
    exact absurd h (by decide +kernel)
  · rintro ⟨h, -, -⟩
    exact absurd h (by decide +kernel)

/-- V-PUSH-9: the mean and the counts call for a copy, the equal text of the last record suppresses it, and nothing
collapses. -/
theorem witness_BoundaryAppendsCopyExactlyWhenDue_same_text :
    repeating.Inv ∧ SettledBoundary repeating 2 ∧ ¬ CollapseDueNext repeating 2 ∧ ¬ CopyDueNext repeating 2 ∧
      repeating.params.copyTh ≤ nextMean repeating 2 ∧
      2 ≤ minCount (nextFile repeating 2) repeating.session.len.toNat := by
  refine ⟨repeating_inv, repeating_boundary, ?_, ?_, by decide +kernel, by decide +kernel⟩
  · rintro ⟨-, h, -⟩
    exact absurd h (by decide +kernel)
  · rintro ⟨-, -, h⟩
    exact h _ rfl ⟨rfl, by decide +kernel⟩

/-- A collapse without and with a copy of the same push (R194). -/
theorem witness_LowWindowCollapses :
    (fading.Inv ∧ SettledBoundary fading 3 ∧ CollapseDueNext fading 3 ∧ ¬ CopyDueNext fading 3) ∧
    (fadingCopied.Inv ∧ SettledBoundary fadingCopied 3 ∧ CollapseDueNext fadingCopied 3 ∧
      CopyDueNext fadingCopied 3) := by
  refine ⟨⟨fading_inv, fading_boundary, collapseDueNext_of (by decide +kernel), ?_⟩, fadingCopied_inv,
    fadingCopied_boundary, collapseDueNext_of (by decide +kernel), copyDueNext_of (by decide +kernel)⟩
  rintro ⟨h, -, -⟩
  exact absurd h (by decide +kernel)

/-- No collapse: a value equal to COLLAPSE_TH in the window (V-PUSH-11), and one value too few. -/
theorem witness_LowWindowCollapses_not_due :
    ((fadingWith [0#17, 16384#17]).Inv ∧ SettledBoundary (fadingWith [0#17, 16384#17]) 3 ∧
      ¬ CollapseDueNext (fadingWith [0#17, 16384#17]) 3) ∧
    ((fadingWith [0#17]).Inv ∧ SettledBoundary (fadingWith [0#17]) 3 ∧ ¬ CollapseDueNext (fadingWith [0#17]) 3) := by
  refine ⟨⟨inv_of_checks (histLength_of rfl (by decide +kernel)) rfl rfl (by decide +kernel),
      settledBoundary_of (by decide +kernel), ?_⟩,
    inv_of_checks (histLength_of rfl (by decide +kernel)) rfl rfl (by decide +kernel),
    settledBoundary_of (by decide +kernel), ?_⟩
  · rintro ⟨-, -, h⟩
    have hlow : lastMeansLow (fadingWith [0#17, 16384#17]).params (nextRing (fadingWith [0#17, 16384#17]) 3) = true := by
      simpa [lastMeansLow] using h
    exact absurd hlow (by decide +kernel)
  · rintro ⟨-, h, -⟩
    exact absurd h (by decide +kernel)

theorem witness_CopyAndCollapseAreExclusive :
    fading.params.collapseTh ≤ fading.params.copyTh ∧ exec .push fading = .next (after .push fading) :=
  ⟨by decide, after_eq _ _⟩

/-- TOTAL and SEQ at their last values; a count and a sum of the routed position in LOCKED; a count in DETECTING between
checkpoints and at one that confirms; a replay. -/
theorem witness_OverflowingPushIsRejected :
    ({ reset with total := BitVec.allOnes 64 }.total.toNat + 1 = 2 ^ 64 ∧
      { reset with session := { Session.initial with seq := BitVec.allOnes 64 } }.session.seq.toNat + 1 = 2 ^ 64 ∧
      (let s := holding .locked 2#2 91 4294967295
       s.session.len ≠ 0#5 ∧ s.session.Settled ∧ (3 : Fin 30).val = s.session.seq.toNat % s.session.len.toNat ∧
         s.session.pos[(3 : Fin 30)].count.toNat + 1 = 2 ^ 32) ∧
      (let s := holding .locked 2#2 91 18446744073709551615
       s.session.len ≠ 0#5 ∧ s.session.Settled ∧ (3 : Fin 30).val = s.session.seq.toNat % s.session.len.toNat ∧
         2 ^ 64 ≤ s.session.pos[(3 : Fin 30)].sum[(2 : Fin 8)].toNat + s.mag[(2 : Fin 8)].toNat) ∧
      (let s := holding .detecting 1#2 64 4294967295
       s.session.len ≠ 0#5 ∧ ¬ CheckpointNext s ∧ (0 : Fin 30).val = s.session.seq.toNat % s.session.len.toNat ∧
         s.session.pos[(0 : Fin 30)].count.toNat + 1 = 2 ^ 32) ∧
      (let s := retaining60 (holdingOf abc 12 .detecting 1#2 89 4294967295)
       s.session.len ≠ 0#5 ∧ ConfirmsNext s ∧ (2 : Fin 30).val = s.session.seq.toNat % s.session.len.toNat ∧
         s.session.pos[(2 : Fin 30)].count.toNat + 1 = 2 ^ 32)) ∧
    (AdoptsNext endless ∧ 6 ≤ (nextHistory endless).length ∧ nextReplay endless = none) :=
  ⟨by decide +kernel, endless_adopts, by rw [endless_nextHistory]; decide, endless_replay⟩

/-- On a finite and on the unbounded retention. -/
theorem witness_PushWithRoomIsAccepted :
    ((holding .locked 2#2 91 22).Inv ∧
      let s := holding .locked 2#2 91 22
      s.params.histCap ≠ none ∧ s.total.toNat + 1 < 2 ^ 64 ∧
        ∀ i : Fin 30, s.session.pos[i].count.toNat + 1 < 2 ^ 32 ∧
          ∀ k : Fin 8, s.session.pos[i].sum[k].toNat + 2 ^ 32 ≤ 2 ^ 64) ∧
    ((unbounded (holding .locked 2#2 91 22)).Inv ∧
      let s := unbounded (holding .locked 2#2 91 22)
      s.params.histCap = none ∧ s.session.hist.length + 1 < 2 ^ 32 ∧ s.total.toNat + 1 < 2 ^ 64 ∧
        ∀ i : Fin 30, s.session.pos[i].count.toNat + 1 < 2 ^ 32 ∧
          ∀ k : Fin 8, s.session.pos[i].sum[k].toNat + 2 ^ 32 ≤ 2 ^ 64) :=
  ⟨⟨locked_inv, by decide +kernel⟩, locked_unbounded_inv, by decide +kernel⟩

/-- An accepted push, one that is not at a checkpoint and one in a settled session, and a rejected one. -/
theorem witness_PushFrame :
    exec .push (searching 5) = .next (after .push (searching 5)) ∧
      (after .push (searching 5)).lastResult = .ok ∧ ¬ CheckpointNext (searching 5) ∧ fading.session.Settled ∧
      (after .push { reset with total := BitVec.allOnes 64 }).lastResult = .rejectedOvf :=
  ⟨after_eq _ _, by decide +kernel⟩

theorem witness_HardwareResetGivesTheTable : (facing .hardwareReset).pending = .hardwareReset :: [] := rfl

/-- DETECTING at a checkpoint that locks, on a short history: the changes of STATE need no invariant. -/
def lockingShort : State := holdingOf abc 12 .detecting 1#2 89 29

/-- RESET from LOCKED, adopt, lock, lock and copy, lock and collapse, first copy, and collapse. -/
theorem witness_StateChangesOnlyAsListed :
    (after (.reset 0#8) (holding .locked 2#2 91 22)).session.cycle = .searching ∧
    (after .push { searching 59 with session := { (searching 59).session with hist := message abcd 11 } }).session.cycle =
      .detecting ∧
    (after .push (holdingOf abcd 12 .detecting 1#2 89 22)).session.cycle = .locked ∧
    (after .push lockingShort).session.cycle = .confirmed ∧
    (after .push (blurred [0#17, 0#17] lockingShort)).session.cycle = .searching ∧
    (after .push (holding .locked 2#2 91 22)).session.cycle = .confirmed ∧
    (after .push fading).session.cycle = .searching := by
  decide +kernel

theorem witness_LengthIsFrozenOnceLocked :
    (holding .locked 2#2 91 22).session.Settled ∧
      exec .push (holding .locked 2#2 91 22) = .next (after .push (holding .locked 2#2 91 22)) :=
  ⟨by decide, after_eq _ _⟩

theorem witness_StickyBitsOnlyClearAtHardwareReset :
    step { reset with errIll := true, errOvf := true, errBus := true } =
      .next { reset with errIll := true, errOvf := true, errBus := true } ∧
    ∀ rest, reset.pending ≠ .hardwareReset :: rest := ⟨rfl, fun _ h => nomatch h⟩

theorem witness_PhaseHasNoDecodeEffect :
    forgetPhase reset = forgetPhase { reset with phase := 9#8 } ∧
      exec .push reset = .next (after .push reset) ∧
      exec .push { reset with phase := 9#8 } = .next (after .push { reset with phase := 9#8 }) :=
  ⟨rfl, after_eq _ _, after_eq _ _⟩

theorem witness_ParametersAreFixed : step reset = .next reset := rfl

theorem witness_EveryStepKeepsTheInvariant : reset.Inv ∧ step reset = .next reset := ⟨reset_inv, rfl⟩

theorem witness_EveryStepKeepsCountsAndLatency :
    (holding .locked 2#2 91 22).Inv ∧ CountsAtLeastTwo (holding .locked 2#2 91 22).session ∧
      LatencyInv (holding .locked 2#2 91 22).session ∧
      step (holding .locked 2#2 91 22) = .next (holding .locked 2#2 91 22) :=
  ⟨locked_inv, by decide +kernel, by decide +kernel, rfl⟩

/-- With a record in the log. -/
theorem witness_EveryStepKeepsConfidencesBounded : archived.ConfBounded ∧ step archived = .next archived :=
  ⟨{ session := ⟨by decide +kernel, by simp [archived, holding, holdingOf], by decide⟩
     decode := by decide
     records := by simp [archived]
     detMean := by decide
     detScore := by decide +kernel
     detNorm := by decide +kernel }, rfl⟩

end Sys2Proof.Tests
end

section
/-! PROOFS. What a push leaves unchanged, what one step can do, and the parameters of the instance (R6, R44). -/

namespace Sys2Proof.Machine

/-! ### The frame of a push

Each lemma writes the new state as the old one with the only fields that the operation may change (R136). -/

theorem checkpointStep_frame {s t : State} {b : Bool} (h : checkpointStep s = some (t, b)) :
    t = { s with session := t.session, det := t.det } := by
  rcases checkpointStep_cases h with ⟨-, rfl, -⟩ | ⟨-, y, -, rfl⟩
  · rfl
  · rfl

theorem copyStep_frame (s : State) :
    (copyStep s).1 = { s with session := (copyStep s).1.session, copies := (copyStep s).1.copies } := by
  rcases copyStep_cases s with ⟨-, h⟩ | ⟨-, h⟩
  · rw [h]; rfl
  · rw [h]

theorem collapseStep_frame (s : State) :
    (collapseStep s).1 = { s with
      session := (collapseStep s).1.session
      resetEvents := (collapseStep s).1.resetEvents
      lastReset := (collapseStep s).1.lastReset } := by
  rcases collapseStep_cases s with ⟨-, h⟩ | ⟨-, h⟩
  · rw [h]; rfl
  · rw [h]

/-- The end of a cycle writes the session, the log and, at a collapse, the record of resets (R142..R144). -/
theorem endOfCycle_frame (s : State) :
    (endOfCycle s).state = { s with
      session := (endOfCycle s).state.session
      copies := (endOfCycle s).state.copies
      resetEvents := (endOfCycle s).state.resetEvents
      lastReset := (endOfCycle s).state.lastReset } := by
  have hstate : (endOfCycle s).state = (collapseStep (copyStep (ringStep s)).1).1 := rfl
  rw [hstate, collapseStep_frame, copyStep_frame]
  rfl

theorem routeStep_frame {b : Bool} {j : Nat} {s : State} {t : Tentative} (h : routeStep b j s = some t) :
    t.state = { s with
      session := t.state.session
      copies := t.state.copies
      resetEvents := t.state.resetEvents
      lastReset := t.state.lastReset } := by
  rcases routeStep_cases h with ⟨-, rfl⟩ | ⟨-, f, -, ⟨-, rfl⟩ | ⟨-, rfl⟩⟩
  · rfl
  · rw [endOfCycle_frame (withRouted f s)]; rfl
  · rfl

/-- A tentative push leaves the parameters, MAG, PHASE, the decode registers, the sticky bits and the accesses still
pending as they are (R136). -/
theorem tentativePush_frame {s : State} {t : Tentative} (h : tentativePush s = some t) :
    t.state = { s with
      session := t.state.session
      total := t.state.total
      copies := t.state.copies
      det := t.state.det
      resetEvents := t.state.resetEvents
      lastReset := t.state.lastReset } := by
  obtain ⟨-, u, b, hu, ht⟩ := tentativePush_eq_some.mp h
  rw [routeStep_frame ht, checkpointStep_frame hu]
  rfl

/-! ### What one step can do -/

/-- A write inside the window that answers `t`, with the command it runs made explicit (R175). -/
theorem busWrite_next_cases {off size : Nat} {v : Word} {s t : State} (h : busWrite off size v s = .next t) :
    t = busError .nothing s ∨
    (∃ m, t = { s with mag := m, out := .nothing }) ∨
    (∃ i, decode v = .ok i ∧ exec i s = .next t) ∨
    (∃ e, decode v = .error e ∧ t = illegalCommand s) := by
  rcases busWrite_cases off size v s with ⟨-, hw⟩ | ⟨-, -, ⟨_, hw⟩ | ⟨-, hw⟩ | ⟨-, hw⟩⟩
  · cases hw.symm.trans h; exact .inl rfl
  · cases hw.symm.trans h; exact .inr (.inl ⟨_, rfl⟩)
  · rcases executeWord_cases v s with ⟨i, hi, hx⟩ | ⟨e, he, hx⟩
    · exact .inr (.inr (.inl ⟨i, hi, by rw [← hx, ← hw, h]⟩))
    · cases (hw.trans hx).symm.trans h; exact .inr (.inr (.inr ⟨e, he, rfl⟩))
  · cases hw.symm.trans h; exact .inr (.inl ⟨s.mag, rfl⟩)

/-- A step holds the state or performs the oldest pending event (R61, R203). -/
theorem step_cases {s t : State} (h : step s = .next t) :
    (s.pending = [] ∧ t = s) ∨
    (∃ e rest, s.pending = e :: rest ∧ perform e { s with pending := rest } = .next t) := by
  cases hp : s.pending with
  | nil => cases (serveNext_nil hp).symm.trans h; exact .inl ⟨rfl, rfl⟩
  | cons e rest => exact .inr ⟨e, rest, rfl, (serveNext_cons hp).symm.trans h⟩

/-! ### The parameters (R6, R44) -/

theorem execPush_inst {s t : State} (h : execPush s = .next t) : t.inst = s.inst := by
  rcases execPush_cases s with ⟨u, hu, hx⟩ | ⟨-, hx⟩
  · cases hx.symm.trans h
    rw [respond_inst, tentativePush_frame hu]
  · cases hx.symm.trans h
    simp [rejectPush]

theorem exec_inst {i : Instr} {s t : State} (h : exec i s = .next t) : t.inst = s.inst := by
  cases i with
  | push => exact execPush_inst h
  | nop => cases h; rfl
  | decode => cases h; rfl
  | decodeG => cases h; rfl
  | reset code => cases h; rfl
  | setPhase phase => cases h; rfl
  | detect => cases h; rfl

@[simp] theorem busRead_inst (off size : Nat) (s : State) : (busRead off size s).inst = s.inst := by
  unfold busRead
  split
  · exact busError_inst s _
  · rfl

@[simp] theorem illegalCommand_inst (s : State) : (illegalCommand s).inst = s.inst := by
  simp [illegalCommand]

theorem busWrite_inst {off size : Nat} {v : Word} {s t : State} (h : busWrite off size v s = .next t) :
    t.inst = s.inst := by
  rcases busWrite_next_cases h with rfl | ⟨m, rfl⟩ | ⟨i, -, hi⟩ | ⟨e, -, rfl⟩
  · exact busError_inst s _
  · rfl
  · exact exec_inst hi
  · exact illegalCommand_inst s

theorem perform_inst {e : HostEvent} {s t : State} (h : perform e s = .next t) : t.inst = s.inst := by
  rcases perform_cases h with ⟨off, size, -, -, rfl⟩ | ⟨off, size, v, -, -, hw⟩ | ⟨-, rfl⟩
  · exact busRead_inst off size s
  · exact busWrite_inst hw
  · exact hardwareReset_inst s

/-- Settles O56, by the cases of a step: each event keeps `inst`, hardware reset included. -/
theorem parametersAreFixed : Obligations.ParametersAreFixed := by
  intro s t h
  rcases step_cases h with ⟨-, rfl⟩ | ⟨e, rest, -, he⟩
  · rfl
  · exact (perform_inst he :)

end Sys2Proof.Machine
end

section
/-! PROOFS. A predicate on states that every operation of the model keeps is kept by every step: the parts of a push
(R136) and the cases of a step (R61) gone through once, for all the invariants. -/

namespace Sys2Proof.Machine

/-- `P` is kept by every operation that commands and accesses are made of, each under what is known where it runs. -/
structure KeptByOperations (P : State → Prop) : Prop where
  /-- MAG, the sticky bits, the last result, the accesses still pending and the answer. -/
  onHost : ∀ {s : State} {mag : Mags} {errIll errOvf errBus : Bool} {lastResult : CommandResult}
    {pending : List HostEvent} {out : HostOutput}, P s →
    P { s with
      mag := mag, errIll := errIll, errOvf := errOvf, errBus := errBus
      lastResult := lastResult, pending := pending, out := out }
  onSetPhase : ∀ {s : State} {phase : Byte}, P s → P { s with phase := phase }
  onDecode : ∀ {s : State} {g : Bool}, P s →
    P { s with dec := DecodeRegs.ofResult (decodeCore s.params s.magOperand g) }
  onDetect : ∀ {s : State}, P s → P (writeDetect (detectCore s.historyOperand) s)
  onCount : ∀ {s : State}, CountersFit s → P s → P (countPush s)
  onAdopt : ∀ {s : State} {y : Session}, AtCheckpoint s.session → (detectCore s.historyOperand).status = .ok →
    adopt s.params (detectCore s.historyOperand).lstar s.session = some y → P s → P { s with session := y }
  onConfirm : ∀ {s : State} {y : Session}, AtCheckpoint s.session → s.session.cycle ≠ .searching →
    confirm s.session = some y → P s → P { s with session := y }
  onRoute : ∀ {s : State} {adopted : Bool} {j : Nat} {f : PosFile}, s.session.len ≠ 0#5 →
    routedFile adopted j s = some f → P s → P (withRouted f s)
  onRing : ∀ {s : State}, s.session.len ≠ 0#5 → P s → P (ringStep s)
  onCopy : ∀ {s : State}, CopyDue s → P s → P (appendCopy s)
  onSoftReset : ∀ {s : State} {kind : ResetKind} {code : Byte}, P s → P (softReset kind code s)
  onHardwareReset : ∀ {s : State}, P s → P (hardwareReset s)

namespace KeptByOperations

variable {P : State → Prop}

/-! ### The parts of a push (R136) -/

theorem kept_checkpointStep (h : KeptByOperations P) {s t : State} {b : Bool}
    (ht : checkpointStep s = some (t, b)) (hs : P s) : P t := by
  rcases checkpointStep_cases ht with ⟨-, rfl, -⟩ | ⟨hc, y, hy, rfl⟩
  · exact hs
  · have hdet := h.onDetect hs
    rcases takeDetection_cases hy with ⟨-, rfl, -⟩ | ⟨hok, -, ha, -⟩ | ⟨-, hne, -, hcf, -⟩
    · exact hdet
    · exact (h.onAdopt (s := writeDetect (detectCore s.historyOperand) s) hc hok ha hdet :)
    · exact (h.onConfirm (s := writeDetect (detectCore s.historyOperand) s) hc hne hcf hdet :)

theorem kept_endOfCycle (h : KeptByOperations P) {s : State} (hlen : s.session.len ≠ 0#5) (hs : P s) :
    P (endOfCycle s).state := by
  have hring := h.onRing hlen hs
  obtain ⟨u, c, hcopy, hend⟩ := endOfCycle_cases s
  have hu : P u := by
    rcases copyStep_cases (ringStep s) with ⟨hdue, he⟩ | ⟨-, he⟩
    · cases he.symm.trans hcopy; exact h.onCopy hdue hring
    · cases he.symm.trans hcopy; exact hring
  rcases hend with ⟨-, he⟩ | ⟨-, he⟩
  · rw [he]; exact h.onSoftReset hu
  · rw [he]; exact hu

theorem kept_routeStep (h : KeptByOperations P) {s : State} {b : Bool} {j : Nat} {t : Tentative}
    (ht : routeStep b j s = some t) (hs : P s) : P t.state := by
  rcases routeStep_cases ht with ⟨-, rfl⟩ | ⟨hlen, f, hf, ⟨-, rfl⟩ | ⟨-, rfl⟩⟩
  · exact hs
  · exact h.kept_endOfCycle hlen (h.onRoute hlen hf hs)
  · exact h.onRoute hlen hf hs

theorem kept_tentativePush (h : KeptByOperations P) {s : State} {t : Tentative} (ht : tentativePush s = some t)
    (hs : P s) : P t.state := by
  obtain ⟨hfit, u, b, hu, hr⟩ := tentativePush_eq_some.mp ht
  exact h.kept_routeStep hr (h.kept_checkpointStep hu (h.onCount hfit hs))

/-! ### Commands, accesses and the step -/

theorem kept_respond (h : KeptByOperations P) {s : State} {r : CommandResult} {e : Option ResetEvent} {c : Bool}
    (hs : P s) : P (respond r e c s) := h.onHost hs

theorem kept_raiseError (h : KeptByOperations P) {s : State} {e : BlockError} (hs : P s) : P (raiseError e s) := by
  cases e with
  | illegalCommand => exact h.onHost hs
  | pushOverflow => exact h.onHost hs
  | busError => exact h.onHost hs

theorem kept_execPush (h : KeptByOperations P) {s t : State} (ht : execPush s = .next t) (hs : P s) : P t := by
  rcases execPush_cases s with ⟨u, hu, hx⟩ | ⟨-, hx⟩
  · cases hx.symm.trans ht; exact h.kept_respond (h.kept_tentativePush hu hs)
  · cases hx.symm.trans ht; exact h.kept_respond (h.kept_raiseError hs)

theorem kept_exec (h : KeptByOperations P) {i : Instr} {s t : State} (ht : exec i s = .next t) (hs : P s) : P t := by
  cases i with
  | nop => cases ht; exact h.kept_respond hs
  | decode => cases ht; exact h.kept_respond (h.onDecode hs)
  | decodeG => cases ht; exact h.kept_respond (h.onDecode hs)
  | push => exact h.kept_execPush ht hs
  | reset code => cases ht; exact h.kept_respond (h.onSoftReset hs)
  | setPhase phase => cases ht; exact h.kept_respond (h.onSetPhase hs)
  | detect => cases ht; exact h.kept_respond (h.onDetect hs)

theorem kept_busRead (h : KeptByOperations P) {s : State} {off size : Nat} (hs : P s) : P (busRead off size s) := by
  unfold busRead
  split
  · exact h.onHost (h.kept_raiseError hs)
  · exact h.onHost hs

theorem kept_busWrite (h : KeptByOperations P) {off size : Nat} {v : Word} {s t : State}
    (ht : busWrite off size v s = .next t) (hs : P s) : P t := by
  rcases busWrite_next_cases ht with rfl | ⟨m, rfl⟩ | ⟨i, -, hi⟩ | ⟨e, -, rfl⟩
  · exact h.onHost (h.kept_raiseError hs)
  · exact h.onHost hs
  · exact h.kept_exec hi hs
  · exact h.kept_respond (h.kept_raiseError hs)

theorem kept_perform (h : KeptByOperations P) {e : HostEvent} {s t : State} (ht : perform e s = .next t) (hs : P s) :
    P t := by
  rcases perform_cases ht with ⟨off, size, -, -, rfl⟩ | ⟨off, size, v, -, -, hw⟩ | ⟨-, rfl⟩
  · exact h.kept_busRead hs
  · exact h.kept_busWrite hw hs
  · exact h.onHardwareReset hs

/-- What every operation keeps, every step keeps. -/
theorem kept_step (h : KeptByOperations P) {s t : State} (ht : step s = .next t) (hs : P s) : P t := by
  rcases step_cases ht with ⟨-, rfl⟩ | ⟨e, rest, -, he⟩
  · exact hs
  · exact h.kept_perform he (h.onHost hs)

end KeptByOperations

end Sys2Proof.Machine
end

section
/-! PROOFS. The invariants of R40 and the bounds of the registers, operation by operation. -/

namespace Sys2Proof.Machine

/-! ### The bounds of R212 on the buffers -/

theorem State.histCapValid (s : State) : s.params.HistCapValid := by
  obtain ⟨-, -, -, -, -, -, -, -, -, hhist⟩ := s.inst.property
  exact hhist

theorem State.one_le_ringCap (s : State) : 1 ≤ s.params.ringCap := by
  obtain ⟨-, -, -, -, hwindow, hring, -⟩ := s.inst.property
  exact hwindow.trans hring

theorem State.one_le_copyLogCap (s : State) : 1 ≤ s.params.copyLogCap := by
  obtain ⟨-, -, -, -, -, -, -, hlog, -⟩ := s.inst.property
  exact hlog

/-! ### The session -/

theorem Session.initial_inv (p : Params) : Session.initial.Inv p where
  searching_iff := by simp [Session.initial]
  detecting_count := by simp [Session.initial]
  settled_count := by simp [Session.initial]
  cleared := by simp [Session.initial]
  inactive := fun i _ => PosFile.initial_get i.val i.isLt
  hist_length := by unfold HistLengthInv; split <;> simp [Session.initial]
  len_range := by simp [Session.initial]
  ring_bounded := by simp [Session.initial]

theorem Session.Inv.settled_len {p : Params} {x : Session} (h : x.Inv p) (hs : x.Settled) : x.len ≠ 0#5 := by
  intro h0
  have hc := h.searching_iff.mpr h0
  rcases hs with hs | hs <;> simp [hc] at hs

/-- R40 (f) is kept by the append of R147 with its increment of `SEQ`. -/
theorem histLengthInv_append {p : Params} (hp : p.HistCapValid) {x : Session} {m : Mags}
    (hfit : x.seq.toNat + 1 < 2 ^ 64) (h : HistLengthInv p x) :
    HistLengthInv p { histAppend p m x with seq := x.seq + 1 } := by
  have hseq : (x.seq + 1).toNat = x.seq.toNat + 1 := by bv_omega
  unfold HistLengthInv at h ⊢
  cases hcap : p.histCap with
  | none =>
    simp only [hcap] at h
    simp only [histAppend, hcap, appendBounded_length_none, hseq, h]
  | some cap =>
    simp only [hcap] at h
    have hcap60 := (hp cap hcap).1
    simp only [histAppend, hcap, hseq]
    rw [appendBounded_length cap x.hist m (by omega) (by omega)]
    omega

theorem Session.Inv.append {p : Params} (hp : p.HistCapValid) {x : Session} (h : x.Inv p) {m : Mags}
    (hfit : x.seq.toNat + 1 < 2 ^ 64) : ({ histAppend p m x with seq := x.seq + 1 } : Session).Inv p :=
  { h with hist_length := histLengthInv_append hp hfit h.hist_length }

/-- An adopt of a length in 3..30 starts from the cleared file and ring, so nothing of the old session is left in
them (R137). -/
theorem Session.Inv.adopt {p : Params} {x y : Session} {lc : Nat} (h : x.Inv p) (hlc : 3 ≤ lc ∧ lc ≤ 30)
    (hy : adopt p lc x = some y) : y.Inv p := by
  obtain ⟨f, hf, rfl⟩ := adopt_eq_some.mp hy
  have hlen : (BitVec.ofNat 5 lc).toNat = lc := by simp; omega
  have hne : BitVec.ofNat 5 lc ≠ 0#5 := by
    intro h0
    have := congrArg BitVec.toNat h0
    rw [hlen] at this
    simp at this
    omega
  exact {
    searching_iff := by simp [hne]
    detecting_count := fun _ => rfl
    settled_count := by simp
    cleared := fun h0 => absurd h0 hne
    inactive := fun i hi => by
      simp only [hlen] at hi
      exact (replay_get_inactive (by omega) hf i.val i.isLt hi).trans (PosFile.initial_get i.val i.isLt)
    hist_length := h.hist_length
    len_range := fun _ => by simpa only [hlen] using hlc
    ring_bounded := Nat.zero_le _ }

/-- The count of a detecting session is 1, so its confirmation is the second and locks (R138). -/
theorem Session.Inv.confirm_eq {p : Params} {x y : Session} (h : x.Inv p) (hx : x.cycle = .detecting)
    (hy : confirm x = some y) : y = { x with confCnt := 2#2, cycle := .locked } := by
  obtain ⟨-, rfl⟩ := confirm_eq_some.mp hy
  simp [h.detecting_count hx]

theorem Session.Inv.confirm {p : Params} {x y : Session} (h : x.Inv p) (hx : x.cycle = .detecting)
    (hy : confirm x = some y) : y.Inv p := by
  have hne : x.len ≠ 0#5 := fun h0 => by simp [h.searching_iff.mpr h0] at hx
  rw [h.confirm_eq hx hy]
  exact {
    searching_iff := by simp [hne]
    detecting_count := by simp
    settled_count := fun _ => rfl
    cleared := fun h0 => absurd h0 hne
    inactive := h.inactive
    hist_length := h.hist_length
    len_range := h.len_range
    ring_bounded := h.ring_bounded }

/-- Routing updates an active position only (R139). -/
theorem routedFile_get_inactive {s : State} {adopted : Bool} {j : Nat} {f : PosFile} (hlen : s.session.len ≠ 0#5)
    (hf : routedFile adopted j s = some f) (i : Fin 30) (hi : s.session.len.toNat ≤ i.val) :
    f[i] = s.session.pos[i] := by
  have hpos : 0 < s.session.len.toNat := Nat.pos_of_ne_zero fun h0 => hlen (BitVec.eq_of_toNat_eq (by simpa using h0))
  cases adopted with
  | true => cases hf; rfl
  | false =>
    have hlt := Nat.mod_lt j hpos
    exact updateAt_get_ne hf i.val i.isLt (by omega)

theorem Session.Inv.routed {p : Params} {x : Session} (h : x.Inv p) (hlen : x.len ≠ 0#5) {f : PosFile} {mean : Q16}
    (hf : ∀ i : Fin 30, x.len.toNat ≤ i.val → f[i] = x.pos[i]) :
    ({ x with pos := f, meanConf := mean } : Session).Inv p :=
  { h with
    cleared := fun h0 => absurd h0 hlen
    inactive := fun i hi => (hf i hi).trans (h.inactive i hi) }

theorem Session.Inv.ring {p : Params} {x : Session} (h : x.Inv p) (hcap : 1 ≤ p.ringCap) (hlen : x.len ≠ 0#5)
    {mean : Q16} : ({ x with ring := appendBounded (some p.ringCap) x.ring mean } : Session).Inv p :=
  { h with
    cleared := fun h0 => absurd h0 hlen
    ring_bounded := appendBounded_length_le _ _ _ hcap h.ring_bounded }

theorem Session.Inv.confirmed {p : Params} {x : Session} (h : x.Inv p) (hs : x.Settled) :
    ({ x with cycle := .confirmed } : Session).Inv p :=
  { h with
    searching_iff := by simp [h.settled_len hs]
    detecting_count := by simp
    settled_count := fun _ => h.settled_count hs }

/-! ### The detector's registers and the copy records -/

/-- R118: a detection is OK exactly with a length in 3..30, and leaves no length otherwise. -/
theorem detectCore_lstar (H : List (List Nat)) :
    ((detectCore H).status = .ok → 3 ≤ (detectCore H).lstar ∧ (detectCore H).lstar ≤ 30) ∧
      ((detectCore H).status ≠ .ok → (detectCore H).lstar = 0) := by
  by_cases h : H.length < 6
  · simp [detectCore_insufficient h]
  · have h6 : 6 ≤ H.length := by omega
    have hstatus : (detectCore H).status = .ok := by rw [detectCore_status, if_neg h]
    obtain ⟨-, hraw⟩ := detectCore_raw_range h6
    obtain ⟨hlo, hhi⟩ := detectCore_lstar_range h6
    have hmax : maxCandidate H.length ≤ 30 := Nat.min_le_left _ _
    exact ⟨fun _ => ⟨hlo, by omega⟩, fun hne => absurd hstatus hne⟩

/-- The record of a held length is as R34 describes it. -/
theorem newRecord_inv {s : State} (h : s.session.Inv s.params) (hlen : s.session.len ≠ 0#5) : (newRecord s).Inv where
  len_range := h.len_range hlen
  zero_padded := fun i hi => by
    have hi : ¬ i.val < s.session.len.toNat := Nat.not_lt.mpr hi
    simp [newRecord, hi]

/-! ### The state -/

/-- What a new session has to meet, the other registers staying. -/
theorem State.Inv.withSession {s : State} (h : s.Inv) {y : Session} (hy : y.Inv s.params)
    (hcopy : y.cycle = .confirmed → ∃ r, s.copies.log.getLast? = some r ∧ r.len = y.len)
    (hseq : y.seq.toNat ≤ s.total.toNat) : ({ s with session := y } : State).Inv :=
  { h with session := hy, confirmed_copy := hcopy, seq_le_total := hseq }

theorem State.Inv.detect {s : State} (h : s.Inv) : (writeDetect (detectCore s.historyOperand) s).Inv := by
  obtain ⟨hok, hnone⟩ := detectCore_lstar s.historyOperand
  exact { h with
    det_ok := fun hst => by
      have hr := hok hst
      have hlen : (BitVec.ofNat 5 (detectCore s.historyOperand).lstar).toNat = (detectCore s.historyOperand).lstar := by
        simp; omega
      simpa only [writeDetect_det, DetectRegs.ofResult, hlen] using hr
    det_none := fun hst => by
      simp only [writeDetect_det, DetectRegs.ofResult, hnone hst] }

theorem State.Inv.count {s : State} (h : s.Inv) (hfit : CountersFit s) : (countPush s).Inv := by
  obtain ⟨htotal, hseq⟩ := hfit
  have hle := h.seq_le_total
  exact { h with
    session := h.session.append s.histCapValid hseq
    seq_le_total := by
      show (s.session.seq + 1).toNat ≤ (s.total + 1).toNat
      bv_omega }

theorem State.Inv.adopt {s : State} (h : s.Inv) {y : Session} (hok : (detectCore s.historyOperand).status = .ok)
    (hy : adopt s.params (detectCore s.historyOperand).lstar s.session = some y) :
    ({ s with session := y } : State).Inv := by
  have hinv := h.session.adopt ((detectCore_lstar s.historyOperand).1 hok) hy
  obtain ⟨f, -, rfl⟩ := adopt_eq_some.mp hy
  exact h.withSession hinv nofun h.seq_le_total

theorem State.Inv.confirm {s : State} (h : s.Inv) {y : Session} (hx : s.session.cycle = .detecting)
    (hy : confirm s.session = some y) : ({ s with session := y } : State).Inv := by
  have hinv := h.session.confirm hx hy
  obtain rfl := h.session.confirm_eq hx hy
  exact h.withSession hinv nofun h.seq_le_total

theorem State.Inv.copy {s : State} (h : s.Inv) (hs : s.session.Settled) : (appendCopy s).Inv := by
  have hnew := newRecord_inv h.session (h.session.settled_len hs)
  exact { h with
    session := h.session.confirmed hs
    confirmed_copy := fun _ => ⟨newRecord s, appendBounded_getLast? _ _ _, rfl⟩
    log_bounded := appendBounded_length_le _ _ _ s.one_le_copyLogCap h.log_bounded
    records := fun r hr => by
      rcases mem_appendBounded hr with hr | rfl
      · exact h.records r hr
      · exact hnew }

theorem State.resetOf_inv (inst : Instance) : (State.resetOf inst).Inv where
  session := Session.initial_inv _
  confirmed_copy := nofun
  log_bounded := Nat.zero_le _
  records := nofun
  det_ok := nofun
  det_none := fun _ => rfl
  seq_le_total := Nat.le_refl _

theorem State.inv_keptByOperations : KeptByOperations State.Inv where
  onHost h := { h with }
  onSetPhase h := { h with }
  onDecode h := { h with }
  onDetect h := h.detect
  onCount hfit h := h.count hfit
  onAdopt _ hok hy h := h.adopt hok hy
  onConfirm hc hne hy h := h.confirm (hc.1.resolve_left hne) hy
  onRoute hlen hf h :=
    h.withSession (h.session.routed hlen (routedFile_get_inactive hlen hf)) h.confirmed_copy h.seq_le_total
  onRing {s} hlen h := h.withSession (h.session.ring s.one_le_ringCap hlen) h.confirmed_copy h.seq_le_total
  onCopy hdue h := h.copy hdue.1
  onSoftReset h := { h with
    session := Session.initial_inv _
    confirmed_copy := nofun
    seq_le_total := Nat.zero_le _ }
  onHardwareReset {s} _ := { State.resetOf_inv s.inst with }

/-- Settles O57, operation by operation: each keeps the invariants (R40, R24, R26, R31, R34, R118). -/
theorem everyStepKeepsTheInvariant : Obligations.EveryStepKeepsTheInvariant :=
  fun _ _ hs ht => State.inv_keptByOperations.kept_step ht hs

end Sys2Proof.Machine
end

section
/-! PROOFS. The phase has no decode effect (R35, R173): erasing it commutes with every operation. -/

namespace Sys2Proof.Machine

/-! ### Operations on a state with its phases erased -/

/-- The tentative push with the phases erased from its state. -/
def Tentative.forgetPhase (t : Tentative) : Tentative := { t with state := Machine.forgetPhase t.state }

@[simp] theorem forgetPhase_session (s : State) : (forgetPhase s).session = s.session := rfl

theorem forgetPhase_idem (s : State) : forgetPhase (forgetPhase s) = forgetPhase s := by
  simp [forgetPhase, Function.comp_def]

theorem forgetPhase_setPhase (s : State) (n : Byte) : forgetPhase { s with phase := n } = forgetPhase s := rfl

theorem countPush_forgetPhase (s : State) : countPush (forgetPhase s) = forgetPhase (countPush s) := rfl

theorem withRouted_forgetPhase (f : PosFile) (s : State) :
    withRouted f (forgetPhase s) = forgetPhase (withRouted f s) := rfl

theorem ringStep_forgetPhase (s : State) : ringStep (forgetPhase s) = forgetPhase (ringStep s) := rfl

theorem respond_forgetPhase (r : CommandResult) (e : Option ResetEvent) (c : Bool) (s : State) :
    respond r e c (forgetPhase s) = forgetPhase (respond r e c s) := rfl

theorem checkpointStep_forgetPhase (s : State) :
    checkpointStep (forgetPhase s) = (checkpointStep s).map fun tb => (forgetPhase tb.1, tb.2) := by
  by_cases h : AtCheckpoint s.session
  · have h' : AtCheckpoint (forgetPhase s).session := h
    rw [checkpointStep, if_pos h', checkpointStep, if_pos h, Option.map_map]
    rfl
  · have h' : ¬ AtCheckpoint (forgetPhase s).session := h
    rw [checkpointStep, if_neg h', checkpointStep, if_neg h]
    rfl

/-- The comparison of R143 looks at the characters of the last record, not at its phase. -/
theorem textIsNew_forgetPhase (s : State) : TextIsNew (forgetPhase s) ↔ TextIsNew s := by
  simp [TextIsNew, forgetPhase, CopyRecord.chars]

theorem copyDue_forgetPhase (s : State) : CopyDue (forgetPhase s) ↔ CopyDue s :=
  and_congr_right fun _ => and_congr_right fun _ => and_congr_right fun _ => textIsNew_forgetPhase s

theorem appendBounded_map {α β : Type} (g : α → β) (cap : Option Nat) (l : List α) (x : α) :
    appendBounded cap (l.map g) (g x) = (appendBounded cap l x).map g := by
  unfold appendBounded
  rw [List.length_map]
  split <;> simp

/-- The new record differs in its phase only, which is erased as well (R34). -/
theorem appendCopy_forgetPhase (s : State) : appendCopy (forgetPhase s) = forgetPhase (appendCopy s) := by
  have hlog := appendBounded_map (fun r : CopyRecord => { r with phase := 0#8 }) (some s.params.copyLogCap)
    s.copies.log (newRecord s)
  exact congrArg (fun l => { forgetPhase (appendCopy s) with copies := ⟨l, s.copies.appended + 1⟩ }) hlog

theorem copyStep_forgetPhase (s : State) :
    copyStep (forgetPhase s) = (forgetPhase (copyStep s).1, (copyStep s).2) := by
  by_cases h : CopyDue s
  · rw [copyStep, if_pos ((copyDue_forgetPhase s).mpr h), copyStep, if_pos h, appendCopy_forgetPhase]
  · rw [copyStep, if_neg (mt (copyDue_forgetPhase s).mp h), copyStep, if_neg h]

theorem collapseStep_forgetPhase (s : State) :
    collapseStep (forgetPhase s) = (forgetPhase (collapseStep s).1, (collapseStep s).2) := by
  by_cases h : CollapseDue s
  · have h' : CollapseDue (forgetPhase s) := h
    rw [collapseStep, if_pos h', collapseStep, if_pos h]
    rfl
  · have h' : ¬ CollapseDue (forgetPhase s) := h
    rw [collapseStep, if_neg h', collapseStep, if_neg h]

theorem endOfCycle_forgetPhase (s : State) : endOfCycle (forgetPhase s) = (endOfCycle s).forgetPhase := by
  simp only [endOfCycle, ringStep_forgetPhase, copyStep_forgetPhase, collapseStep_forgetPhase,
    Tentative.forgetPhase]

theorem routeStep_forgetPhase (adopted : Bool) (j : Nat) (s : State) :
    routeStep adopted j (forgetPhase s) = (routeStep adopted j s).map Tentative.forgetPhase := by
  have hfile : routedFile adopted j (forgetPhase s) = routedFile adopted j s := rfl
  by_cases h0 : s.session.len = 0#5
  · simp only [routeStep, forgetPhase_session, h0, if_pos]
    rfl
  · simp only [routeStep, forgetPhase_session, h0, if_neg, not_false_eq_true, hfile, withRouted_forgetPhase,
      Option.map_map]
    congr 1
    funext f
    rw [Function.comp_apply, apply_ite Tentative.forgetPhase, ← endOfCycle_forgetPhase]
    rfl

theorem tentativePush_forgetPhase (s : State) :
    tentativePush (forgetPhase s) = (tentativePush s).map Tentative.forgetPhase := by
  by_cases h : CountersFit s
  · have h' : CountersFit (forgetPhase s) := h
    rw [tentativePush, if_pos h', tentativePush, if_pos h, countPush_forgetPhase, checkpointStep_forgetPhase,
      Option.bind_map, Option.map_bind]
    congr 1
    funext tb
    exact routeStep_forgetPhase tb.2 s.session.seq.toNat tb.1
  · have h' : ¬ CountersFit (forgetPhase s) := h
    rw [tentativePush, if_neg h', tentativePush, if_neg h]
    rfl

theorem execPush_forgetPhase {s t : State} (h : execPush s = .next t) :
    execPush (forgetPhase s) = .next (forgetPhase t) := by
  rcases execPush_cases s with ⟨u, hu, hx⟩ | ⟨hu, hx⟩
  · cases hx.symm.trans h
    rw [execPush, tentativePush_forgetPhase, hu]
    rfl
  · cases hx.symm.trans h
    rw [execPush, tentativePush_forgetPhase, hu]
    rfl

/-! ### Commands -/

/-- A command on the state with its phases erased answers the same, but for phases. -/
theorem exec_forgetPhase {i : Instr} {s t : State} (h : exec i s = .next t) :
    ∃ u, exec i (forgetPhase s) = .next u ∧ forgetPhase u = forgetPhase t := by
  cases i with
  | push => exact ⟨_, execPush_forgetPhase h, forgetPhase_idem t⟩
  | setPhase n => cases h; exact ⟨_, rfl, forgetPhase_idem (respondOk s)⟩
  | nop => cases h; exact ⟨forgetPhase (respondOk s), rfl, forgetPhase_idem _⟩
  | decode => cases h; exact ⟨forgetPhase (decodeCommand false s), rfl, forgetPhase_idem _⟩
  | decodeG => cases h; exact ⟨forgetPhase (decodeCommand true s), rfl, forgetPhase_idem _⟩
  | reset code =>
    cases h
    exact ⟨forgetPhase (respond .ok (some ⟨.manual, code⟩) false (softReset .manual code s)), rfl,
      forgetPhase_idem _⟩
  | detect =>
    cases h
    exact ⟨forgetPhase (respondOk (writeDetect (detectCore s.historyOperand) s)), rfl, forgetPhase_idem _⟩

/-- Settles O55: both commands agree, but for phases, with the command on the common state without phases. -/
theorem phaseHasNoDecodeEffect : Obligations.PhaseHasNoDecodeEffect := by
  intro i s₁ s₂ t₁ t₂ hs h₁ h₂
  obtain ⟨u₁, hu₁, he₁⟩ := exec_forgetPhase h₁
  obtain ⟨u₂, hu₂, he₂⟩ := exec_forgetPhase h₂
  rw [hs] at hu₁
  cases hu₁.symm.trans hu₂
  exact he₁.symm.trans he₂

end Sys2Proof.Machine
end

section
/-! PROOFS. Replays, position by position and vector by vector (R41, R137). -/

namespace Sys2Proof.Machine

/-! ### One position of a replay -/

/-- The fold of `UPDATE` from `q` over the vectors whose absolute index, from `j` on, is `i` modulo `L`. -/
def positionFold (p : Params) (L j : Nat) (ms : List Mags) (i : Nat) (q : Position) : Option Position :=
  (((ms.zipIdx j).filter fun mk => mk.2 % L == i).map Prod.fst).foldlM (updatePosition p) q

@[simp] theorem positionFold_nil (p : Params) (L j i : Nat) (q : Position) :
    positionFold p L j [] i q = some q := rfl

theorem positionFold_cons_self (p : Params) (L j : Nat) (m : Mags) (ms : List Mags) (q : Position) :
    positionFold p L j (m :: ms) (j % L) q =
      (updatePosition p q m).bind (positionFold p L (j + 1) ms (j % L)) := by
  simp only [positionFold, List.zipIdx_cons, List.filter_cons, beq_self_eq_true, if_pos, List.map_cons,
    List.foldlM_cons]
  rfl

theorem positionFold_cons_ne {L j i : Nat} (h : j % L ≠ i) (p : Params) (m : Mags) (ms : List Mags) (q : Position) :
    positionFold p L j (m :: ms) i q = positionFold p L (j + 1) ms i q := by
  simp only [positionFold, List.zipIdx_cons, List.filter_cons, beq_eq_false_iff_ne.mpr h, Bool.false_eq_true,
    if_neg, not_false_eq_true]

/-- Once the first vector has gone to its position, every position folds over the others (R137). -/
theorem positionFold_cons_of_updateAt {p : Params} {L j : Nat} {m : Mags} {f g : PosFile} (hj : j % L < 30)
    (hg : updateAt p f (j % L) m = some g) (ms : List Mags) (i : Fin 30) :
    positionFold p L j (m :: ms) i f[i] = positionFold p L (j + 1) ms i g[i] := by
  by_cases h : j % L = i.val
  · have hself := updateAt_get_self hg hj
    simp only [h] at hself
    have hcons := positionFold_cons_self p L j m ms f[i]
    rw [h] at hcons
    rw [hcons, Fin.getElem_fin, hself]
    rfl
  · rw [positionFold_cons_ne h, Fin.getElem_fin, Fin.getElem_fin, updateAt_get_ne hg i.val i.isLt (Ne.symm h)]

/-- A replay that does not overflow holds every position's fold. -/
theorem positionFold_of_replay_eq_some {p : Params} {L : Nat} (hL : 1 ≤ L) (hL' : L ≤ 30) {j : Nat} {ms : List Mags}
    {f f' : PosFile} (h : replay p L j ms f = some f') (i : Fin 30) : positionFold p L j ms i f[i] = some f'[i] := by
  induction ms generalizing j f with
  | nil => cases h; rfl
  | cons m ms ih =>
    obtain ⟨g, hg, hr⟩ := replay_cons_eq_some.mp h
    rw [positionFold_cons_of_updateAt ((Nat.mod_lt j hL).trans_le hL') hg]
    exact ih hr

/-- A replay that overflows does so in the fold of some position. -/
theorem exists_positionFold_eq_none {p : Params} {L : Nat} (hL : 1 ≤ L) (hL' : L ≤ 30) {j : Nat} {ms : List Mags}
    {f : PosFile} (h : replay p L j ms f = none) : ∃ i : Fin 30, positionFold p L j ms i f[i] = none := by
  induction ms generalizing j f with
  | nil => cases h
  | cons m ms ih =>
    have hj : j % L < 30 := (Nat.mod_lt j hL).trans_le hL'
    cases hg : updateAt p f (j % L) m with
    | none =>
      have hq : updatePosition p f[j % L] m = none := updatePosition_eq_none.mpr ((updateAt_eq_none hj).mp hg)
      refine ⟨⟨j % L, hj⟩, ?_⟩
      rw [positionFold_cons_self, Fin.getElem_fin, hq]
      rfl
    | some g =>
      rw [replay, hg, Option.bind_some] at h
      obtain ⟨i, hi⟩ := ih h
      exact ⟨i, (positionFold_cons_of_updateAt hj hg ms i).trans hi⟩

/-- Settles O34, by induction on the vectors replayed. -/
theorem replayIsFoldPerPosition : Obligations.ReplayIsFoldPerPosition := by
  intro p L j ms f hL hL'
  refine ⟨fun f' h => positionFold_of_replay_eq_some hL hL' h, exists_positionFold_eq_none hL hL', ?_⟩
  rintro ⟨i, hi⟩
  cases hr : replay p L j ms f with
  | none => rfl
  | some f' =>
    have hsome := positionFold_of_replay_eq_some hL hL' hr i
    cases (show positionFold p L j ms i f[i] = none from hi).symm.trans hsome

/-! ### A replay in two parts -/

/-- A replay may be cut anywhere: the rest goes on with its own absolute index from the file reached. -/
theorem replay_append (p : Params) (L j : Nat) (ms ns : List Mags) (f : PosFile) :
    replay p L j (ms ++ ns) f = (replay p L j ms f).bind (replay p L (j + ms.length) ns) := by
  induction ms generalizing j f with
  | nil => rfl
  | cons m ms ih =>
    have hidx : j + 1 + ms.length = j + (m :: ms).length := by rw [List.length_cons]; omega
    rw [List.cons_append, replay, replay, Option.bind_assoc]
    refine Option.bind_congr fun g _ => ?_
    rw [ih, hidx]

theorem replay_singleton (p : Params) (L j : Nat) (m : Mags) (f : PosFile) :
    replay p L j [m] f = updateAt p f (j % L) m := Option.bind_fun_some _

/-- Settles O35, as the cut before the last vector. -/
theorem replayIsIncremental : Obligations.ReplayIsIncremental := by
  intro p L j ms m f
  rw [replay_append]
  exact Option.bind_congr fun g _ => replay_singleton p L (j + ms.length) m g

end Sys2Proof.Machine
end

section
/-! PROOFS. REPEAT and the cycle mean over the active positions (R33, R141). -/

namespace Sys2Proof.Machine

/-- The first `L` of the thirty indices are those below `L`. -/
theorem finRange_take_eq_filter (L : Nat) :
    (List.finRange 30).take L = (List.finRange 30).filter fun i => decide (i.val < L) := by
  have htake : ((List.finRange 30).take L).filter (fun i => decide (i.val < L)) = (List.finRange 30).take L := by
    refine List.filter_eq_self.mpr fun i hi => ?_
    obtain ⟨k, hk, rfl⟩ := List.mem_take_iff_getElem.mp hi
    simp at hk ⊢
    omega
  have hdrop : ((List.finRange 30).drop L).filter (fun i => decide (i.val < L)) = [] := by
    refine List.filter_eq_nil_iff.mpr fun i hi => ?_
    obtain ⟨k, hk, rfl⟩ := List.mem_drop_iff_getElem.mp hi
    simp
  conv_rhs => rw [← List.take_append_drop L (List.finRange 30), List.filter_append, htake, hdrop, List.append_nil]

theorem activePositions_eq_map (f : PosFile) (L : Nat) :
    activePositions f L = ((List.finRange 30).filter fun i => decide (i.val < L)).map fun i => f[i] := by
  have hlist : f.toList = (List.finRange 30).map fun i => f[i] := by
    refine List.ext_getElem (by simp) fun k h1 h2 => ?_
    simp
  rw [activePositions, hlist, ← List.map_take, finRange_take_eq_filter]

theorem mem_activePositions {f : PosFile} {L : Nat} {q : Position} :
    q ∈ activePositions f L ↔ ∃ i : Fin 30, i.val < L ∧ f[i] = q := by
  simp [activePositions_eq_map]

/-- REPEAT is a least element (R33). -/
theorem minCount_spec {f : PosFile} {L : Nat} (hL : 1 ≤ L) :
    (∀ i : Fin 30, i.val < L → minCount f L ≤ f[i].count.toNat) ∧
      ∃ i : Fin 30, i.val < L ∧ minCount f L = f[i].count.toNat := by
  have hmem : ∀ n, n ∈ (activePositions f L).map (fun q => q.count.toNat) ↔
      ∃ i : Fin 30, i.val < L ∧ f[i].count.toNat = n := by
    simp [activePositions_eq_map]
  cases hmin : ((activePositions f L).map fun q => q.count.toNat).min? with
  | none =>
    have hnil := List.min?_eq_none_iff.mp hmin
    have h0 := (hmem _).mpr ⟨0, hL, rfl⟩
    rw [hnil] at h0
    cases h0
  | some n =>
    have hn : minCount f L = n := by rw [minCount, hmin]; rfl
    obtain ⟨hin, hle⟩ := List.min?_eq_some_iff.mp hmin
    rw [hn]
    refine ⟨fun i hi => hle _ ((hmem _).mpr ⟨i, hi, rfl⟩), ?_⟩
    obtain ⟨i, hi, he⟩ := (hmem n).mp hin
    exact ⟨i, hi, he.symm⟩

/-- A sum over the indices that meet a test, as the sum of a filtered list. -/
theorem sum_map_filter_finRange {n : Nat} (c : Fin n → Prop) [DecidablePred c] (g : Fin n → Nat) :
    (((List.finRange n).filter fun i => decide (c i)).map g).sum = ∑ i ∈ Finset.univ.filter c, g i := by
  have hset : ((List.finRange n).filter fun i => decide (c i)).toFinset = Finset.univ.filter c := by
    ext i
    simp
  rw [← hset, List.sum_toFinset g ((List.nodup_finRange n).filter _)]

/-- The counted positions: active, and with at least one vector (R141). -/
def countedIndices (f : PosFile) (L : Nat) : Finset (Fin 30) :=
  Finset.univ.filter fun i => i.val < L ∧ 0 < f[i].count.toNat

theorem sum_map_counted (f : PosFile) (L : Nat) (g : Position → Nat) :
    (((activePositions f L).filter fun q => decide (0 < q.count.toNat)).map g).sum =
      ∑ i ∈ countedIndices f L, g f[i] := by
  rw [countedIndices, ← sum_map_filter_finRange]
  simp [activePositions_eq_map, List.filter_map, List.filter_filter, Function.comp_def, Bool.and_comm]

theorem length_counted (f : PosFile) (L : Nat) :
    ((activePositions f L).filter fun q => decide (0 < q.count.toNat)).length = (countedIndices f L).card := by
  simpa using sum_map_counted f L fun _ => 1

/-- The cycle mean is the floor mean over the counted positions (R141). -/
theorem cycleMean_eq (f : PosFile) (L : Nat) :
    cycleMean f L = if (countedIndices f L).card = 0 then 0
      else (∑ i ∈ countedIndices f L, f[i].conf.toNat) / (countedIndices f L).card := by
  simp only [cycleMean, length_counted, sum_map_counted]

/-- Settles O36, by the least element of the counts and the mean as a sum over the counted positions. -/
theorem repeatAndCycleMean : Obligations.RepeatAndCycleMean :=
  fun f L hL _ => ⟨minCount_spec hL, cycleMean_eq f L⟩

end Sys2Proof.Machine
end

section
/-! PROOFS. The length of a settled session (R24, R138). -/

namespace Sys2Proof.Machine

/-- The end of a cycle keeps the length, but for the soft reset of a collapse (R142..R144). -/
theorem endOfCycle_len (s : State) :
    (endOfCycle s).state.session.len = s.session.len ∨ (endOfCycle s).state.session = Session.initial := by
  obtain ⟨u, c, hcopy, ⟨-, he⟩ | ⟨-, he⟩⟩ := endOfCycle_cases s
  · rw [he]; exact .inr rfl
  · rw [he]
    rcases copyStep_cases (ringStep s) with ⟨-, hc⟩ | ⟨-, hc⟩
    · cases hc.symm.trans hcopy; exact .inl rfl
    · cases hc.symm.trans hcopy; exact .inl rfl

theorem routeStep_len {b : Bool} {j : Nat} {s : State} {t : Tentative} (h : routeStep b j s = some t) :
    t.state.session.len = s.session.len ∨ t.state.session = Session.initial := by
  rcases routeStep_cases h with ⟨-, rfl⟩ | ⟨-, f, -, ⟨-, rfl⟩ | ⟨-, rfl⟩⟩
  · exact .inl rfl
  · exact endOfCycle_len (withRouted f s)
  · exact .inl rfl

/-- A settled session runs no detection, so a push has nothing to adopt (R135, R138). -/
theorem execPush_len_of_settled {s t : State} (hs : s.session.Settled) (h : execPush s = .next t) :
    t.session.len = s.session.len ∨ t.session = Session.initial := by
  rcases execPush_cases s with ⟨u, hu, hx⟩ | ⟨-, hx⟩
  · cases hx.symm.trans h
    obtain ⟨-, v, b, hv, hr⟩ := tentativePush_eq_some.mp hu
    cases (checkpointStep_settled hs).symm.trans hv
    exact (routeStep_len hr :)
  · cases hx.symm.trans h
    exact .inl (congrArg Session.len (raiseError_session s .pushOverflow))

/-- Settles O53, by the commands: only PUSH and RESET touch the session. -/
theorem lengthIsFrozenOnceLocked : Obligations.LengthIsFrozenOnceLocked := by
  intro i s t hs h
  cases i with
  | push => exact execPush_len_of_settled hs h
  | reset code => cases h; exact .inr rfl
  | nop => cases h; exact .inl rfl
  | decode => cases h; exact .inl rfl
  | decodeG => cases h; exact .inl rfl
  | setPhase phase => cases h; exact .inl rfl
  | detect => cases h; exact .inl rfl

end Sys2Proof.Machine
end

section
/-! PROOFS. Confidences, means and scores are at most 1.0, and the operations keep them so (R29, R31, R32, R34, R36,
R37, R90, R112..R114). -/

namespace Sys2Proof.Machine

/-! ### The numbers computed -/

/-- A floor mean is at most any bound of its terms. -/
theorem sum_div_length_le {l : List Nat} {b : Nat} (h : ∀ x ∈ l, x ≤ b) : l.sum / l.length ≤ b := by
  have hsum := List.sum_le_card_nsmul l b h
  exact Nat.div_le_of_le_mul (by simpa using hsum)

/-- The values of R90's ranks descend. -/
theorem descending_getD_le (v : List Nat) {i j : Nat} (hij : i ≤ j) (hj : j < v.length) :
    (descending v).getD j 0 ≤ (descending v).getD i 0 := by
  have hlen : (descending v).length = v.length := List.length_insertionSort _ v
  have hsorted : (descending v).Pairwise (· ≥ ·) := List.pairwise_insertionSort _ v
  rw [List.getD_eq_getElem _ _ (by omega), List.getD_eq_getElem _ _ (by omega)]
  rcases Nat.lt_or_eq_of_le hij with hlt | rfl
  · exact List.pairwise_iff_getElem.mp hsorted i j _ _ hlt
  · exact le_refl _

/-- R90: the gap between ranks 3 and 4 is part of the range. -/
theorem confidence_le {v : List Nat} (h : v.length = 8) : confidence v ≤ 65536 := by
  have h03 := descending_getD_le v (i := 0) (j := 3) (by omega) (by omega)
  have h47 := descending_getD_le v (i := 4) (j := 7) (by omega) (by omega)
  simp only [confidence]
  split
  · exact Nat.zero_le _
  · refine Nat.div_le_of_le_mul (Nat.mul_le_mul_right _ ?_)
    omega

@[simp] theorem natsOf_length {n w : Nat} (v : Vector (BitVec w) n) : (natsOf v).length = n := by simp [natsOf]

theorem toNat_ofNat_le {w n b : Nat} (h : n ≤ b) : (BitVec.ofNat w n).toNat ≤ b := by
  rw [BitVec.toNat_ofNat]
  exact (Nat.mod_le _ _).trans h

/-- The Cauchy-Schwarz inequality for the sums of R112. -/
theorem dot_sq_le (a b : List Nat) : dot a b ^ 2 ≤ dot a a * dot b b := by
  induction a generalizing b with
  | nil => simp [dot]
  | cons x a ih =>
    cases b with
    | nil => simp [dot]
    | cons y b =>
      have hcons : ∀ (x y : Nat) (a b : List Nat), dot (x :: a) (y :: b) = x * y + dot a b := by simp [dot]
      have hab := ih b
      simp only [hcons]
      generalize dot a b = s at hab ⊢
      generalize dot a a = p at hab ⊢
      generalize dot b b = q at hab ⊢
      have hmid : 2 * (x * y * s) ≤ x ^ 2 * q + y ^ 2 * p := by
        refine (Nat.pow_le_pow_iff_left (n := 2) (by omega)).mp ?_
        have : (x * y * s) ^ 2 ≤ (x ^ 2 * q) * (y ^ 2 * p) := by
          calc (x * y * s) ^ 2 = (x * y) ^ 2 * s ^ 2 := by ring
            _ ≤ (x * y) ^ 2 * (p * q) := Nat.mul_le_mul_left _ hab
            _ = (x ^ 2 * q) * (y ^ 2 * p) := by ring
        nlinarith [four_mul_le_sq_add (x ^ 2 * q) (y ^ 2 * p)]
      nlinarith

/-- R112: a cosine is at most 1.0. -/
theorem cosQ_le (a b : List Nat) : cosQ a b ≤ 65536 := by
  have h : dot a b ≤ isqrt (dot a a * dot b b) := le_isqrt (by rw [← sq]; exact dot_sq_le a b)
  exact Nat.div_le_of_le_mul (Nat.mul_le_mul_right _ h)

theorem rawScore_le (H : List (List Nat)) (c : Nat) : rawScore H c ≤ 65536 := by
  simp only [rawScore]
  split
  · exact Nat.zero_le _
  · refine sum_div_length_le fun x hx => ?_
    obtain ⟨ab, -, rfl⟩ := List.mem_map.mp hx
    exact cosQ_le ab.1 ab.2

theorem cycleMean_le {f : PosFile} (hf : ∀ i : Fin 30, f[i].conf.toNat ≤ 65536) (L : Nat) :
    cycleMean f L ≤ 65536 := by
  rw [cycleMean_eq]
  split
  · exact Nat.zero_le _
  · have hsum := Finset.sum_le_card_nsmul (countedIndices f L) (fun i => f[i].conf.toNat) 65536 fun i _ => hf i
    exact Nat.div_le_of_le_mul (by simpa using hsum)

/-! ### The detector's registers -/

/-- R114: a normalised score is a score less the mean. -/
theorem mem_normScores {scores : List Nat} {y : Int} :
    y ∈ normScores scores ↔ ∃ x ∈ scores, (x : Int) - (meanScore scores : Int) = y := by
  simp [normScores]

/-- What R113 and R114 bound: the scores, their mean and the differences from it. -/
structure DetectResult.Bounded (r : DetectResult) : Prop where
  mean : r.mean ≤ 65536
  scores : ∀ x ∈ r.scores, x ≤ 65536
  norms : ∀ y ∈ r.norms, y.natAbs ≤ 65536

theorem DetectResult.ofScores_bounded {scores : List Nat} (h : ∀ x ∈ scores, x ≤ 65536) (n maxl : Nat) :
    (DetectResult.ofScores n maxl scores).Bounded where
  mean := sum_div_length_le h
  scores := h
  norms := fun y hy => by
    have hmean : meanScore scores ≤ 65536 := sum_div_length_le h
    obtain ⟨x, hx, rfl⟩ := mem_normScores.mp hy
    have := h x hx
    omega

theorem detectCore_bounded (H : List (List Nat)) : (detectCore H).Bounded := by
  by_cases h : H.length < 6
  · rw [detectCore_insufficient h]
    exact ⟨Nat.zero_le _, nofun, nofun⟩
  · rw [detectCore_sufficient (by omega)]
    refine DetectResult.ofScores_bounded (fun x hx => ?_) _ _
    obtain ⟨c, -, rfl⟩ := List.mem_map.mp hx
    exact rawScore_le H c

/-- A bound of a list's entries that the default meets holds of what is read at any index. -/
theorem getD_of_forall {α : Type} {Q : α → Prop} {l : List α} {d : α} (h : ∀ x ∈ l, Q x) (hd : Q d) (i : Nat) :
    Q (l.getD i d) := by
  rcases Nat.lt_or_ge i l.length with hi | hi
  · rw [List.getD_eq_getElem _ _ hi]; exact h _ (List.getElem_mem hi)
  · rw [List.getD_eq_default _ _ hi]; exact hd

theorem natAbs_toInt_ofInt_le {x : Int} (h : x.natAbs ≤ 65536) : (BitVec.ofInt 32 x).toInt.natAbs ≤ 65536 := by
  rw [BitVec.toInt_ofInt_eq_self (by omega) (by omega) (by omega)]
  exact h

/-! ### The operations -/

theorem Session.initial_confBounded : Session.initial.ConfBounded where
  positions := fun i => by
    have : (PosFile.initial[i] : Position) = Position.initial := PosFile.initial_get i.val i.isLt
    simp [Session.initial, this]
  ring := nofun
  mean := Nat.zero_le _

theorem updatedPosition_conf (p : Params) (q : Position) (m : Mags) :
    (updatedPosition p q m).conf = BitVec.ofNat 17 (confidence (natsOf (addMags q.sum m))) := by
  simp only [updatedPosition, decodeCore]

/-- An update re-decodes the whole sum, so its confidence is one of R90 (R130). -/
theorem updatePosition_conf_le {p : Params} {q q' : Position} {m : Mags} (h : updatePosition p q m = some q') :
    q'.conf.toNat ≤ 65536 := by
  obtain ⟨-, rfl⟩ := updatePosition_eq_some.mp h
  rw [updatedPosition_conf]
  exact toNat_ofNat_le (confidence_le (natsOf_length _))

theorem Session.ConfBounded.adopt {p : Params} {lc : Nat} {x y : Session} (h : x.ConfBounded)
    (hy : adopt p lc x = some y) : y.ConfBounded := by
  obtain ⟨f, hf, rfl⟩ := adopt_eq_some.mp hy
  have hconf := replay_forall (P := fun q => q.conf.toNat ≤ 65536) hf
    (fun i hi => Session.initial_confBounded.positions ⟨i, hi⟩) fun _ _ _ _ => updatePosition_conf_le
  exact { positions := fun i => hconf i.val i.isLt, ring := nofun, mean := h.mean }

theorem Session.ConfBounded.confirm {x y : Session} (h : x.ConfBounded) (hy : confirm x = some y) :
    y.ConfBounded := by
  obtain ⟨-, rfl⟩ := confirm_eq_some.mp hy
  exact { h with }

theorem routedFile_conf_le {s : State} (h : s.session.ConfBounded) {adopted : Bool} {j : Nat} {f : PosFile}
    (hf : routedFile adopted j s = some f) (i : Fin 30) : f[i].conf.toNat ≤ 65536 := by
  cases adopted with
  | true => cases hf; exact h.positions i
  | false =>
    exact updateAt_forall (P := fun q => q.conf.toNat ≤ 65536) hf (fun k hk => h.positions ⟨k, hk⟩)
      (fun _ _ _ => updatePosition_conf_le) i.val i.isLt

theorem DetectRegs.ofResult_confBounded {r : DetectResult} (h : r.Bounded) :
    (DetectRegs.ofResult r).mean.toNat ≤ 65536 ∧
      (∀ i : Fin 28, (DetectRegs.ofResult r).score[i].toNat ≤ 65536) ∧
      ∀ i : Fin 28, (DetectRegs.ofResult r).norm[i].toInt.natAbs ≤ 65536 := by
  refine ⟨toNat_ofNat_le h.mean, fun i => ?_, fun i => ?_⟩
  · have hx := getD_of_forall (Q := fun x => x ≤ 65536) (d := 0) h.scores (Nat.zero_le _) i.val
    simpa [DetectRegs.ofResult] using toNat_ofNat_le (w := 17) hx
  · have hx := getD_of_forall (Q := fun y : Int => y.natAbs ≤ 65536) (d := 0) h.norms (Nat.zero_le _) i.val
    simpa [DetectRegs.ofResult] using natAbs_toInt_ofInt_le hx

theorem State.resetOf_confBounded (inst : Instance) : (State.resetOf inst).ConfBounded where
  session := Session.initial_confBounded
  decode := Nat.zero_le _
  records := nofun
  detMean := Nat.zero_le _
  detScore := fun i => by simp [State.resetOf, DetectRegs.initial]
  detNorm := fun i => by simp [State.resetOf, DetectRegs.initial]

theorem State.confBounded_keptByOperations : KeptByOperations State.ConfBounded where
  onHost h := { h with }
  onSetPhase h := { h with }
  onDecode h := { h with decode := toNat_ofNat_le (confidence_le (natsOf_length _)) }
  onDetect {s} h := by
    obtain ⟨hmean, hscore, hnorm⟩ := DetectRegs.ofResult_confBounded (detectCore_bounded s.historyOperand)
    exact { h with detMean := hmean, detScore := hscore, detNorm := hnorm }
  onCount _ h := { h with session := { h.session with } }
  onAdopt _ _ hy h := { h with session := h.session.adopt hy }
  onConfirm _ _ hy h := { h with session := h.session.confirm hy }
  onRoute _ hf h :=
    have hconf := routedFile_conf_le h.session hf
    { h with
      session := { h.session with positions := hconf, mean := toNat_ofNat_le (cycleMean_le hconf _) } }
  onRing _ h := { h with
    session := { h.session with
      ring := fun q hq => by
        rcases mem_appendBounded hq with hq | rfl
        · exact h.session.ring q hq
        · exact toNat_ofNat_le (cycleMean_le h.session.positions _) } }
  onCopy _ h := { h with
    session := { h.session with }
    records := fun r hr => by
      rcases mem_appendBounded hr with hr | rfl
      · exact h.records r hr
      · exact toNat_ofNat_le (cycleMean_le h.session.positions _) }
  onSoftReset h := { h with session := Session.initial_confBounded }
  onHardwareReset {s} _ := { State.resetOf_confBounded s.inst with }

/-- Settles O59, operation by operation: what each stores is a confidence, a mean of confidences, a score or a
difference of two scores. -/
theorem everyStepKeepsConfidencesBounded : Obligations.EveryStepKeepsConfidencesBounded :=
  fun _ _ hs ht => State.confBounded_keptByOperations.kept_step ht hs

end Sys2Proof.Machine
end

section
/-! PROOFS. Accesses of the host: bus errors, aligned reads and writes, and the one stop (R52..R54, R174, R175). -/

namespace Sys2Proof.Machine

theorem step_of_pending {s : State} {e : HostEvent} {rest : List HostEvent} (h : s.pending = e :: rest) :
    step s = perform e { s with pending := rest } := serveNext_cons h

theorem step_of_read {s : State} {off size : Nat} {rest : List HostEvent} (h : s.pending = .read off size :: rest)
    (ho : off < 0x2000) : step s = .next (busRead off size { s with pending := rest }) := by
  rw [step_of_pending h, perform_read_inside _ ho]

theorem step_of_write {s : State} {off size : Nat} {v : Word} {rest : List HostEvent}
    (h : s.pending = .write off size v :: rest) (ho : off < 0x2000) :
    step s = busWrite off size v { s with pending := rest } := by
  rw [step_of_pending h, perform_write_inside _ ho]

/-! ### Writes -/

theorem busWrite_unsupported {off size : Nat} (v : Word) (s : State) (h : size ≠ 4 ∨ off % 4 ≠ 0) :
    busWrite off size v s = .next (busError .nothing s) := by
  unfold busWrite; rw [if_pos h]

theorem busWrite_mag (k : Fin 8) (v : Word) (s : State) :
    busWrite (4 * k.val) 4 v s = .next { s with mag := s.mag.set k v, out := .nothing } := by
  have hk : 4 * k.val ≤ 0x1C := by omega
  simp [busWrite, hk]

theorem busWrite_aboveCmd {off : Nat} (v : Word) (s : State) (h4 : off % 4 = 0) (ho : 0x20 < off) :
    busWrite off 4 v s = .next { s with out := .nothing } := by
  rcases busWrite_cases off 4 v s with ⟨hbad, -⟩ | ⟨-, -, ⟨hm, -⟩ | ⟨hc, -⟩ | ⟨-, hw⟩⟩
  · exact absurd h4 (hbad.resolve_left (not_not.mpr rfl))
  · omega
  · omega
  · exact hw

/-- Settles O7: a read and a write of an unsupported size or alignment are both `busError`. -/
theorem busErrorHasNoOtherEffect : Obligations.BusErrorHasNoOtherEffect := by
  intro s off size v rest ho hbad
  constructor
  · intro h
    rw [step_of_read h ho, busRead_unsupported _ hbad]
    rfl
  · intro h
    rw [step_of_write h ho, busWrite_unsupported v _ hbad]
    rfl

/-- Settles O8, by the two ranges of offsets. -/
theorem alignedWriteEffects : Obligations.AlignedWriteEffects := by
  intro s v rest
  constructor
  · intro k h
    rw [step_of_write h (by omega), busWrite_mag]
  · intro off h4 hlo hhi h
    rw [step_of_write h hhi, busWrite_aboveCmd v _ h4 (by omega)]

/-! ### The one stop -/

/-- Settles O10, for the read and for the write. -/
theorem outsideWindowStops : Obligations.OutsideWindowStops := by
  intro s off size v rest ho h
  obtain ⟨hread, hwrite⟩ := perform_outside { s with pending := rest } ho size v
  rcases h with h | h
  · rw [step_of_pending h, hread]
  · rw [step_of_pending h, hwrite]

theorem step_next_of_not_leavesWindow {s : State} (h : ¬ leavesWindow s) : ∃ t, step s = .next t := by
  unfold leavesWindow at h
  split at h
  case h_1 off size rest hp => exact ⟨_, step_of_read hp (not_le.mp h)⟩
  case h_2 off size v rest hp =>
    rw [step_of_write hp (not_le.mp h)]
    exact busWrite_next off size v _
  case h_3 hread hwrite =>
    cases hp : s.pending with
    | nil => exact ⟨s, serveNext_nil hp⟩
    | cons e rest =>
      cases e with
      | read off size => exact (hread off size rest hp).elim
      | write off size v => exact (hwrite off size v rest hp).elim
      | hardwareReset => exact ⟨_, step_of_pending hp⟩

theorem step_fault_of_leavesWindow {s : State} (h : leavesWindow s) :
    ∃ off, step s = .fault (.outsideWindow off) := by
  unfold leavesWindow at h
  split at h
  case h_1 off size rest hp => exact ⟨off, outsideWindowStops s off size 0#32 rest h (.inl hp)⟩
  case h_2 off size v rest hp => exact ⟨off, outsideWindowStops s off size v rest h (.inr hp)⟩
  case h_3 => exact h.elim

/-- Settles O11: inside the window every event answers a next state, and outside it the step is a fault. -/
theorem onlyLeavingTheWindowStops : Obligations.OnlyLeavingTheWindowStops := by
  intro s
  constructor
  · rintro ⟨t, ht⟩ hleaves
    obtain ⟨off, hfault⟩ := step_fault_of_leavesWindow hleaves
    cases ht.symm.trans hfault
  · exact step_next_of_not_leavesWindow

end Sys2Proof.Machine
end

section
/-! PROOFS. The register map (R55, R57): `regAt` and `Reg.offset` are inverse to each other. -/

namespace Sys2Proof.Machine

/-! ### The regions of the map

One lemma per region: the tests of `regAt` are gone through here once, and later proofs name the region. -/

theorem regAt_of_mag {off : Nat} (h : off < 0x20) : regAt off = some (.mag ⟨off / 4, by omega⟩) := by
  unfold regAt
  rw [dif_pos h]

theorem regAt_of_scalar {off : Nat} (hlo : 0x20 ≤ off) (hhi : off < 0x8C) :
    regAt off = scalarRegs[(off - 0x20) / 4]? := by
  unfold regAt
  simp (disch := omega) only [↓dif_neg, ↓if_pos]

theorem regAt_of_ringv {off : Nat} (hlo : 0xC0 ≤ off) (hhi : off < 0x100) :
    regAt off = some (.ringv ⟨(off - 0xC0) / 4, by omega⟩) := by
  unfold regAt
  simp (disch := omega) only [↓dif_neg, ↓if_neg, ↓dif_pos]

theorem regAt_of_pos {off : Nat} (hlo : 0x100 ≤ off) (hhi : off < 0x1F0) :
    regAt off = some (if (off - 0x100) % 8 < 4 then .posA ⟨(off - 0x100) / 8, by omega⟩
      else .posB ⟨(off - 0x100) / 8, by omega⟩) := by
  unfold regAt
  simp (disch := omega) only [↓dif_neg, ↓if_neg, ↓dif_pos]

theorem regAt_of_detScore {off : Nat} (hlo : 0x200 ≤ off) (hhi : off < 0x270) :
    regAt off = some (.detScore ⟨(off - 0x200) / 4, by omega⟩) := by
  unfold regAt
  simp (disch := omega) only [↓dif_neg, ↓if_neg, ↓dif_pos]

theorem regAt_of_detNorm {off : Nat} (hlo : 0x280 ≤ off) (hhi : off < 0x2F0) :
    regAt off = some (.detNorm ⟨(off - 0x280) / 4, by omega⟩) := by
  unfold regAt
  simp (disch := omega) only [↓dif_neg, ↓if_neg, ↓dif_pos]

theorem regAt_of_sum {off : Nat} (hlo : 0x400 ≤ off) (hhi : off < 0xB80) :
    regAt off = some (if (off - 0x400) % 8 < 4
      then .sumLo ⟨(off - 0x400) / 64, by omega⟩ ⟨(off - 0x400) % 64 / 8, by omega⟩
      else .sumHi ⟨(off - 0x400) / 64, by omega⟩ ⟨(off - 0x400) % 64 / 8, by omega⟩) := by
  unfold regAt
  simp (disch := omega) only [↓dif_neg, ↓if_neg, ↓dif_pos]

theorem regAt_of_copyLog {off : Nat} (hlo : 0x1000 ≤ off) (hhi : off < 0x2000) :
    regAt off = some (.copyLog ⟨(off - 0x1000) / 64, by omega⟩ ⟨(off - 0x1000) % 64 / 4, by omega⟩) := by
  unfold regAt
  simp (disch := omega) only [↓dif_neg, ↓if_neg, ↓dif_pos]

/-- The offsets at which R55 maps nothing. -/
def UnmappedOffset (off : Nat) : Prop :=
  (0x8C ≤ off ∧ off < 0xC0) ∨ (0x1F0 ≤ off ∧ off < 0x200) ∨ (0x270 ≤ off ∧ off < 0x280) ∨
    (0x2F0 ≤ off ∧ off < 0x400) ∨ (0xB80 ≤ off ∧ off < 0x1000) ∨ 0x2000 ≤ off

theorem regAt_of_unmapped {off : Nat} (h : UnmappedOffset off) : regAt off = none := by
  unfold regAt
  rcases h with h | h | h | h | h | h <;> simp (disch := omega) only [↓dif_neg, ↓if_neg, ↓if_pos]

/-- Every offset lies in one region of the map or in a gap. -/
theorem region_of_offset (off : Nat) :
    UnmappedOffset off ∨ off < 0x20 ∨ (0x20 ≤ off ∧ off < 0x8C) ∨ (0xC0 ≤ off ∧ off < 0x100) ∨
      (0x100 ≤ off ∧ off < 0x1F0) ∨ (0x200 ≤ off ∧ off < 0x270) ∨ (0x280 ≤ off ∧ off < 0x2F0) ∨
      (0x400 ≤ off ∧ off < 0xB80) ∨ (0x1000 ≤ off ∧ off < 0x2000) := by
  unfold UnmappedOffset
  omega

/-! ### The two directions -/

theorem Reg.offset_aligned (r : Reg) : r.offset % 4 = 0 := by
  cases r <;> simp only [Reg.offset] <;> omega

theorem Reg.offset_lt (r : Reg) : r.offset < 0x2000 := by
  cases r <;> simp only [Reg.offset] <;> omega

/-- The registers from CMD to ID stand one after another from 0x20 on, in the order of R55. -/
theorem scalarRegs_offset : ∀ k : Fin 27, scalarRegs[k].offset = 0x20 + 4 * k.val := by decide

/-- Reading where a register stands finds that register: an array's indices are the quotients and remainders of the
offset. -/
theorem regAt_offset (r : Reg) : regAt r.offset = some r := by
  cases r with
  | mag k =>
    show regAt (4 * k.val) = _
    rw [regAt_of_mag (by omega)]
    congr 3; omega
  | ringv k =>
    show regAt (0xC0 + 4 * k.val) = _
    rw [regAt_of_ringv (by omega) (by omega)]
    congr 3; omega
  | posA p =>
    show regAt (0x100 + 8 * p.val) = _
    rw [regAt_of_pos (by omega) (by omega), if_pos (by omega)]
    congr 3; omega
  | posB p =>
    show regAt (0x104 + 8 * p.val) = _
    rw [regAt_of_pos (by omega) (by omega), if_neg (by omega)]
    congr 3; omega
  | detScore i =>
    show regAt (0x200 + 4 * i.val) = _
    rw [regAt_of_detScore (by omega) (by omega)]
    congr 3; omega
  | detNorm i =>
    show regAt (0x280 + 4 * i.val) = _
    rw [regAt_of_detNorm (by omega) (by omega)]
    congr 3; omega
  | sumLo p k =>
    show regAt (0x400 + 64 * p.val + 8 * k.val) = _
    rw [regAt_of_sum (by omega) (by omega), if_pos (by omega)]
    congr 3 <;> omega
  | sumHi p k =>
    show regAt (0x404 + 64 * p.val + 8 * k.val) = _
    rw [regAt_of_sum (by omega) (by omega), if_neg (by omega)]
    congr 3 <;> omega
  | copyLog k w =>
    show regAt (0x1000 + 64 * k.val + 4 * w.val) = _
    rw [regAt_of_copyLog (by omega) (by omega)]
    congr 3 <;> omega
  | _ => rfl

/-- A register found at an aligned offset stands there, so the map places nothing else. -/
theorem offset_of_regAt {off : Nat} {r : Reg} (h4 : off % 4 = 0) (h : regAt off = some r) : r.offset = off := by
  rcases region_of_offset off with hgap | hmag | ⟨hlo, hhi⟩ | ⟨hlo, hhi⟩ | ⟨hlo, hhi⟩ | ⟨hlo, hhi⟩ | ⟨hlo, hhi⟩ |
    ⟨hlo, hhi⟩ | ⟨hlo, hhi⟩
  · rw [regAt_of_unmapped hgap] at h
    cases h
  · cases (regAt_of_mag hmag).symm.trans h
    show 4 * (off / 4) = off
    omega
  · obtain ⟨hk, rfl⟩ := List.getElem?_eq_some_iff.mp ((regAt_of_scalar hlo hhi).symm.trans h)
    have hscalar := scalarRegs_offset ⟨(off - 0x20) / 4, hk⟩
    simp only [Fin.getElem_fin] at hscalar
    omega
  · cases (regAt_of_ringv hlo hhi).symm.trans h
    show 0xC0 + 4 * ((off - 0xC0) / 4) = off
    omega
  · by_cases hw : (off - 0x100) % 8 < 4
    · rw [regAt_of_pos hlo hhi, if_pos hw] at h
      cases h
      show 0x100 + 8 * ((off - 0x100) / 8) = off
      omega
    · rw [regAt_of_pos hlo hhi, if_neg hw] at h
      cases h
      show 0x104 + 8 * ((off - 0x100) / 8) = off
      omega
  · cases (regAt_of_detScore hlo hhi).symm.trans h
    show 0x200 + 4 * ((off - 0x200) / 4) = off
    omega
  · cases (regAt_of_detNorm hlo hhi).symm.trans h
    show 0x280 + 4 * ((off - 0x280) / 4) = off
    omega
  · by_cases hw : (off - 0x400) % 8 < 4
    · rw [regAt_of_sum hlo hhi, if_pos hw] at h
      cases h
      show 0x400 + 64 * ((off - 0x400) / 64) + 8 * ((off - 0x400) % 64 / 8) = off
      omega
    · rw [regAt_of_sum hlo hhi, if_neg hw] at h
      cases h
      show 0x404 + 64 * ((off - 0x400) / 64) + 8 * ((off - 0x400) % 64 / 8) = off
      omega
  · cases (regAt_of_copyLog hlo hhi).symm.trans h
    show 0x1000 + 64 * ((off - 0x1000) / 64) + 4 * ((off - 0x1000) % 64 / 4) = off
    omega

/-- Settles O12: the two directions of the map, the offsets themselves being the definition's. -/
theorem registerMapIsInjective : Obligations.RegisterMapIsInjective :=
  ⟨fun r => ⟨r.offset_aligned, r.offset_lt, regAt_offset r⟩, fun _ _ => offset_of_regAt, rfl, fun _ => rfl,
    fun _ => rfl, fun _ => ⟨rfl, rfl⟩, fun _ => ⟨rfl, rfl⟩, fun _ _ => ⟨rfl, rfl⟩, fun _ _ => rfl⟩

/-! ### Aligned reads (R53, R54, R174) -/

theorem windowRead_offset (s : State) (r : Reg) : windowRead s r.offset = r.read s := by
  simp [windowRead, regAt_offset]

theorem windowRead_unmapped (s : State) {off : Nat} (h4 : off % 4 = 0) (h : ∀ r : Reg, r.offset ≠ off) :
    windowRead s off = 0#32 := by
  have hnone : regAt off = none := Option.eq_none_iff_forall_ne_some.mpr fun r hr => h r (offset_of_regAt h4 hr)
  simp [windowRead, hnone]

/-- No register reads the accesses still pending. -/
theorem Reg.read_pending (r : Reg) (s : State) (l : List HostEvent) : r.read { s with pending := l } = r.read s := by
  cases r <;> rfl

/-- Settles O9, with the value `windowRead` gives. -/
theorem alignedReadEffects : Obligations.AlignedReadEffects := by
  intro s off rest h4 ho h
  refine ⟨windowRead { s with pending := rest } off, ?_, ?_, windowRead_unmapped _ h4⟩
  · rw [step_of_read h ho, busRead_supported _ h4]
  · rintro r rfl
    rw [windowRead_offset, Reg.read_pending]

end Sys2Proof.Machine
end

section
/-! PROOFS. The packed registers as numbers (R51, R55..R57): fields that do not overlap add up. -/

namespace Sys2Proof.Machine

/-! ### Fields of a word -/

theorem toNat_ofNat_of_lt {w n : Nat} (h : n < 2 ^ w) : (BitVec.ofNat w n).toNat = n := by
  rw [BitVec.toNat_ofNat, Nat.mod_eq_of_lt h]

/-- The word reads the number `n`, and no bit from bit `top` on is set: what is needed to add a field at `top` or
above. -/
structure ReadsBelow (a : Word) (top n : Nat) : Prop where
  toNat_eq : a.toNat = n
  lt : n < 2 ^ top

theorem ReadsBelow.or_place {a : Word} {top n w : Nat} (ha : ReadsBelow a top n) (lo : Nat) (v : BitVec w)
    (htop : top ≤ lo) (h : w + lo ≤ 32) : ReadsBelow (a ||| place lo v) (w + lo) (n + 2 ^ lo * v.toNat) := by
  have hn : n < 2 ^ lo := ha.lt.trans_le (Nat.pow_le_pow_right (by omega) htop)
  constructor
  · have hdvd : 2 ^ lo ∣ (place lo v).toNat := ⟨v.toNat, place_toNat v h⟩
    rw [or_toNat_of_dvd (ha.toNat_eq ▸ hn) hdvd, ha.toNat_eq, place_toNat v h]
  · calc n + 2 ^ lo * v.toNat < 2 ^ lo * (v.toNat + 1) := by rw [Nat.mul_succ]; omega
      _ ≤ 2 ^ lo * 2 ^ w := Nat.mul_le_mul_left _ v.isLt
      _ = 2 ^ (w + lo) := by rw [← pow_add, Nat.add_comm]

theorem ReadsBelow.or_placeBit {a : Word} {top n : Nat} (ha : ReadsBelow a top n) (lo : Nat) (b : Bool)
    (htop : top ≤ lo) (h : 1 + lo ≤ 32) : ReadsBelow (a ||| placeBit lo b) (1 + lo) (n + 2 ^ lo * b.toNat) := by
  simpa [placeBit] using ha.or_place lo (BitVec.ofBool b) htop h

theorem ReadsBelow.or_placeNat {a : Word} {top n m w : Nat} (ha : ReadsBelow a top n) (lo : Nat) (hm : m < 2 ^ w)
    (htop : top ≤ lo) (h : w + lo ≤ 32) : ReadsBelow (a ||| placeNat w lo m) (w + lo) (n + 2 ^ lo * m) := by
  simpa only [placeNat, toNat_ofNat_of_lt hm] using ha.or_place lo (BitVec.ofNat w m) htop h

theorem toNat_place_zero {w : Nat} (v : BitVec w) (h : w ≤ 32) : (place 0 v).toNat = v.toNat := by
  simpa using place_toNat (lo := 0) v h

theorem toNat_placeNat_zero {w n : Nat} (h : n < 2 ^ w) (hw : w ≤ 32) : (placeNat w 0 n).toNat = n :=
  (toNat_place_zero _ hw).trans (toNat_ofNat_of_lt h)

theorem ReadsBelow.place_zero {w : Nat} (v : BitVec w) (h : w ≤ 32) : ReadsBelow (place 0 v) w v.toNat :=
  ⟨toNat_place_zero v h, v.isLt⟩

theorem ReadsBelow.placeNat_zero {w n : Nat} (h : n < 2 ^ w) (hw : w ≤ 32) : ReadsBelow (placeNat w 0 n) w n :=
  ⟨toNat_placeNat_zero h hw, h⟩

theorem ReadsBelow.placeBit_zero (b : Bool) : ReadsBelow (placeBit 0 b) 1 b.toNat := by
  simpa [placeBit] using ReadsBelow.place_zero (BitVec.ofBool b) (by decide)

theorem toNat_lowWord (v : BitVec 64) : (lowWord v).toNat = v.toNat % 2 ^ 32 := by
  simp [lowWord]

theorem toNat_highWord (v : BitVec 64) : (highWord v).toNat = v.toNat / 2 ^ 32 := by
  have hv := v.isLt
  simp only [highWord, BitVec.extractLsb'_toNat, Nat.shiftRight_eq_div_pow]
  omega

/-! ### The encodings (R23, R37..R39) -/

theorem CycleState.toNat_bits (c : CycleState) :
    c.bits.toNat = match c with | .searching => 0 | .detecting => 1 | .locked => 2 | .confirmed => 3 := by
  cases c <;> rfl

theorem DetStatus.toNat_bits (d : DetStatus) :
    d.bits.toNat = match d with | .none => 0 | .ok => 1 | .insufficient => 2 := by
  cases d <;> rfl

theorem CommandResult.toNat_bits (r : CommandResult) :
    r.bits.toNat = match r with | .ok => 0 | .illegal => 1 | .rejectedOvf => 2 := by
  cases r <;> rfl

theorem ResetKind.toNat_bits (k : ResetKind) : k.bits.toNat = match k with | .manual => 0 | .collapse => 1 := by
  cases k <;> rfl

/-! ### Counts and parameters fit their fields (R33, R212) -/

theorem minCount_lt (f : PosFile) (L : Nat) : minCount f L < 2 ^ 32 := by
  rcases Nat.eq_zero_or_pos L with rfl | hL
  · simp [minCount, activePositions]
  · obtain ⟨-, i, -, hi⟩ := minCount_spec (f := f) hL
    rw [hi]
    exact f[i].count.isLt

theorem State.ringCap_le (s : State) : s.params.ringCap ≤ 16 := by
  obtain ⟨-, -, -, -, -, -, hring, -⟩ := s.inst.property
  exact hring

theorem State.collapseWindow_le (s : State) : s.params.collapseWindow ≤ 16 := by
  obtain ⟨-, -, -, -, -, hwindow, -⟩ := s.inst.property
  exact hwindow.trans s.ringCap_le

theorem State.copyLogCap_le (s : State) : s.params.copyLogCap ≤ 64 := by
  obtain ⟨-, -, -, -, -, -, -, -, hlog, -⟩ := s.inst.property
  exact hlog

/-! ### The registers of several fields -/

section Registers

variable (s : State)

theorem toNat_read_status : (Reg.status.read s).toNat =
    (match s.session.cycle with | .searching => 0 | .detecting => 1 | .locked => 2 | .confirmed => 3) +
      2 ^ 2 * s.errIll.toNat + 2 ^ 3 * s.errOvf.toNat + 2 ^ 4 * s.errBus.toNat +
      2 ^ 5 * (match s.lastResult with | .ok => 0 | .illegal => 1 | .rejectedOvf => 2) := by
  rw [← CycleState.toNat_bits, ← CommandResult.toNat_bits]
  have hstate := ReadsBelow.place_zero s.session.cycle.bits (by decide)
  have herrors := ((hstate.or_placeBit 2 s.errIll (by decide) (by decide)).or_placeBit 3 s.errOvf (by decide)
    (by decide)).or_placeBit 4 s.errBus (by decide) (by decide)
  exact (herrors.or_place 5 s.lastResult.bits (by decide) (by decide)).toNat_eq

theorem toNat_read_session : (Reg.session.read s).toNat =
    s.session.len.toNat + 2 ^ 8 * s.session.confCnt.toNat :=
  have hlen := ReadsBelow.place_zero s.session.len (by decide)
  (hlen.or_place 8 s.session.confCnt (by decide) (by decide)).toNat_eq

theorem toNat_read_decResult : (Reg.decResult.read s).toNat =
    s.dec.char.toNat + 2 ^ 16 * s.dec.code.toNat + 2 ^ 24 * s.dec.gated.toNat :=
  have hchar := ReadsBelow.place_zero s.dec.char (by decide)
  have hcode := hchar.or_place 16 s.dec.code (by decide) (by decide)
  (hcode.or_placeBit 24 s.dec.gated (by decide) (by decide)).toNat_eq

theorem toNat_read_repeatCount : (Reg.repeatCount.read s).toNat = minCount s.session.pos s.session.len.toNat :=
  toNat_placeNat_zero (minCount_lt _ _) (by decide)

theorem toNat_read_ringInfo (h : s.session.ring.length ≤ s.params.ringCap) :
    (Reg.ringInfo.read s).toNat = s.session.ring.length + 2 ^ 8 * s.params.ringCap := by
  have hcap := s.ringCap_le
  have hcount := ReadsBelow.placeNat_zero (w := 5) (n := s.session.ring.length) (by omega) (by decide)
  exact (hcount.or_placeNat (w := 5) 8 (by omega) (by decide) (by decide)).toNat_eq

theorem toNat_read_lastReset : (Reg.lastReset.read s).toNat =
    s.lastReset.valid.toNat + 2 * (match s.lastReset.kind with | .manual => 0 | .collapse => 1) +
      2 ^ 8 * s.lastReset.code.toNat := by
  rw [← ResetKind.toNat_bits]
  have hvalid := ReadsBelow.placeBit_zero s.lastReset.valid
  have hkind := hvalid.or_place 1 s.lastReset.kind.bits (by decide) (by decide)
  exact (hkind.or_place 8 s.lastReset.code (by decide) (by decide)).toNat_eq

theorem toNat_read_copyInfo (h : s.copies.log.length ≤ s.params.copyLogCap) :
    (Reg.copyInfo.read s).toNat = s.copies.log.length + 2 ^ 8 * s.params.copyLogCap := by
  have hcap := s.copyLogCap_le
  have hcount := ReadsBelow.placeNat_zero (w := 7) (n := s.copies.log.length) (by omega) (by decide)
  exact (hcount.or_placeNat (w := 7) 8 (by omega) (by decide) (by decide)).toNat_eq

theorem toNat_read_detInfo : (Reg.detInfo.read s).toNat =
    (match s.det.status with | .none => 0 | .ok => 1 | .insufficient => 2) +
      2 ^ 8 * s.det.len.toNat + 2 ^ 16 * s.det.raw.toNat + 2 ^ 24 * s.det.maxl.toNat := by
  rw [← DetStatus.toNat_bits]
  have hstatus := ReadsBelow.place_zero s.det.status.bits (by decide)
  have hlen := hstatus.or_place 8 s.det.len (by decide) (by decide)
  have hraw := hlen.or_place 16 s.det.raw (by decide) (by decide)
  exact (hraw.or_place 24 s.det.maxl (by decide) (by decide)).toNat_eq

theorem toNat_read_pMisc : (Reg.pMisc.read s).toNat =
    s.params.collapseWindow + 2 ^ 8 * s.params.ringCap + 2 ^ 16 * s.params.copyLogCap := by
  have hwindow := s.collapseWindow_le
  have hring := s.ringCap_le
  have hlog := s.copyLogCap_le
  have hfirst := ReadsBelow.placeNat_zero (w := 8) (n := s.params.collapseWindow) (by omega) (by decide)
  have hsecond := hfirst.or_placeNat (w := 8) (m := s.params.ringCap) 8 (by omega) (by decide) (by decide)
  exact (hsecond.or_placeNat (w := 8) 16 (by omega) (by decide) (by decide)).toNat_eq

theorem toNat_read_pHistCap {cap : Nat} (h : s.params.histCap = some cap) : (Reg.pHistCap.read s).toNat = cap := by
  obtain ⟨-, -, -, -, -, -, -, -, -, hvalid⟩ := s.inst.property
  obtain ⟨-, hcap⟩ := hvalid cap h
  show (histCapWord s.params).toNat = cap
  rw [histCapWord, h]
  exact toNat_ofNat_of_lt (by omega)

theorem toNat_read_ringv (k : Fin 16) :
    ((Reg.ringv k).read s).toNat = (s.session.ring.map BitVec.toNat).getD k.val 0 := by
  show (place 0 (s.session.ring.getD k 0#17)).toNat = _
  rw [toNat_place_zero _ (by decide)]
  exact (List.getD_map s.session.ring 0#17 BitVec.toNat).symm

theorem toNat_read_posA (p : Fin 30) : ((Reg.posA p).read s).toNat =
    s.session.pos[p].char.toNat + 2 ^ 8 * s.session.pos[p].flip.toNat + 2 ^ 15 * s.session.pos[p].conf.toNat :=
  have hchar := ReadsBelow.place_zero s.session.pos[p].char (by decide)
  have hflip := hchar.or_placeBit 8 s.session.pos[p].flip (by decide) (by decide)
  (hflip.or_place 15 s.session.pos[p].conf (by decide) (by decide)).toNat_eq

/-! ### The copy records (R57) -/

theorem toNat_textWord (r : CopyRecord) (i : Nat) : (textWord r i).toNat =
    ∑ b ∈ Finset.range 4, 2 ^ (8 * b) * (r.text.toList.getD (4 * i + b) 0#8).toNat := by
  have hbyte0 := ReadsBelow.place_zero (r.text.toList.getD (4 * i) 0#8) (by decide)
  have hbyte1 := hbyte0.or_place 8 (r.text.toList.getD (4 * i + 1) 0#8) (by decide) (by decide)
  have hbyte2 := hbyte1.or_place 16 (r.text.toList.getD (4 * i + 2) 0#8) (by decide) (by decide)
  have hbyte3 := hbyte2.or_place 24 (r.text.toList.getD (4 * i + 3) 0#8) (by decide) (by decide)
  rw [textWord, hbyte3.toNat_eq]
  simp [Finset.sum_range_succ]

theorem recordWord_text (r : CopyRecord) (i : Fin 8) : recordWord r ⟨5 + i.val, by omega⟩ = textWord r i.val := by
  fin_cases i <;> rfl

theorem read_copyLog_of_record {k : Fin 64} {r : CopyRecord} (hr : s.copies.log[k.val]? = some r)
    (hk : k.val < s.params.copyLogCap) (w : Fin 16) : (Reg.copyLog k w).read s = recordWord r w := by
  simp [Reg.read, copyLogWord, hr, hk]

theorem read_copyLog_of_unused {k : Fin 64} (h : s.copies.log.length ≤ k.val ∨ s.params.copyLogCap ≤ k.val)
    (w : Fin 16) : (Reg.copyLog k w).read s = 0#32 := by
  rcases h with h | h
  · simp [Reg.read, copyLogWord, List.getElem?_eq_none h]
  · simp [Reg.read, copyLogWord, h]

end Registers

/-- Settles O13: the registers of one field read it as it is, the others by their own lemmas. -/
theorem packedFieldsReadBack : Obligations.PackedFieldsReadBack := by
  intro s rd
  obtain ⟨-, hconf, hcopy, hcollapse, -⟩ := s.inst.property
  refine ⟨toNat_read_status s, toNat_read_session s, toNat_place_zero _ (by decide), toNat_read_decResult s,
    toNat_place_zero _ (by decide), toNat_lowWord _, toNat_highWord _, toNat_lowWord _, toNat_highWord _,
    fun h => toNat_placeNat_zero h (by decide), toNat_read_repeatCount s, toNat_place_zero _ (by decide),
    toNat_read_ringInfo s, rfl, toNat_read_lastReset s, rfl, toNat_read_copyInfo s, toNat_read_detInfo s, rfl,
    toNat_place_zero _ (by decide), toNat_placeNat_zero (hconf.trans_lt (by decide)) (by decide),
    toNat_placeNat_zero (hcopy.trans_lt (by decide)) (by decide),
    toNat_placeNat_zero (hcollapse.trans_lt (by decide)) (by decide), toNat_read_pMisc s,
    fun _ => toNat_read_pHistCap s, rfl, rfl, fun _ => rfl, toNat_read_ringv s, ?positions, ?detector, ?unused,
    ?records⟩
  case positions => exact fun p => ⟨toNat_read_posA s p, rfl, fun k => ⟨toNat_lowWord _, toNat_highWord _⟩⟩
  case detector => exact fun i => ⟨toNat_place_zero _ (by decide), rfl⟩
  case unused => exact fun k w h => congrArg BitVec.toNat (read_copyLog_of_unused s h w)
  case records =>
    intro k r hr hk
    simp only [rd, read_copyLog_of_record s hr hk]
    exact ⟨toNat_lowWord _, toNat_highWord _,
      ((ReadsBelow.place_zero r.len (by decide)).or_place 8 r.phase (by decide) (by decide)).toNat_eq,
      toNat_place_zero _ (by decide), rfl,
      fun i => by rw [recordWord_text, toNat_textWord], rfl, rfl, rfl⟩

end Sys2Proof.Machine
end

section
/-! PROOFS. The command words (R71..R74): a row of the table matches the word of the command it builds and no other
word, so `decode` and `encode` are inverse to each other. -/

namespace Sys2Proof.Machine

/-! ### Fields of a command word (R71) -/

/-- The three fields that a command sets add up to its word. -/
theorem toNat_commandWord (op : BitVec 4) (g : Bool) (imm8 : Byte) :
    (commandWord op g imm8).toNat = op.toNat + 2 ^ 4 * g.toNat + 2 ^ 8 * imm8.toNat := by
  have hop : ReadsBelow (op.setWidth 32) 4 op.toNat := by simpa [place] using ReadsBelow.place_zero op (by decide)
  exact ((hop.or_placeBit 4 g (by decide) (by decide)).or_place 8 imm8 (by decide) (by decide)).toNat_eq

theorem toNat_cmdImm8 (w : Word) : (cmdImm8 w).toNat = w.toNat / 2 ^ 8 % 2 ^ 8 := by
  rw [BitVec.extractLsb'_toNat, Nat.shiftRight_eq_div_pow]

theorem toNat_encode (i : Instr) : (encode i).toNat = match i with
    | .nop => 0x0 | .decode => 0x1 | .decodeG => 0x11 | .push => 0x2
    | .reset code => 0x3 + 2 ^ 8 * code.toNat | .setPhase phase => 0x4 + 2 ^ 8 * phase.toNat | .detect => 0x5 := by
  cases i with
  | reset code => exact toNat_commandWord 0x3#4 false code
  | setPhase phase => exact toNat_commandWord 0x4#4 false phase
  | nop => rfl
  | decode => rfl
  | decodeG => rfl
  | push => rfl
  | detect => rfl

/-! ### The rows of the table (R73) -/

theorem getLsbD_operandMask : ∀ i < 32, (0xFFFF00FF#32).getLsbD i = (decide (i < 8) || decide (16 ≤ i)) := by decide

/-- The mask of the rows with an operand keeps the low byte and `RSV1`. -/
theorem and_operandMask (w : Word) :
    w &&& 0xFFFF00FF#32 = place 0 (w.extractLsb' 0 8) ||| place 16 (cmdRsv1 w) := by
  refine BitVec.eq_of_getLsbD_eq fun i hi => ?_
  rw [BitVec.getLsbD_and, getLsbD_operandMask i hi]
  rcases Nat.lt_or_ge i 8 with hlow | hlow
  · have hbelow : i < 16 := by omega
    simp [place, hi, hlow, hbelow]
  · rcases Nat.lt_or_ge i 16 with hmid | hhigh
    · simp [place, hi, hlow, hmid]
    · have hfield : i - 16 < 16 := by omega
      simp [place, hi, hlow, hhigh, hfield]

theorem toNat_and_operandMask (w : Word) :
    (w &&& 0xFFFF00FF#32).toNat = w.toNat % 2 ^ 8 + 2 ^ 16 * (w.toNat / 2 ^ 16) := by
  have hlow := ReadsBelow.place_zero (w.extractLsb' 0 8) (by decide)
  have hw := w.isLt
  rw [and_operandMask, (hlow.or_place 16 (cmdRsv1 w) (by decide) (by decide)).toNat_eq]
  simp only [BitVec.extractLsb'_toNat, Nat.shiftRight_eq_div_pow]
  omega

/-- A row without operand matches its pattern only. -/
theorem matches_exact_iff {p w : Word} {b : Word → Instr} :
    (OpcodeRow.mk p 0xFFFFFFFF#32 b).matches w = true ↔ w = p := by
  have hmask : w &&& 0xFFFFFFFF#32 = w := BitVec.and_allOnes
  rw [OpcodeRow.matches, beq_iff_eq, hmask]

/-- A row with an operand matches the words of its pattern's opcode, at every `IMM8`. -/
theorem matches_operand_iff {op : BitVec 4} {w : Word} {b : Word → Instr} :
    (OpcodeRow.mk (op.setWidth 32) 0xFFFF00FF#32 b).matches w = true ↔ w = commandWord op false (cmdImm8 w) := by
  have hop := op.isLt
  rw [OpcodeRow.matches, beq_iff_eq, ← BitVec.toNat_inj, ← BitVec.toNat_inj, toNat_and_operandMask,
    toNat_commandWord, toNat_cmdImm8, BitVec.toNat_setWidth, Bool.toNat_false]
  omega

/-- A row matches a word exactly when the word is that of the command which the row builds from it. -/
theorem matches_iff_eq_encode {r : OpcodeRow} (hr : r ∈ opcodeRows) (w : Word) :
    r.matches w = true ↔ w = encode (r.build w) := by
  simp only [opcodeRows, List.mem_cons, List.not_mem_nil, or_false] at hr
  rcases hr with rfl | rfl | rfl | rfl | rfl | rfl | rfl
  · exact matches_exact_iff
  · exact matches_exact_iff
  · exact matches_exact_iff
  · exact matches_exact_iff
  · exact matches_operand_iff (op := 0x3#4)
  · exact matches_operand_iff (op := 0x4#4)
  · exact matches_exact_iff

/-- Every mask keeps bits 4:0, and they alone are the row's pattern. -/
theorem low_bits_of_matches {r : OpcodeRow} (hr : r ∈ opcodeRows) {w : Word} (h : r.matches w = true) :
    w &&& 0x1F#32 = r.pattern := by
  have hrow : ∀ r ∈ opcodeRows, r.mask &&& 0x1F#32 = 0x1F#32 ∧ r.pattern &&& 0x1F#32 = r.pattern := by decide
  obtain ⟨hmask, hpattern⟩ := hrow r hr
  have hw : w &&& r.mask = r.pattern := beq_iff_eq.mp h
  calc w &&& 0x1F#32 = w &&& r.mask &&& 0x1F#32 := by rw [BitVec.and_assoc, hmask]
    _ = r.pattern := by rw [hw, hpattern]

theorem patterns_nodup : (opcodeRows.map OpcodeRow.pattern).Nodup := by decide

/-- Two rows that match one word are one row: the word's bits 4:0 are the pattern of both. -/
theorem row_unique {r r' : OpcodeRow} (hr : r ∈ opcodeRows) (hr' : r' ∈ opcodeRows) {w : Word}
    (h : r.matches w = true) (h' : r'.matches w = true) : r = r' :=
  List.inj_on_of_nodup_map patterns_nodup hr hr' ((low_bits_of_matches hr h).symm.trans (low_bits_of_matches hr' h'))

/-- Settles O3: two rows that match one word are one row, and no row stands in the table twice. -/
theorem opcodeRowsDisjoint : Obligations.OpcodeRowsDisjoint := by
  intro w a b ha hb
  have hrow : opcodeRows[a] = opcodeRows[b] := row_unique (List.getElem_mem _) (List.getElem_mem _) ha hb
  exact Fin.ext (patterns_nodup.of_map.getElem_inj_iff.mp hrow)

/-! ### The decoder (R73) -/

/-- A word decodes to what a matching row builds, and is refused where no row matches. -/
theorem decode_cases (w : Word) :
    (∃ r ∈ opcodeRows, r.matches w = true ∧ decode w = .ok (r.build w)) ∨
    ((∀ r ∈ opcodeRows, r.matches w = false) ∧ decode w = .error (illegalReason w)) := by
  unfold decode
  cases hfind : opcodeRows.find? fun r => r.matches w with
  | some r => exact .inl ⟨r, List.mem_of_find?_eq_some hfind, (List.find?_some hfind :), rfl⟩
  | none => exact .inr ⟨fun r hr => Bool.eq_false_of_not_eq_true (List.find?_eq_none.mp hfind r hr), rfl⟩

theorem eq_encode_of_decode {w : Word} {i : Instr} (h : decode w = .ok i) : w = encode i := by
  rcases decode_cases w with ⟨r, hr, hmatch, hok⟩ | ⟨-, herror⟩
  · cases hok.symm.trans h
    exact (matches_iff_eq_encode hr w).mp hmatch
  · cases herror.symm.trans h

theorem encodeMatchesRow (i : Instr) : Laws.EncodeMatchesRow.Statement i :=
  match i with
  | .nop => Laws.EncodeMatchesRow.nop
  | .decode => Laws.EncodeMatchesRow.decode
  | .decodeG => Laws.EncodeMatchesRow.decodeG
  | .push => Laws.EncodeMatchesRow.push
  | .reset code => Laws.EncodeMatchesRow.reset code
  | .setPhase phase => Laws.EncodeMatchesRow.setPhase phase
  | .detect => Laws.EncodeMatchesRow.detect

theorem decode_encode (i : Instr) : decode (encode i) = .ok i := by
  obtain ⟨-, -, r, hr, hmatch, hbuild⟩ := encodeMatchesRow i
  rcases decode_cases (encode i) with ⟨r', hr', hmatch', hok⟩ | ⟨hnone, -⟩
  · rw [hok, ← row_unique hr hr' hmatch hmatch', hbuild]
  · cases (hnone r hr).symm.trans hmatch

/-- Settles O2: the word of a command matches that command's row and no other, and a row matches no word but that of
the command it builds. -/
theorem decodeIffEncode : Obligations.DecodeIffEncode := by
  intro w i
  constructor
  · exact eq_encode_of_decode
  · rintro rfl
    exact decode_encode i

/-- The refused words are those that no row matches. -/
theorem no_match_iff_error (w : Word) :
    (∀ r ∈ opcodeRows, r.matches w = false) ↔ decode w = .error (illegalReason w) := by
  rcases decode_cases w with ⟨r, hr, hmatch, hok⟩ | ⟨hnone, herror⟩
  · simp only [hok, reduceCtorEq, iff_false]
    exact fun h => Bool.false_ne_true ((h r hr).symm.trans hmatch)
  · exact iff_of_true hnone herror

/-- Settles O1: the commands are decoded from their words, and the neighbours are no word that a row matches. -/
theorem tableWordsDecode : Obligations.TableWordsDecode :=
  ⟨decode_encode .nop, decode_encode .decode, decode_encode .decodeG, decode_encode .push,
    decode_encode (.reset 7#8), decode_encode (.setPhase 255#8), decode_encode .detect,
    (no_match_iff_error _).mp (by decide), (no_match_iff_error _).mp (by decide),
    (no_match_iff_error _).mp (by decide), (no_match_iff_error _).mp (by decide),
    (no_match_iff_error _).mp (by decide)⟩

/-! ### Illegal words (R74, R175) -/

/-- The values of the command words, an operand being free. -/
theorem exists_eq_encode_iff (w : Word) : (∃ i, w = encode i) ↔
    w.toNat = 0x0 ∨ w.toNat = 0x1 ∨ w.toNat = 0x11 ∨ w.toNat = 0x2 ∨ w.toNat = 0x5 ∨
      (w.toNat % 2 ^ 8 = 0x3 ∧ w.toNat / 2 ^ 16 = 0) ∨ (w.toNat % 2 ^ 8 = 0x4 ∧ w.toNat / 2 ^ 16 = 0) := by
  constructor
  · rintro ⟨i, rfl⟩
    rw [toNat_encode]
    cases i with
    | reset code => have := code.isLt; simp only; omega
    | setPhase phase => have := phase.isLt; simp only; omega
    | nop => simp
    | decode => simp
    | decodeG => simp
    | push => simp
    | detect => simp
  · have hword : ∀ i, w.toNat = (encode i).toNat → ∃ i, w = encode i :=
      fun i h => ⟨i, BitVec.eq_of_toNat_eq h⟩
    have himm := toNat_cmdImm8 w
    rintro (h | h | h | h | h | ⟨hop, hrsv⟩ | ⟨hop, hrsv⟩)
    · exact hword .nop h
    · exact hword .decode h
    · exact hword .decodeG h
    · exact hword .push h
    · exact hword .detect h
    · exact hword (.reset (cmdImm8 w)) (by rw [toNat_encode]; simp only; omega)
    · exact hword (.setPhase (cmdImm8 w)) (by rw [toNat_encode]; simp only; omega)

/-- The words that no row matches are those of no command. -/
theorem not_exists_eq_encode_iff (w : Word) :
    ¬ (∃ i, w = encode i) ↔ ∀ r ∈ opcodeRows, r.matches w = false := by
  rw [no_match_iff_error]
  rcases decode_cases w with ⟨r, -, -, hok⟩ | ⟨-, herror⟩
  · simpa [hok] using ⟨_, eq_encode_of_decode hok⟩
  · refine iff_of_true ?_ herror
    rintro ⟨i, rfl⟩
    cases (decode_encode i).symm.trans herror

theorem executeWord_of_decode_error {w : Word} {e : IllegalWord} (h : decode w = .error e) (s : State) :
    executeWord w s = .next (illegalCommand s) := by
  simp only [executeWord, h]

theorem busWrite_cmd (w : Word) (s : State) : busWrite 0x20 4 w s = executeWord w s := by
  simp [busWrite]

/-- Settles O4: R74's conditions leave just the values of the command words, and the decoder refuses the others. -/
theorem illegalWordRaises : Obligations.IllegalWordRaises := by
  intro w op illegal
  have hillegal : illegal ↔ ¬ ∃ i, w = encode i := by
    rw [exists_eq_encode_iff]
    simp only [illegal, op]
    omega
  have hrows := hillegal.trans (not_exists_eq_encode_iff w)
  have hrefused (h : illegal) : decode w = .error (illegalReason w) := (no_match_iff_error w).mp (hrows.mp h)
  refine ⟨hrows, fun h s => ?execute, fun h s rest hp => ?step, fun h => ?legal⟩
  case execute => exact executeWord_of_decode_error (hrefused h) s
  case step =>
    rw [step_of_write hp (by decide), busWrite_cmd, executeWord_of_decode_error (hrefused h)]
    rfl
  case legal =>
    obtain ⟨i, hi⟩ := not_not.mp (mt hillegal.mpr h)
    exact ⟨i, (decodeIffEncode w i).mpr hi⟩

end Sys2Proof.Machine
end

section
/-! PROOFS. The confidence of R90: it depends on the ranks alone, and on their ratios alone. -/

namespace Sys2Proof.Machine

theorem descending_perm (v : List Nat) : (descending v).Perm v := List.perm_insertionSort _ v

theorem descending_pairwise (v : List Nat) : (descending v).Pairwise (· ≥ ·) := List.pairwise_insertionSort _ v

/-- A list has one descending arrangement, so any of them serves as R90's `t`. -/
theorem descending_eq {v t : List Nat} (hperm : t.Perm v) (hsorted : t.Pairwise (· ≥ ·)) : descending v = t :=
  ((descending_perm v).trans hperm.symm).eq_of_pairwise' (descending_pairwise v) hsorted

theorem confidence_of_ranks {v t : List Nat} (hperm : t.Perm v) (hsorted : t.Pairwise (· ≥ ·)) :
    confidence v = if t.getD 0 0 - t.getD 7 0 = 0 then 0
      else (t.getD 3 0 - t.getD 4 0) * 65536 / (t.getD 0 0 - t.getD 7 0) := by
  simp only [confidence, descending_eq hperm hsorted]

/-- Settles O15: the model's arrangement is `t`, and the bound is that of every confidence. -/
theorem confidenceFromRanks : Obligations.ConfidenceFromRanks :=
  fun _ _ hlen hperm hsorted => ⟨confidence_of_ranks hperm hsorted, confidence_le hlen⟩

theorem descending_scale {a : Nat} (ha : 0 < a) (v : List Nat) :
    descending (v.map (a * ·)) = (descending v).map (a * ·) :=
  (List.map_insertionSort (· ≥ ·) (· ≥ ·) (a * ·) v fun _ _ _ _ => (Nat.mul_le_mul_left_iff ha).symm).symm

theorem getD_scale (a : Nat) (v : List Nat) (i : Nat) : (v.map (a * ·)).getD i 0 = a * v.getD i 0 :=
  List.getD_map v 0 (a * ·)

/-- A common factor of the values leaves R90's quotient. -/
theorem confidence_scale {a : Nat} (ha : 0 < a) (v : List Nat) : confidence (v.map (a * ·)) = confidence v := by
  simp only [confidence, descending_scale ha, getD_scale, ← Nat.mul_sub]
  generalize (descending v).getD 0 0 - (descending v).getD 7 0 = range
  generalize (descending v).getD 3 0 - (descending v).getD 4 0 = gap
  have hzero : a * range = 0 ↔ range = 0 := by simp [ha.ne']
  simp only [hzero, Nat.mul_assoc, Nat.mul_div_mul_left _ _ ha]

theorem confidence_replicate (c : Nat) : confidence (List.replicate 8 c) = 0 := by
  rw [confidence_of_ranks (List.Perm.refl _) (List.pairwise_replicate.mpr (.inr (le_refl c)))]
  simp

end Sys2Proof.Machine
end

section
/-! PROOFS. The codeword of R91: the slots its rounds select. -/

namespace Sys2Proof.Machine

/-! ### One round -/

/-- Slot `i` comes before slot `j` in a round on `w`: it is greater, or equal and at a lower index (R91). -/
def Outranks (w : List Nat) (i j : Nat) : Prop := w.getD j 0 < w.getD i 0 ∨ (w.getD j 0 = w.getD i 0 ∧ i < j)

theorem getD_set_zero (w : List Nat) (k i : Nat) : (w.set k 0).getD i 0 = if i = k then 0 else w.getD i 0 := by
  by_cases h : i = k
  · subst h
    by_cases hi : i < w.length <;> simp [hi]
  · simp [List.getD_eq_getElem?_getD, List.getElem?_set_ne (Ne.symm h), h]

theorem getD_set_zero_pos_iff {w : List Nat} {k i : Nat} :
    0 < (w.set k 0).getD i 0 ↔ i ≠ k ∧ 0 < w.getD i 0 := by
  rw [getD_set_zero]
  split <;> simp_all

/-- A list reads 0 beyond its end. -/
theorem lt_length_of_getD_pos {w : List Nat} {i : Nat} (h : 0 < w.getD i 0) : i < w.length := by
  by_contra hge
  exact h.ne' (List.getD_eq_default _ _ (Nat.le_of_not_lt hge))

theorem getD_le_maxNat (w : List Nat) (i : Nat) : w.getD i 0 ≤ maxNat w :=
  getD_of_forall (fun _ => le_maxNat) (Nat.zero_le _) i

theorem getD_argmaxIndex (w : List Nat) : w.getD (argmaxIndex w) 0 = maxNat w := by
  by_cases h : w = []
  · subst h; rfl
  · rw [List.getD_eq_getElem?_getD, argmaxIndex, List.getElem?_idxOf (maxNat_mem h)]
    rfl

/-- No slot below the selected one holds the maximum. -/
theorem getD_ne_maxNat_of_lt_argmaxIndex {w : List Nat} {i : Nat} (h : i < argmaxIndex w) :
    w.getD i 0 ≠ maxNat w := by
  have hi : i < w.length := h.trans_le List.idxOf_le_length
  have hne := List.not_of_lt_findIdx (show i < w.findIdx (· == maxNat w) from h)
  rw [List.getD_eq_getElem _ _ hi]
  exact beq_eq_false_iff_ne.mp hne

theorem argmaxIndex_outranks {w : List Nat} {j : Nat} (hj : j ≠ argmaxIndex w) : Outranks w (argmaxIndex w) j := by
  have hle := getD_le_maxNat w j
  rw [← getD_argmaxIndex w] at hle
  rcases Nat.lt_or_gt_of_ne hj with hlt | hgt
  · have hne := getD_ne_maxNat_of_lt_argmaxIndex hlt
    rw [← getD_argmaxIndex w] at hne
    exact .inl (lt_of_le_of_ne hle hne)
  · rcases Nat.lt_or_eq_of_le hle with hlt | heq
    · exact .inl hlt
    · exact .inr ⟨heq, hgt⟩

/-- A round that finds no positive entry selects slot 0. -/
theorem argmaxIndex_eq_zero_or_pos (w : List Nat) : argmaxIndex w = 0 ∨ 0 < w.getD (argmaxIndex w) 0 := by
  by_cases h : argmaxIndex w = 0
  · exact .inl h
  · rcases argmaxIndex_outranks (Ne.symm h) with hlt | ⟨-, hlt⟩
    · exact .inr (by omega)
    · omega

/-! ### The positive entries -/

def positiveCount (w : List Nat) : Nat := w.countP fun x => decide (0 < x)

theorem positiveCount_pos_of_getD {w : List Nat} {i : Nat} (h : 0 < w.getD i 0) : 0 < positiveCount w := by
  have hi := lt_length_of_getD_pos h
  rw [List.getD_eq_getElem _ _ hi] at h
  exact List.countP_pos_iff.mpr ⟨w[i], List.getElem_mem hi, decide_eq_true h⟩

theorem argmaxIndex_pos {w : List Nat} (h : 0 < positiveCount w) : 0 < w.getD (argmaxIndex w) 0 := by
  obtain ⟨x, hx, hpos⟩ := List.countP_pos_iff.mp h
  have hle := le_maxNat hx
  rw [getD_argmaxIndex]
  exact (of_decide_eq_true hpos).trans_le hle

/-- A round on a vector with a positive entry uses up one of them. -/
theorem positiveCount_set_argmaxIndex {w : List Nat} (h : 0 < positiveCount w) :
    positiveCount (w.set (argmaxIndex w) 0) = positiveCount w - 1 := by
  have hpos := argmaxIndex_pos h
  have hlt := lt_length_of_getD_pos hpos
  rw [List.getD_eq_getElem _ _ hlt] at hpos
  simp [positiveCount, List.countP_set hlt, hpos]

theorem le_positiveCount_rest {n : Nat} {w : List Nat} (h : n + 1 ≤ positiveCount w) :
    n ≤ positiveCount (w.set (argmaxIndex w) 0) := by
  rw [positiveCount_set_argmaxIndex (by omega)]
  omega

/-! ### The rounds -/

/-- The slots that `n` rounds from `w` select, in their order. -/
def pickedSlots : Nat → List Nat → List Nat
  | 0, _ => []
  | n + 1, w => argmaxIndex w :: pickedSlots n (w.set (argmaxIndex w) 0)

@[simp] theorem pickedSlots_length (n : Nat) (w : List Nat) : (pickedSlots n w).length = n := by
  induction n generalizing w with
  | zero => rfl
  | succ n ih => simp [pickedSlots, ih]

theorem getLsbD_or_slot (cw : Byte) (k : Nat) {i : Nat} (hi : i < 8) :
    (cw ||| 1#8 <<< k).getLsbD i = true ↔ cw.getLsbD i = true ∨ i = k := by
  have hslot : (1#8 <<< k).getLsbD i = true ↔ i = k := by
    rw [← BitVec.twoPow_eq, BitVec.getLsbD_twoPow, Bool.and_eq_true, decide_eq_true_iff, decide_eq_true_iff]
    omega
  rw [BitVec.getLsbD_or, Bool.or_eq_true, hslot]

theorem getLsbD_selectRounds {n : Nat} {w : List Nat} {cw : Byte} {i : Nat} (hi : i < 8) :
    (selectRounds n w cw).getLsbD i = true ↔ cw.getLsbD i = true ∨ i ∈ pickedSlots n w := by
  induction n generalizing w cw with
  | zero => simp [selectRounds, pickedSlots]
  | succ n ih => rw [selectRounds, ih, getLsbD_or_slot _ _ hi, pickedSlots, List.mem_cons, or_assoc]

/-- The bits of a codeword are the slots of its four rounds. -/
theorem getLsbD_codeword (v : List Nat) {i : Nat} (hi : i < 8) :
    (codeword v).getLsbD i = true ↔ i ∈ pickedSlots 4 v := by
  simp [codeword, getLsbD_selectRounds hi]

/-- Every selected slot was positive, but for slot 0. -/
theorem eq_zero_or_pos_of_mem_pickedSlots {n : Nat} {w : List Nat} {i : Nat} (h : i ∈ pickedSlots n w) :
    i = 0 ∨ 0 < w.getD i 0 := by
  induction n generalizing w with
  | zero => cases h
  | succ n ih =>
    rcases List.mem_cons.mp h with rfl | htail
    · exact argmaxIndex_eq_zero_or_pos w
    · rcases ih htail with rfl | hpos
      · exact .inl rfl
      · obtain ⟨-, hi⟩ := getD_set_zero_pos_iff.mp hpos
        exact .inr hi

/-- Enough rounds select every positive slot. -/
theorem mem_pickedSlots_of_pos {n : Nat} {w : List Nat} {i : Nat} (hn : positiveCount w ≤ n) (hi : 0 < w.getD i 0) :
    i ∈ pickedSlots n w := by
  have hw := positiveCount_pos_of_getD hi
  induction n generalizing w with
  | zero => omega
  | succ n ih =>
    refine List.mem_cons.mpr (or_iff_not_imp_left.mpr fun hne => ?_)
    have hrest : 0 < (w.set (argmaxIndex w) 0).getD i 0 := getD_set_zero_pos_iff.mpr ⟨hne, hi⟩
    exact ih (by rw [positiveCount_set_argmaxIndex hw]; omega) hrest (positiveCount_pos_of_getD hrest)

/-- A round left over after the positive slots selects slot 0. -/
theorem zero_mem_pickedSlots {n : Nat} {w : List Nat} (hn : positiveCount w < n) : 0 ∈ pickedSlots n w := by
  induction n generalizing w with
  | zero => omega
  | succ n ih =>
    rcases Nat.eq_zero_or_pos (positiveCount w) with hzero | hpos
    · have hhead : argmaxIndex w = 0 := (argmaxIndex_eq_zero_or_pos w).resolve_right fun h =>
        (positiveCount_pos_of_getD h).ne' hzero
      exact List.mem_cons.mpr (.inl hhead.symm)
    · exact List.mem_cons_of_mem _ (ih (by rw [positiveCount_set_argmaxIndex hpos]; omega))

theorem mem_pickedSlots_of_few {n : Nat} {w : List Nat} (hn : positiveCount w < n) (i : Nat) :
    i ∈ pickedSlots n w ↔ i = 0 ∨ 0 < w.getD i 0 := by
  constructor
  · exact eq_zero_or_pos_of_mem_pickedSlots
  · rintro (rfl | hi)
    · exact zero_mem_pickedSlots hn
    · exact mem_pickedSlots_of_pos hn.le hi

/-- While positive entries last, the rounds select positive slots. -/
theorem pos_of_mem_pickedSlots {n : Nat} {w : List Nat} {i : Nat} (hn : n ≤ positiveCount w)
    (h : i ∈ pickedSlots n w) : 0 < w.getD i 0 := by
  induction n generalizing w with
  | zero => cases h
  | succ n ih =>
    rcases List.mem_cons.mp h with rfl | htail
    · exact argmaxIndex_pos (by omega)
    · obtain ⟨-, hi⟩ := getD_set_zero_pos_iff.mp (ih (le_positiveCount_rest hn) htail)
      exact hi

/-- A slot once selected holds 0 from then on, so while positive entries last it is not selected again. -/
theorem argmaxIndex_not_mem_rest {n : Nat} {w : List Nat} (hn : n + 1 ≤ positiveCount w) :
    argmaxIndex w ∉ pickedSlots n (w.set (argmaxIndex w) 0) := fun hmem => by
  obtain ⟨hne, -⟩ := getD_set_zero_pos_iff.mp (pos_of_mem_pickedSlots (le_positiveCount_rest hn) hmem)
  exact hne rfl

theorem pickedSlots_nodup {n : Nat} {w : List Nat} (hn : n ≤ positiveCount w) : (pickedSlots n w).Nodup := by
  induction n generalizing w with
  | zero => exact List.nodup_nil
  | succ n ih => exact List.nodup_cons.mpr ⟨argmaxIndex_not_mem_rest hn, ih (le_positiveCount_rest hn)⟩

/-- While positive entries last, a selected slot comes before every slot that is not selected: the rounds after the
first compare them by their original values. -/
theorem outranks_of_mem_pickedSlots {n : Nat} {w : List Nat} {i j : Nat} (hn : n ≤ positiveCount w)
    (hi : i ∈ pickedSlots n w) (hj : j ∉ pickedSlots n w) : Outranks w i j := by
  induction n generalizing w with
  | zero => cases hi
  | succ n ih =>
    obtain ⟨hjhead, hjtail⟩ := not_or.mp (mt List.mem_cons.mpr hj)
    rcases List.mem_cons.mp hi with rfl | hitail
    · exact argmaxIndex_outranks hjhead
    · have hihead : i ≠ argmaxIndex w := fun h => argmaxIndex_not_mem_rest hn (h ▸ hitail)
      have hrest := ih (le_positiveCount_rest hn) hitail hjtail
      simpa only [Outranks, getD_set_zero, if_neg hihead, if_neg hjhead] using hrest

/-! ### The codeword -/

/-- The slots of a codeword (R91). -/
def slotsOf (cw : Byte) : Finset Nat := (Finset.range 8).filter fun i => cw.getLsbD i = true

theorem mem_slotsOf {cw : Byte} {i : Nat} : i ∈ slotsOf cw ↔ i < 8 ∧ cw.getLsbD i = true := by simp [slotsOf]

theorem card_slotsOf (cw : Byte) : (slotsOf cw).card = popcount cw := by
  rw [slotsOf, ← Nat.count_eq_card_filter_range]
  simp [Nat.count, popcount]

theorem slotsOf_injective {a b : Byte} (h : slotsOf a = slotsOf b) : a = b :=
  BitVec.eq_of_getLsbD_eq fun i hi => Bool.eq_iff_iff.mpr <| by
    simpa [mem_slotsOf, hi] using congrArg (i ∈ ·) h

theorem getD_pos_of_mem_slotsOf_codeword {v : List Nat} (hv : 4 ≤ positiveCount v) {i : Nat}
    (h : i ∈ slotsOf (codeword v)) : 0 < v.getD i 0 := by
  obtain ⟨hi, hbit⟩ := mem_slotsOf.mp h
  exact pos_of_mem_pickedSlots hv ((getLsbD_codeword v hi).mp hbit)

theorem slotsOf_codeword {v : List Nat} (hlen : v.length = 8) (hv : 4 ≤ positiveCount v) :
    slotsOf (codeword v) = (pickedSlots 4 v).toFinset := by
  ext i
  rw [mem_slotsOf, List.mem_toFinset]
  constructor
  · rintro ⟨hi, hbit⟩
    exact (getLsbD_codeword v hi).mp hbit
  · intro hmem
    have hi : i < 8 := hlen ▸ lt_length_of_getD_pos (pos_of_mem_pickedSlots hv hmem)
    exact ⟨hi, (getLsbD_codeword v hi).mpr hmem⟩

theorem card_slotsOf_codeword {v : List Nat} (hlen : v.length = 8) (hv : 4 ≤ positiveCount v) :
    (slotsOf (codeword v)).card = 4 := by
  rw [slotsOf_codeword hlen hv, List.toFinset_card_of_nodup (pickedSlots_nodup hv), pickedSlots_length]

/-- Settles O16: four rounds on four positive entries select four slots, each before every slot left out. -/
theorem codewordSelectsFourLargest : Obligations.CodewordSelectsFourLargest := by
  intro v hlen hv
  refine ⟨card_slotsOf_codeword hlen hv, fun i j hi hj hbiti hbitj => ?_⟩
  have hmem := (getLsbD_codeword v hi).mp hbiti
  have hnot := mt (getLsbD_codeword v hj).mpr (Bool.eq_false_iff.mp hbitj)
  exact outranks_of_mem_pickedSlots hv hmem hnot

/-- Settles O17: the rounds select the positive slots, and a round left over selects slot 0. -/
theorem fewPositiveEntriesSelectSlotZero : Obligations.FewPositiveEntriesSelectSlotZero :=
  fun v _ hv i hi => (getLsbD_codeword v hi).trans (mem_pickedSlots_of_few hv i)

/-! ### Scaling (R95 item 6) -/

theorem maxNat_scale (a : Nat) (w : List Nat) : maxNat (w.map (a * ·)) = a * maxNat w := by
  rw [maxNat, List.foldl_map]
  exact List.foldl_hom (a * ·) (g₁ := max) (g₂ := fun x y => max x (a * y)) (init := 0) fun x y =>
    Nat.mul_max_mul_left a x y

theorem argmaxIndex_scale {a : Nat} (ha : 0 < a) (w : List Nat) : argmaxIndex (w.map (a * ·)) = argmaxIndex w := by
  have hfun : (· == a * maxNat w) ∘ (a * ·) = (· == maxNat w) := by
    funext x
    simp [ha.ne']
  rw [argmaxIndex, maxNat_scale, List.idxOf, List.findIdx_map, hfun]
  rfl

theorem selectRounds_scale {a : Nat} (ha : 0 < a) (n : Nat) (w : List Nat) (cw : Byte) :
    selectRounds n (w.map (a * ·)) cw = selectRounds n w cw := by
  induction n generalizing w cw with
  | zero => rfl
  | succ n ih =>
    have hset (k : Nat) : (w.map (a * ·)).set k 0 = (w.set k 0).map (a * ·) := by simp [List.map_set]
    simp only [selectRounds, argmaxIndex_scale ha, hset, ih]

theorem codeword_scale {a : Nat} (ha : 0 < a) (v : List Nat) : codeword (v.map (a * ·)) = codeword v :=
  selectRounds_scale ha 4 v 0#8

/-- Settles O20: neither the confidence nor the codeword changes, and all else is computed from them. -/
theorem decodeIsScaleInvariant : Obligations.DecodeIsScaleInvariant := by
  intro p v a g _ ha
  simp only [decodeCore, confidence_scale ha, codeword_scale ha]

theorem codeword_replicate (c : Nat) : codeword (List.replicate 8 c) = if c = 0 then 0x01#8 else 0x0F#8 := by
  split
  case isTrue hzero =>
    subst hzero
    decide
  case isFalse hpos =>
    have hones : codeword (List.replicate 8 1) = 0x0F#8 := by decide
    have hscaled : (List.replicate 8 1).map (c * ·) = List.replicate 8 c := by simp
    rw [← hscaled, codeword_scale (Nat.pos_of_ne_zero hpos), hones]

end Sys2Proof.Machine
end

section
/-! PROOFS. What `DECODE_CORE` returns and what the decode commands do (R92..R95). -/

namespace Sys2Proof.Machine

/-! ### The gate and the table (R92, R93) -/

theorem gateCloses_iff {p : Params} {g : Bool} {conf : Nat} :
    gateCloses p g conf = true ↔ g = true ∧ conf < p.confTh := by simp [gateCloses]

theorem decodeCore_char_of_gated {p : Params} {v : List Nat} {g : Bool} (h : gateCloses p g (confidence v) = true) :
    (decodeCore p v g).char = unk := by simp [decodeCore, h]

theorem decodeCore_char_of_ungated {p : Params} {v : List Nat} {g : Bool}
    (h : gateCloses p g (confidence v) = false) :
    (decodeCore p v g).char = (lookupChar p.codeTable (codeword v)).setWidth 9 := by simp [decodeCore, h]

/-- R212: the table of an instance holds '?' at every entry of another weight than 4. -/
theorem lookupChar_of_popcount_ne_four (inst : Instance) {cw : Byte} (h : popcount cw ≠ 4) :
    lookupChar inst.val.codeTable cw = questionMark := by
  obtain ⟨htable, -⟩ := inst.property
  exact htable cw.toFin h

/-- Settles O21: no gate is asked for, and the table is that of a valid instance. -/
theorem otherWeightsDecodeToQuestionMark : Obligations.OtherWeightsDecodeToQuestionMark := by
  intro inst v h
  have hweight : popcount (codeword v) ≠ 4 := card_slotsOf (codeword v) ▸ h
  rw [decodeCore_char_of_ungated rfl, lookupChar_of_popcount_ne_four inst hweight]
  rfl

/-! ### Vectors of one or two values (R95) -/

/-- Settles O19: the range is 0, so the confidence is 0 and below the threshold. -/
theorem allEqualVectorIsUncertain : Obligations.AllEqualVectorIsUncertain := by
  intro p c hth
  have hgate : gateCloses p true (confidence (List.replicate 8 c)) = true :=
    gateCloses_iff.mpr ⟨rfl, (confidence_replicate c).trans_lt hth⟩
  exact ⟨confidence_replicate c, decodeCore_char_of_gated hgate, codeword_replicate c⟩

/-- The vector with `V` in the slots of `cw` and 0 in the others. -/
def onVector (cw : Byte) (V : Nat) : List Nat := (List.range 8).map fun i => if cw.getLsbD i then V else 0

theorem onVector_length (cw : Byte) (V : Nat) : (onVector cw V).length = 8 := by simp [onVector]

theorem getD_onVector (cw : Byte) (V : Nat) {i : Nat} (hi : i < 8) :
    (onVector cw V).getD i 0 = if cw.getLsbD i then V else 0 := by
  rw [List.getD_eq_getElem _ _ ((onVector_length cw V).symm ▸ hi)]
  simp [onVector]

/-- A test that `V` passes and 0 does not counts the slots of the codeword. -/
theorem countP_onVector {q : Nat → Bool} {V : Nat} (hV : q V = true) (h0 : q 0 = false) (cw : Byte) :
    (onVector cw V).countP q = popcount cw := by
  rw [onVector, List.countP_map, popcount]
  congr 1
  funext i
  cases hbit : cw.getLsbD i <;> simp [hbit, hV, h0]

theorem positiveCount_onVector {V : Nat} (hV : 0 < V) (cw : Byte) : positiveCount (onVector cw V) = popcount cw :=
  countP_onVector (decide_eq_true hV) rfl cw

theorem onVector_perm {cw : Byte} {V : Nat} (hcw : popcount cw = 4) (hV : 0 < V) :
    (onVector cw V).Perm (List.replicate 4 V ++ List.replicate 4 0) := by
  have hon : (onVector cw V).count V = 4 := by
    rw [List.count, countP_onVector (by simp) (by simpa using hV.ne), hcw]
  have hoff : (onVector cw V).count 0 = 4 := by
    have hnonzero : (onVector cw V).countP (fun x => !(x == 0)) = 4 := by
      rw [countP_onVector (by simpa using hV.ne') rfl, hcw]
    have hsplit := List.length_eq_countP_add_countP (fun x => !(x == 0)) (l := onVector cw V)
    simp only [Bool.not_eq_true', Bool.not_eq_false, Bool.decide_eq_true] at hsplit
    rw [onVector_length, hnonzero] at hsplit
    exact (Nat.add_left_cancel hsplit).symm
  refine (List.perm_replicate_append_replicate hV.ne').mpr ⟨hon, hoff, fun x hx => ?_⟩
  obtain ⟨i, -, rfl⟩ := List.mem_map.mp hx
  split <;> simp

theorem confidence_onVector {cw : Byte} {V : Nat} (hcw : popcount cw = 4) (hV : 0 < V) :
    confidence (onVector cw V) = 65536 := by
  have hsorted : (List.replicate 4 V ++ List.replicate 4 0).Pairwise (· ≥ ·) := by
    simp [List.replicate]
  rw [confidence_of_ranks (onVector_perm hcw hV).symm hsorted]
  simp [List.replicate, hV.ne', Nat.mul_div_cancel_left _ hV]

/-- The selected slots are positive, so they are four of the codeword's four. -/
theorem codeword_onVector {cw : Byte} {V : Nat} (hcw : popcount cw = 4) (hV : 0 < V) :
    codeword (onVector cw V) = cw := by
  have hpos : 4 ≤ positiveCount (onVector cw V) := by rw [positiveCount_onVector hV, hcw]
  have hsub : slotsOf (codeword (onVector cw V)) ⊆ slotsOf cw := by
    intro i hi
    obtain ⟨hi8, -⟩ := mem_slotsOf.mp hi
    have hval := getD_pos_of_mem_slotsOf_codeword hpos hi
    rw [getD_onVector cw V hi8] at hval
    split at hval
    · exact mem_slotsOf.mpr ⟨hi8, ‹_›⟩
    · omega
  have hcard : (slotsOf cw).card ≤ (slotsOf (codeword (onVector cw V))).card := by
    rw [card_slotsOf, hcw, card_slotsOf_codeword (onVector_length cw V) hpos]
  exact slotsOf_injective (Finset.eq_of_subset_of_card_le hsub hcard)

/-- Settles O18, by the ranks `V, V, V, V, 0, 0, 0, 0` and the four positive slots. -/
theorem fourOnVectorIsCertain : Obligations.FourOnVectorIsCertain := by
  intro cw V hcard hV
  have hcw : popcount cw = 4 := (card_slotsOf cw).symm.trans hcard
  exact ⟨confidence_onVector hcw hV, codeword_onVector hcw hV⟩

/-! ### The commands (R94) -/

/-- What a decode command stores, with gate request `g`. -/
def decodedRegs (g : Bool) (s : State) : DecodeRegs := DecodeRegs.ofResult (decodeCore s.params s.magOperand g)

theorem exec_decode (s : State) : exec .decode s =
    .next { s with dec := decodedRegs false s, lastResult := .ok, out := .response ⟨.ok, none, false⟩ } := rfl

theorem exec_decodeG (s : State) : exec .decodeG s =
    .next { s with dec := decodedRegs true s, lastResult := .ok, out := .response ⟨.ok, none, false⟩ } := rfl

/-- `DEC_CONF` holds the whole confidence: it is at most 1.0. -/
theorem toNat_decodedRegs_conf (g : Bool) (s : State) : (decodedRegs g s).conf.toNat = confidence s.magOperand := by
  have hle : confidence s.magOperand ≤ 65536 := confidence_le (natsOf_length _)
  exact toNat_ofNat_of_lt (hle.trans_lt (by decide))

/-- Settles O22: without a gate request the character is the table's. -/
theorem decodeCompletes : Obligations.DecodeCompletes := fun s =>
  ⟨decodedRegs false s, exec_decode s, toNat_decodedRegs_conf false s, rfl, rfl, rfl⟩

/-- Settles O23, by whether the gate closes. -/
theorem gatedDecodeCompletes : Obligations.GatedDecodeCompletes := by
  intro s
  have hconf := toNat_decodedRegs_conf true s
  have hgate : gateCloses s.params true (confidence s.magOperand) = true ↔
      (decodedRegs true s).conf.toNat < s.params.confTh := by
    rw [hconf, gateCloses_iff, eq_self, true_and]
  refine ⟨decodedRegs true s, exec_decodeG s, hconf, rfl, hgate, ?_⟩
  split
  case isTrue hbelow => exact decodeCore_char_of_gated (hgate.mpr hbelow)
  case isFalse habove => exact decodeCore_char_of_ungated (Bool.eq_false_iff.mpr (mt hgate.mp habove))

end Sys2Proof.Machine
end

section
/-! PROOFS. The cosine of a pair and the score of a candidate (R112, R113). -/

namespace Sys2Proof.Machine

/-! ### The sums of R112 -/

@[simp] theorem dot_nil_left (b : List Nat) : dot [] b = 0 := by simp [dot]

@[simp] theorem dot_nil_right (a : List Nat) : dot a [] = 0 := by simp [dot]

@[simp] theorem dot_cons_cons (x y : Nat) (a b : List Nat) : dot (x :: a) (y :: b) = x * y + dot a b := by simp [dot]

/-- The inner product as a sum over the slots; slots beyond a vector's end add nothing. -/
theorem dot_eq_sum {n : Nat} {a : List Nat} (ha : a.length ≤ n) (b : List Nat) :
    dot a b = ∑ k ∈ Finset.range n, a.getD k 0 * b.getD k 0 := by
  induction a generalizing n b with
  | nil => simp
  | cons x a ih =>
    cases b with
    | nil => simp
    | cons y b =>
      obtain ⟨m, rfl⟩ : ∃ m, n = m + 1 := ⟨n - 1, by simp at ha; omega⟩
      have hrest := ih (n := m) (by simpa using ha) b
      rw [dot_cons_cons, hrest, Finset.sum_range_succ', Nat.add_comm]
      simp

theorem pairValid_iff {a b : List Nat} : pairValid a b = true ↔ 0 < dot a a ∧ 0 < dot b b := by simp [pairValid]

/-- The Cauchy-Schwarz inequality under R112's integer square root. -/
theorem dot_le_isqrt (a b : List Nat) : dot a b ≤ isqrt (dot a a * dot b b) :=
  le_isqrt (by rw [← sq]; exact dot_sq_le a b)

theorem cosQ_self {a : List Nat} (h : 0 < dot a a) : cosQ a a = 65536 := by
  rw [cosQ, isqrt_mul_self, Nat.mul_div_cancel_left _ h]

/-- Settles O24: the Cauchy-Schwarz inequality bounds the sum of the products by the integer square root. -/
theorem cosineIsBounded : Obligations.CosineIsBounded := by
  intro a b ha hb
  have hab := dot_eq_sum ha.le b
  have hna := dot_eq_sum ha.le a
  have hnb := dot_eq_sum hb.le b
  obtain ⟨hlo, hhi⟩ := isqrt_spec (dot a a * dot b b)
  simp only [← hab, ← hna, ← hnb]
  refine ⟨trivial, pairValid_iff, hlo, hhi, fun hvalid => ?_⟩
  obtain ⟨hposa, -⟩ := pairValid_iff.mp hvalid
  exact ⟨rfl, dot_le_isqrt a b, cosQ_le a b, cosQ_self hposa⟩

/-! ### The score over the valid indices (R113) -/

/-- The cosine of the two vectors `c` apart from index `i` on. -/
def cosAt (H : List (List Nat)) (c i : Nat) : Nat := cosQ (H.getD i []) (H.getD (i + c) [])

/-- The two vectors `c` apart from index `i` on are a valid pair. -/
def validAt (H : List (List Nat)) (c i : Nat) : Bool := pairValid (H.getD i []) (H.getD (i + c) [])

/-- The valid indices of R113. -/
def validIndices (H : List (List Nat)) (c : Nat) : Finset Nat :=
  (Finset.range (H.length - c)).filter fun i => validAt H c i = true

theorem mem_validIndices {H : List (List Nat)} {c i : Nat} :
    i ∈ validIndices H c ↔ i < H.length - c ∧ validAt H c i = true := by
  simp [validIndices]

/-- The pairs `c` apart, by index. -/
theorem zip_drop_eq_map_range (H : List (List Nat)) (c : Nat) :
    H.zip (H.drop c) = (List.range (H.length - c)).map fun i => (H.getD i [], H.getD (i + c) []) := by
  refine List.ext_getElem (by simp) fun i hi _ => ?_
  have hlt : i + c < H.length := by simp at hi; omega
  simp [Nat.add_comm c i, hlt, show i < H.length by omega]

/-- A sum over the valid pairs is a sum over the valid indices. -/
theorem sum_map_validPairs (H : List (List Nat)) (c : Nat) (f : List Nat → List Nat → Nat) :
    ((validPairs H c).map fun ab => f ab.1 ab.2).sum =
      ∑ i ∈ validIndices H c, f (H.getD i []) (H.getD (i + c) []) := by
  have hset : validIndices H c = ((List.range (H.length - c)).filter (validAt H c)).toFinset := by
    ext i
    simp [mem_validIndices]
  rw [hset, List.sum_toFinset _ (List.nodup_range.filter _), validPairs, zip_drop_eq_map_range, List.filter_map,
    List.map_map]
  rfl

/-- The score is the floor mean over the valid indices (R113). -/
theorem rawScore_eq (H : List (List Nat)) (c : Nat) :
    rawScore H c = if (validIndices H c).card = 0 then 0
      else (∑ i ∈ validIndices H c, cosAt H c i) / (validIndices H c).card := by
  have hcard : (validPairs H c).length = (validIndices H c).card := by
    simpa using sum_map_validPairs H c fun _ _ => 1
  simp only [rawScore, List.length_map, hcard, sum_map_validPairs, cosAt]

/-- Settles O25, by the bijection of the valid pairs with the valid indices. -/
theorem scoreIsMeanOverValidIndices : Obligations.ScoreIsMeanOverValidIndices := rawScore_eq

theorem rawScore_of_no_valid {H : List (List Nat)} {c : Nat} (h : validIndices H c = ∅) : rawScore H c = 0 := by
  rw [rawScore_eq, h, Finset.card_empty, if_pos rfl]

theorem rawScore_of_valid {H : List (List Nat)} {c : Nat} (h : (validIndices H c).Nonempty) :
    rawScore H c = (∑ i ∈ validIndices H c, cosAt H c i) / (validIndices H c).card := by
  rw [rawScore_eq, if_neg h.card_pos.ne']

/-- A score whose cosines are all equal is that cosine. -/
theorem rawScore_eq_of_forall {H : List (List Nat)} {c v : Nat} (h : (validIndices H c).Nonempty)
    (hcos : ∀ i ∈ validIndices H c, cosAt H c i = v) : rawScore H c = v := by
  rw [rawScore_of_valid h, Finset.sum_const_nat hcos, Nat.mul_div_cancel_left _ h.card_pos]

/-- A score whose cosines are all below a bound is below it. -/
theorem rawScore_lt_of_forall {H : List (List Nat)} {c b : Nat} (h : (validIndices H c).Nonempty)
    (hcos : ∀ i ∈ validIndices H c, cosAt H c i < b) : rawScore H c < b := by
  have hsum := Finset.sum_lt_sum_of_nonempty h hcos
  rw [Finset.sum_const, smul_eq_mul, Nat.mul_comm] at hsum
  rw [rawScore_of_valid h]
  exact (Nat.div_lt_iff_lt_mul h.card_pos).mpr hsum

end Sys2Proof.Machine
end

section
/-! PROOFS. The detector's lists by candidate, its argmax and its correction (R111, R114..R116, R120). -/

namespace Sys2Proof.Machine

/-! ### The lists of `DETECT_CORE`, on a history of any length -/

theorem detectCore_n (H : List (List Nat)) : (detectCore H).n = H.length := by
  by_cases h : H.length < 6
  · rw [detectCore_insufficient h]
  · rw [detectCore_sufficient (by omega)]; rfl

theorem detectCore_maxl (H : List (List Nat)) : (detectCore H).maxl = maxCandidate H.length := by
  by_cases h : H.length < 6
  · rw [detectCore_insufficient h]
  · rw [detectCore_sufficient (by omega)]; rfl

/-- An insufficient history has no candidates, so no scores (R111). -/
theorem detectCore_scores (H : List (List Nat)) :
    (detectCore H).scores = (candidates (maxCandidate H.length)).map (rawScore H) := by
  by_cases h : H.length < 6
  · have hnone : (candidates (maxCandidate H.length)).length = 0 := by simp [maxCandidate]; omega
    rw [detectCore_insufficient h, List.length_eq_zero_iff.mp hnone]
    rfl
  · rw [detectCore_sufficient (by omega)]; rfl

theorem detectCore_mean (H : List (List Nat)) : (detectCore H).mean = meanScore (detectCore H).scores := by
  by_cases h : H.length < 6
  · rw [detectCore_insufficient h]; simp [meanScore]
  · rw [detectCore_sufficient (by omega)]; rfl

theorem detectCore_norms_of_scores (H : List (List Nat)) : (detectCore H).norms = normScores (detectCore H).scores := by
  by_cases h : H.length < 6
  · rw [detectCore_insufficient h]; rfl
  · rw [detectCore_sufficient (by omega)]; rfl

theorem detectCore_raw {H : List (List Nat)} (h : 6 ≤ H.length) :
    (detectCore H).raw = rawLength (detectCore H).norms := by
  rw [detectCore_sufficient h]; rfl

theorem detectCore_lstar_eq {H : List (List Nat)} (h : 6 ≤ H.length) :
    (detectCore H).lstar = correctedLength (detectCore H).norms (detectCore H).raw := by
  rw [detectCore_sufficient h]; rfl

/-- R114 as one map: the model's `normScores` casts the whole list first. -/
theorem normScores_eq_map (scores : List Nat) :
    normScores scores = scores.map fun x : Nat => (x : Int) - (meanScore scores : Int) := by
  rw [List.map_eq_flatMap]
  simp [normScores, List.bind_eq_flatMap, List.map_flatMap]

/-- `norm[c]` of R114. -/
def normScore (H : List (List Nat)) (c : Nat) : Int := (rawScore H c : Int) - ((detectCore H).mean : Int)

theorem detectCore_norms (H : List (List Nat)) :
    (detectCore H).norms = (candidates (maxCandidate H.length)).map (normScore H) := by
  rw [detectCore_norms_of_scores, normScores_eq_map, ← detectCore_mean, detectCore_scores, List.map_map]
  rfl

/-- Entry `i` of a list over the candidates is candidate `i + 3`. -/
theorem getD_map_candidates {α : Type} (f : Nat → α) (d : α) (maxl i : Nat) :
    ((candidates maxl).map f).getD i d = if i + 3 ≤ maxl then f (i + 3) else d := by
  split
  case isTrue h =>
    have hi : i < (candidates maxl).length := by rw [candidates_length]; omega
    rw [List.getD_eq_getElem _ _ (by simpa using hi), List.getElem_map, candidates_get hi]
  case isFalse h => exact List.getD_eq_default _ _ (by rw [List.length_map, candidates_length]; omega)

theorem normOf_norms {H : List (List Nat)} {c : Nat} (hlo : 3 ≤ c) (hhi : c ≤ maxCandidate H.length) :
    normOf (detectCore H).norms c = normScore H c := by
  have hc : c - Config.minL + 3 = c := Nat.sub_add_cancel hlo
  rw [normOf, detectCore_norms, getD_map_candidates, hc, if_pos hhi]

theorem sum_map_candidates (f : Nat → Nat) (maxl : Nat) :
    ((candidates maxl).map f).sum = ∑ c ∈ Finset.Icc 3 maxl, f c := by
  have hset : (candidates maxl).toFinset = Finset.Icc 3 maxl := by
    ext c
    rw [List.mem_toFinset, mem_candidates, Finset.mem_Icc]
  have hnodup : (candidates maxl).Nodup := List.nodup_range'
  rw [← hset, List.sum_toFinset f hnodup]

/-- The mean of R114 over the candidates. -/
theorem detectCore_mean_eq (H : List (List Nat)) :
    (detectCore H).mean =
      (∑ c ∈ Finset.Icc 3 (maxCandidate H.length), rawScore H c) / (maxCandidate H.length - 2) := by
  rw [detectCore_mean, meanScore, detectCore_scores, sum_map_candidates, List.length_map, candidates_length]

theorem mean_le_of_scores_le {H : List (List Nat)} {b : Nat}
    (h : ∀ c, 3 ≤ c → c ≤ maxCandidate H.length → rawScore H c ≤ b) : (detectCore H).mean ≤ b := by
  rw [detectCore_mean]
  refine sum_div_length_le fun x hx => ?_
  rw [detectCore_scores] at hx
  obtain ⟨c, hc, rfl⟩ := List.mem_map.mp hx
  obtain ⟨hlo, hhi⟩ := mem_candidates.mp hc
  exact h c hlo hhi

/-! ### The argmax (R115) -/

theorem normOf_le_maxInt {norms : List Int} {c : Nat} (h : c - Config.minL < norms.length) :
    normOf norms c ≤ maxInt norms := by
  rw [normOf, List.getD_eq_getElem _ _ h]
  exact le_maxInt (List.getElem_mem h)

theorem normOf_rawLength {norms : List Int} (h : norms ≠ []) : normOf norms (rawLength norms) = maxInt norms := by
  rw [normOf, rawLength, Nat.add_sub_cancel_left, List.getD_eq_getElem?_getD, List.getElem?_idxOf (maxInt_mem h)]
  rfl

/-- Ties go to the smallest candidate. -/
theorem rawLength_le_of_maximal {norms : List Int} {c : Nat} (hlo : 3 ≤ c) (hhi : c - Config.minL < norms.length)
    (hmax : normOf norms c = maxInt norms) : rawLength norms ≤ c := by
  by_contra hlt
  have hbefore : c - Config.minL < norms.findIdx (· == maxInt norms) := by
    have : ¬ 3 + norms.findIdx (· == maxInt norms) ≤ c := hlt
    simp only [Config.minL]
    omega
  rw [normOf, List.getD_eq_getElem _ _ hhi] at hmax
  exact beq_eq_false_iff_ne.mp (List.not_of_lt_findIdx hbefore) hmax

/-- The raw length has the greatest normalised score of the candidates, and is the smallest that has it (R115). -/
theorem normScore_le_raw {H : List (List Nat)} {c : Nat} (hlo : 3 ≤ c) (hhi : c ≤ maxCandidate H.length) :
    normScore H c ≤ normScore H (detectCore H).raw ∧
      (normScore H c = normScore H (detectCore H).raw → (detectCore H).raw ≤ c) := by
  have h6 : 6 ≤ H.length := by simp [maxCandidate] at hhi; omega
  obtain ⟨hrlo, hrhi⟩ := detectCore_raw_range h6
  have hc : c - Config.minL < (detectCore H).norms.length := by
    rw [detectCore_norms, List.length_map, candidates_length]
    simp only [Config.minL]
    omega
  have hmax : normScore H (detectCore H).raw = maxInt (detectCore H).norms := by
    rw [← normOf_norms hrlo hrhi, detectCore_raw h6, normOf_rawLength (List.ne_nil_of_length_pos (by omega))]
  rw [hmax, ← normOf_norms hlo hhi, detectCore_raw h6]
  exact ⟨normOf_le_maxInt hc, rawLength_le_of_maximal hlo hc⟩

/-- R115: the greatest normalised score is not negative, for the mean is at most the greatest score. -/
theorem normScore_raw_nonneg (H : List (List Nat)) : 0 ≤ normScore H (detectCore H).raw := by
  have hmean : (detectCore H).mean ≤ rawScore H (detectCore H).raw := mean_le_of_scores_le fun c hlo hhi => by
    have hle := (normScore_le_raw hlo hhi).1
    simp only [normScore] at hle
    omega
  simp only [normScore]
  omega

/-- Settles O26. -/
theorem rawLengthIsSmallestArgmax : Obligations.RawLengthIsSmallestArgmax := by
  intro H h6 maxl mean norm r
  have hmean : r.mean = mean := detectCore_mean_eq H
  have hnorm : norm = normScore H := by
    funext c
    rw [normScore, show (detectCore H).mean = mean from hmean]
  obtain ⟨hlo, hhi⟩ := detectCore_raw_range h6
  rw [hnorm]
  exact ⟨hmean, hlo, hhi, normScore_raw_nonneg H, fun c => normScore_le_raw⟩

/-! ### The correction (R116) -/

/-- `d` is a divisor of the raw length that wins by R116. -/
def DivisorWins (H : List (List Nat)) (d : Nat) : Prop :=
  2 ≤ d ∧ d < (detectCore H).raw ∧ (detectCore H).raw % d = 0 ∧ 3 ≤ (detectCore H).raw / d ∧
    normScore H (detectCore H).raw ≤ 2 * normScore H ((detectCore H).raw / d)

theorem divisorWins_iff {H : List (List Nat)} (h6 : 6 ≤ H.length) {d : Nat} :
    DivisorWins H d ↔ 2 ≤ d ∧ d < (detectCore H).raw ∧
      subMultipleWins (detectCore H).norms (detectCore H).raw d = true := by
  obtain ⟨hlo, hhi⟩ := detectCore_raw_range h6
  have hquot : (detectCore H).raw / d ≤ maxCandidate H.length := (Nat.div_le_self _ _).trans hhi
  simp only [DivisorWins, subMultipleWins, decide_eq_true_eq, Config.minL, Config.harmNum, Config.harmDen,
    normOf_norms hlo hhi]
  refine and_congr_right fun _ => and_congr_right fun _ => and_congr_right fun _ => and_congr_right fun h3 => ?_
  rw [normOf_norms h3 hquot]
  push_cast
  omega

/-- Settles O27: the divisors are tried in ascending order. -/
theorem antiHarmonicTakesFirstDivisor : Obligations.AntiHarmonicTakesFirstDivisor := by
  intro H h6 r norm wins
  have hwins : ∀ d, wins d ↔ 2 ≤ d ∧ d < r.raw ∧ subMultipleWins r.norms r.raw d = true :=
    fun d => divisorWins_iff h6
  have hlstar : r.lstar = correctedLength r.norms r.raw := detectCore_lstar_eq h6
  rw [hlstar]
  simp only [hwins]
  rcases correctedLength_cases r.norms r.raw with ⟨d, h2, hlt, hwin, hfirst, heq⟩ | ⟨hnone, heq⟩
  · refine .inl ⟨d, ⟨h2, hlt, hwin⟩, fun e ⟨he2, _, hewin⟩ => ?_, heq⟩
    by_contra hed
    rw [hfirst e he2 (by omega)] at hewin
    exact Bool.false_ne_true hewin
  · refine .inr ⟨fun d ⟨h2, hlt, hwin⟩ => ?_, heq⟩
    rw [hnone d h2 hlt] at hwin
    exact Bool.false_ne_true hwin

/-! ### Two kinds of history (R120) -/

theorem getD_mem {H : List (List Nat)} {i : Nat} (h : i < H.length) : H.getD i [] ∈ H := by
  rw [List.getD_eq_getElem _ _ h]
  exact List.getElem_mem h

theorem rawScore_of_zero_history {H : List (List Nat)} (hzero : ∀ v ∈ H, dot v v = 0) (c : Nat) :
    rawScore H c = 0 := by
  refine rawScore_of_no_valid (Finset.eq_empty_of_forall_notMem fun i hi => ?_)
  obtain ⟨hlt, hvalid⟩ := mem_validIndices.mp hi
  obtain ⟨hpos, -⟩ := pairValid_iff.mp hvalid
  exact hpos.ne' (hzero _ (getD_mem (by omega)))

/-- Settles O30: with every score 0 the smallest candidate has the greatest, and 3 has no divisor to try. -/
theorem zeroHistoryGivesThree : Obligations.ZeroHistoryGivesThree := by
  intro H h6 hzero r
  have h3 : 3 ≤ maxCandidate H.length := by simp [maxCandidate]; omega
  have hnorm : normScore H 3 = normScore H r.raw := by simp only [normScore, rawScore_of_zero_history hzero]
  have hraw : r.raw = 3 := le_antisymm ((normScore_le_raw le_rfl h3).2 hnorm) (detectCore_raw_range h6).1
  obtain ⟨hlo, hhi⟩ := detectCore_lstar_range h6
  refine ⟨by rw [detectCore_status, if_neg (by omega)], hraw, le_antisymm (hhi.trans hraw.le) hlo, fun x hx => ?_⟩
  rw [detectCore_scores] at hx
  obtain ⟨c, -, rfl⟩ := List.mem_map.mp hx
  exact rawScore_of_zero_history hzero c

section Periodic

/-- Entries `p` apart are equal: the history tiles `p` (R120 item 5). -/
def HasPeriod (H : List (List Nat)) (p : Nat) : Prop := ∀ i, i + p < H.length → H.getD (i + p) [] = H.getD i []

variable {H : List (List Nat)} {p : Nat}

/-- A history of period `p` repeats its first `p` vectors. -/
theorem HasPeriod.getD_mod (hper : HasPeriod H p) (hp : 0 < p) {i : Nat} (hi : i < H.length) :
    H.getD i [] = H.getD (i % p) [] := by
  induction i using Nat.strong_induction_on with
  | _ i ih =>
    rcases Nat.lt_or_ge i p with hlt | hge
    · rw [Nat.mod_eq_of_lt hlt]
    · have hback := hper (i - p) (by omega)
      rw [Nat.sub_add_cancel hge] at hback
      rw [hback, ih (i - p) (by omega) (by omega), Nat.mod_eq_sub_mod hge]

/-- Without zero vectors every index of 0..N−c−1 is valid. -/
theorem mem_validIndices_of_pos (hpos : ∀ v ∈ H, 0 < dot v v) {c i : Nat} :
    i ∈ validIndices H c ↔ i + c < H.length := by
  rw [mem_validIndices]
  constructor
  · rintro ⟨hlt, -⟩
    omega
  · intro hlt
    exact ⟨by omega, pairValid_iff.mpr ⟨hpos _ (getD_mem (by omega)), hpos _ (getD_mem hlt)⟩⟩

/-- The period itself compares equal vectors only, so it scores 1.0. -/
theorem rawScore_period (hpos : ∀ v ∈ H, 0 < dot v v) (hper : HasPeriod H p) (hp : p < H.length) :
    rawScore H p = 65536 := by
  refine rawScore_eq_of_forall ⟨0, (mem_validIndices_of_pos hpos).mpr (by omega)⟩ fun i hi => ?_
  have hlt := (mem_validIndices_of_pos hpos).mp hi
  rw [cosAt, hper i hlt]
  exact cosQ_self (hpos _ (getD_mem (by omega)))

/-- Below the period every pair compares two distinct positions, so the score is below 1.0. -/
theorem rawScore_lt_of_lt_period (hpos : ∀ v ∈ H, 0 < dot v v) (hper : HasPeriod H p) (hp : p < H.length)
    (hcos : ∀ x y, x < p → y < p → x ≠ y → cosQ (H.getD x []) (H.getD y []) < 65536) {c : Nat} (hc : 0 < c)
    (hcp : c < p) : rawScore H c < 65536 := by
  have hp0 : 0 < p := by omega
  refine rawScore_lt_of_forall ⟨0, (mem_validIndices_of_pos hpos).mpr (by omega)⟩ fun i hi => ?_
  have hlt := (mem_validIndices_of_pos hpos).mp hi
  have hdistinct : i % p ≠ (i + c) % p := fun heq => by
    have hmod : 0 ≡ c [MOD p] := Nat.ModEq.add_left_cancel' i (show i + 0 ≡ i + c [MOD p] from heq)
    rw [Nat.ModEq, Nat.zero_mod, Nat.mod_eq_of_lt hcp] at hmod
    omega
  rw [cosAt, hper.getD_mod hp0 hlt, hper.getD_mod hp0 (show i < H.length by omega)]
  exact hcos _ _ (Nat.mod_lt _ hp0) (Nat.mod_lt _ hp0) hdistinct

end Periodic

/-- Settles O31: `p` scores 1.0, and every smaller candidate less. -/
theorem noiseFreePeriodIsFound : Obligations.NoiseFreePeriodIsFound := by
  intro H p h3 hmax hpos hper hcos
  have hp : p < H.length := by omega
  have hscore := rawScore_period hpos hper hp
  obtain ⟨hnorm, hsmallest⟩ := normScore_le_raw h3 hmax
  obtain ⟨hlo, -⟩ := detectCore_raw_range (H := H) (by omega)
  have hbound := rawScore_le H (detectCore H).raw
  simp only [normScore] at hnorm hsmallest
  have hle : (detectCore H).raw ≤ p := hsmallest (by omega)
  by_contra hne
  have hless := rawScore_lt_of_lt_period hpos hper hp hcos (c := (detectCore H).raw) (by omega) (by omega)
  omega

end Sys2Proof.Machine
end

section
/-! PROOFS. The registers that DETECT writes (R117..R119). -/

namespace Sys2Proof.Machine

/-! ### The stores lose no bit

Lengths are at most 30 and fit 5 bits, scores at most 65536 and fit 17, normalised scores within ±65536 and fit 32. -/

theorem maxCandidate_le (n : Nat) : maxCandidate n ≤ 30 := Nat.min_le_left _ _

theorem toNat_ofResult_maxl (H : List (List Nat)) :
    (DetectRegs.ofResult (detectCore H)).maxl.toNat = maxCandidate H.length := by
  have hle := maxCandidate_le H.length
  rw [DetectRegs.ofResult, detectCore_maxl]
  exact toNat_ofNat_of_lt (by omega)

theorem detectCore_raw_of_insufficient {H : List (List Nat)} (h : H.length < 6) : (detectCore H).raw = 0 := by
  rw [detectCore_insufficient h]

theorem detectCore_lstar_of_insufficient {H : List (List Nat)} (h : H.length < 6) : (detectCore H).lstar = 0 := by
  rw [detectCore_insufficient h]

theorem detectCore_mean_of_insufficient {H : List (List Nat)} (h : H.length < 6) : (detectCore H).mean = 0 := by
  rw [detectCore_insufficient h]

theorem detectCore_raw_le (H : List (List Nat)) : (detectCore H).raw ≤ 30 := by
  by_cases h : H.length < 6
  · rw [detectCore_raw_of_insufficient h]
    exact Nat.zero_le _
  · exact (detectCore_raw_range (by omega)).2.trans (maxCandidate_le _)

theorem detectCore_lstar_le (H : List (List Nat)) : (detectCore H).lstar ≤ 30 := by
  by_cases h : H.length < 6
  · rw [detectCore_lstar_of_insufficient h]
    exact Nat.zero_le _
  · exact (detectCore_lstar_range (by omega)).2.trans (detectCore_raw_le H)

theorem toNat_ofResult_raw (H : List (List Nat)) :
    (DetectRegs.ofResult (detectCore H)).raw.toNat = (detectCore H).raw := by
  have hle := detectCore_raw_le H
  exact toNat_ofNat_of_lt (by omega)

theorem toNat_ofResult_len (H : List (List Nat)) :
    (DetectRegs.ofResult (detectCore H)).len.toNat = (detectCore H).lstar := by
  have hle := detectCore_lstar_le H
  exact toNat_ofNat_of_lt (by omega)

theorem toNat_ofResult_mean (H : List (List Nat)) :
    (DetectRegs.ofResult (detectCore H)).mean.toNat = (detectCore H).mean := by
  have hle := (detectCore_bounded H).mean
  exact toNat_ofNat_of_lt (by omega)

theorem toNat_ofResult_score (H : List (List Nat)) (i : Fin 28) :
    (DetectRegs.ofResult (detectCore H)).score[i].toNat =
      if i.val + 3 ≤ maxCandidate H.length then rawScore H (i.val + 3) else 0 := by
  have hle : (detectCore H).scores.getD i.val 0 ≤ 65536 :=
    getD_of_forall (Q := fun x => x ≤ 65536) (detectCore_bounded H).scores (Nat.zero_le _) i.val
  have hget : (DetectRegs.ofResult (detectCore H)).score[i] = BitVec.ofNat 17 ((detectCore H).scores.getD i.val 0) := by
    simp [DetectRegs.ofResult]
  rw [hget, toNat_ofNat_of_lt (by omega), detectCore_scores, getD_map_candidates]

theorem toInt_ofResult_norm (H : List (List Nat)) (i : Fin 28) :
    (DetectRegs.ofResult (detectCore H)).norm[i].toInt =
      if i.val + 3 ≤ maxCandidate H.length then normScore H (i.val + 3) else 0 := by
  have hle : ((detectCore H).norms.getD i.val 0).natAbs ≤ 65536 :=
    getD_of_forall (Q := fun y : Int => y.natAbs ≤ 65536) (detectCore_bounded H).norms (Nat.zero_le _) i.val
  have hget : (DetectRegs.ofResult (detectCore H)).norm[i] = BitVec.ofInt 32 ((detectCore H).norms.getD i.val 0) := by
    simp [DetectRegs.ofResult]
  rw [hget, BitVec.toInt_ofInt_eq_self (by omega) (by omega) (by omega), detectCore_norms, getD_map_candidates]

/-! ### DETECT (R119) -/

theorem exec_detect (s : State) : exec .detect s =
    .next { s with
      det := DetectRegs.ofResult (detectCore s.historyOperand)
      lastResult := .ok, out := .response ⟨.ok, none, false⟩ } := rfl

/-- A candidate is searched only on a sufficient history (R111). -/
theorem searched_iff {n c : Nat} (hc : 3 ≤ c) : 6 ≤ n ∧ c ≤ maxCandidate n ↔ c ≤ maxCandidate n := by
  refine and_iff_right_of_imp fun hle => ?_
  have hhalf : c ≤ n / 2 := hle.trans (Nat.min_le_right _ _)
  omega

/-- A result that is 0 on an insufficient history may be written by cases on it. -/
theorem eq_ite_of_insufficient {n x : Nat} (h : n < 6 → x = 0) : x = if n < 6 then 0 else x := by
  split
  case isTrue hlt => exact h hlt
  case isFalse => rfl

/-- Settles O28, register by register. -/
theorem detectCompletes : Obligations.DetectCompletes := by
  intro s H r d
  have hstatus : d.status = if H.length < 6 then .insufficient else .ok := detectCore_status H
  have hn : d.n.toNat = H.length % 2 ^ 32 := by
    rw [← detectCore_n H]
    exact BitVec.toNat_ofNat _ _
  have hmaxl : d.maxl.toNat = maxCandidate H.length := toNat_ofResult_maxl H
  have hmean : d.mean.toNat = r.mean := toNat_ofResult_mean H
  refine ⟨exec_detect s, hstatus, hn, hmaxl, ?raw, ?len, ?mean, fun i => ?regs⟩
  case raw => exact (toNat_ofResult_raw H).trans (eq_ite_of_insufficient detectCore_raw_of_insufficient)
  case len => exact (toNat_ofResult_len H).trans (eq_ite_of_insufficient detectCore_lstar_of_insufficient)
  case mean => exact hmean.trans (eq_ite_of_insufficient detectCore_mean_of_insufficient)
  case regs =>
    rw [hmaxl, hmean]
    simp only [searched_iff (Nat.le_add_left 3 i.val)]
    exact ⟨toNat_ofResult_score H i, toInt_ofResult_norm H i⟩

/-- Settles O29: the length register holds the whole corrected length, which is in 3..30 exactly with OK. -/
theorem detectStatusIsNeverALength : Obligations.DetectStatusIsNeverALength := by
  intro s t ht
  rw [exec_detect] at ht
  cases ht
  obtain ⟨hok, hnone⟩ := detectCore_lstar s.historyOperand
  refine ⟨fun hinsufficient => ?_, fun hst => ?_, rfl, rfl, rfl⟩
  · have hne : (detectCore s.historyOperand).status ≠ .ok := fun h =>
      DetStatus.noConfusion (hinsufficient.symm.trans h)
    exact congrArg (BitVec.ofNat 5) (hnone hne)
  · rw [toNat_ofResult_len]
    exact hok hst

end Sys2Proof.Machine
end

section
/-! PROOFS. What a step does to the session, and which changes of STATE and of SEQ a push can make (R136, R148). -/

namespace Sys2Proof.Machine

/-! ### SETTLED and the other values of STATE -/

theorem Session.Settled.ne_searching {x : Session} (h : x.Settled) : x.cycle ≠ .searching := by
  rcases h with h | h <;> simp [h]

theorem Session.Settled.ne_detecting {x : Session} (h : x.Settled) : x.cycle ≠ .detecting := by
  rcases h with h | h <;> simp [h]

theorem Session.Settled.congr {x y : Session} (h : x.Settled) (hc : x.cycle = y.cycle) : y.Settled := by
  rwa [Session.Settled, hc] at h

/-! ### Which commands write the session -/

theorem exec_session {i : Instr} {s t : State} (h : exec i s = .next t) :
    t.session = s.session ∨ t.session = Session.initial ∨ i = .push := by
  cases i with
  | push => exact .inr (.inr rfl)
  | reset code => cases h; exact .inr (.inl rfl)
  | nop => cases h; exact .inl rfl
  | decode => cases h; exact .inl rfl
  | decodeG => cases h; exact .inl rfl
  | setPhase phase => cases h; exact .inl rfl
  | detect => cases h; exact .inl rfl

@[simp] theorem busRead_session (off size : Nat) (s : State) : (busRead off size s).session = s.session := by
  unfold busRead
  split
  · exact busError_session s _
  · rfl

@[simp] theorem illegalCommand_session (s : State) : (illegalCommand s).session = s.session := by
  simp [illegalCommand]

/-- A step keeps the session, clears it, or is a push (R61). -/
theorem step_session {s t : State} (h : step s = .next t) :
    t.session = s.session ∨ t.session = Session.initial ∨
      ∃ rest, execPush { s with pending := rest } = .next t := by
  rcases step_cases h with ⟨-, rfl⟩ | ⟨e, rest, -, he⟩
  · exact .inl rfl
  · rcases perform_cases he with ⟨off, size, -, -, rfl⟩ | ⟨off, size, v, -, -, hw⟩ | ⟨-, rfl⟩
    · exact .inl (busRead_session off size _)
    · rcases busWrite_next_cases hw with rfl | ⟨m, rfl⟩ | ⟨i, -, hi⟩ | ⟨-, -, rfl⟩
      · exact .inl (busError_session _ _)
      · exact .inl rfl
      · rcases exec_session hi with hsame | hclear | rfl
        · exact .inl hsame
        · exact .inr (.inl hclear)
        · exact .inr (.inr ⟨rest, hi⟩)
      · exact .inl (illegalCommand_session _)
    · exact .inr (.inl rfl)

/-! ### STATE, SEQ and the length through the parts of a push -/

theorem toNat_seq_add_one {s : State} (h : CountersFit s) :
    (s.session.seq + 1).toNat = s.session.seq.toNat + 1 := by
  have := h.2
  bv_omega

/-- The detection step of a push: STATE and the length stay, or a checkpoint adopts, or one in DETECTING locks
(R135..R138). -/
theorem checkpointStep_cycle {s u : State} {b : Bool} (hfit : CountersFit s)
    (h : checkpointStep (countPush s) = some (u, b)) :
    u.session.seq = s.session.seq + 1 ∧
    ((u.session.cycle = s.session.cycle ∧ u.session.len = s.session.len) ∨
     (CheckpointNext s ∧ (s.session.cycle = .searching ∨ s.session.cycle = .detecting) ∧
       u.session.cycle = .detecting) ∨
     (CheckpointNext s ∧ s.session.cycle = .detecting ∧ u.session.cycle = .locked ∧
       u.session.len = s.session.len)) := by
  rcases checkpointStep_cases h with ⟨-, rfl, -⟩ | ⟨hc, y, hy, rfl⟩
  · exact ⟨rfl, .inl ⟨rfl, rfl⟩⟩
  · obtain ⟨hcycle, hnext⟩ := (atCheckpoint_countPush hfit).mp hc
    rcases takeDetection_cases hy with ⟨-, rfl, -⟩ | ⟨-, -, ha, -⟩ | ⟨-, hne, -, hcf, -⟩
    · exact ⟨rfl, .inl ⟨rfl, rfl⟩⟩
    · obtain ⟨f, -, rfl⟩ := adopt_eq_some.mp ha
      exact ⟨rfl, .inr (.inl ⟨hnext, hcycle, rfl⟩)⟩
    · have hdet : s.session.cycle = .detecting := hcycle.resolve_left hne
      obtain ⟨-, rfl⟩ := confirm_eq_some.mp hcf
      refine ⟨rfl, ?_⟩
      by_cases hlock : Config.lockConfirmations ≤ (countPush s).session.confCnt.toNat + 1
      · exact .inr (.inr ⟨hnext, hdet, if_pos hlock, rfl⟩)
      · exact .inl ⟨if_neg hlock, rfl⟩

/-- The end of a cycle changes STATE in a settled session only: to CONFIRMED, or by the collapse (R142..R144). -/
theorem endOfCycle_cycle (s : State) :
    ((endOfCycle s).state.session.cycle = s.session.cycle ∧ (endOfCycle s).state.session.seq = s.session.seq) ∨
    (s.session.Settled ∧
      (((endOfCycle s).state.session.cycle = .confirmed ∧ (endOfCycle s).state.session.seq = s.session.seq) ∨
       ((endOfCycle s).state.session = Session.initial ∧
         (endOfCycle s).state.lastReset = ⟨true, .collapse, 0#8⟩))) := by
  obtain ⟨u, c, hcopy, hend⟩ := endOfCycle_cases s
  rcases copyStep_cases (ringStep s) with ⟨hdue, hc⟩ | ⟨-, hc⟩
  · have hset : s.session.Settled := hdue.1
    cases hc.symm.trans hcopy
    rcases hend with ⟨-, he⟩ | ⟨-, he⟩
    · rw [he]; exact .inr ⟨hset, .inr ⟨rfl, rfl⟩⟩
    · rw [he]; exact .inr ⟨hset, .inl ⟨rfl, rfl⟩⟩
  · cases hc.symm.trans hcopy
    rcases hend with ⟨hdue, he⟩ | ⟨-, he⟩
    · have hset : s.session.Settled := hdue.1
      rw [he]; exact .inr ⟨hset, .inr ⟨rfl, rfl⟩⟩
    · rw [he]; exact .inl ⟨rfl, rfl⟩

/-- Routing changes STATE only at a boundary of a settled session (R139, R140). -/
theorem routeStep_cycle {b : Bool} {j : Nat} {s : State} {t : Tentative} (h : routeStep b j s = some t) :
    (t.state.session.cycle = s.session.cycle ∧ t.state.session.seq = s.session.seq) ∨
    (AtBoundary s.session j ∧ s.session.Settled ∧
      ((t.state.session.cycle = .confirmed ∧ t.state.session.seq = s.session.seq) ∨
       (t.state.session = Session.initial ∧ t.state.lastReset = ⟨true, .collapse, 0#8⟩))) := by
  rcases routeStep_cases h with ⟨-, rfl⟩ | ⟨-, f, -, ⟨hb, rfl⟩ | ⟨-, rfl⟩⟩
  · exact .inl ⟨rfl, rfl⟩
  · rcases endOfCycle_cycle (withRouted f s) with hsame | hchange
    · exact .inl hsame
    · exact .inr ⟨hb, hchange⟩
  · exact .inl ⟨rfl, rfl⟩

@[simp] theorem rejectPush_session (s : State) : (rejectPush s).session = s.session := by simp [rejectPush]

/-- The changes of STATE that a push can make (R148). -/
theorem execPush_cycle {s t : State} (h : execPush s = .next t) (hne : t.session.cycle ≠ s.session.cycle) :
    (s.session.cycle = .searching ∧ t.session.cycle = .detecting ∧ CheckpointNext s) ∨
    (s.session.cycle = .detecting ∧ CheckpointNext s ∧ (t.session.cycle = .locked ∨ t.session.cycle = .confirmed)) ∨
    (s.session.cycle = .locked ∧ t.session.cycle = .confirmed ∧ BoundaryNext s) ∨
    (s.session.cycle ≠ .searching ∧ (s.session.cycle = .detecting → CheckpointNext s) ∧
      t.session.cycle = .searching ∧ BoundaryNext s ∧ t.lastReset = ⟨true, .collapse, 0#8⟩) := by
  rcases execPush_cases s with ⟨v, hv, hx⟩ | ⟨-, hx⟩
  · cases hx.symm.trans h
    simp only [respond_session, respond_lastReset] at hne ⊢
    obtain ⟨hfit, u, b, hu, hr⟩ := tentativePush_eq_some.mp hv
    obtain ⟨-, hcheck⟩ := checkpointStep_cycle hfit hu
    have hroute := routeStep_cycle hr
    rcases hcheck with ⟨hcycle, hlen⟩ | ⟨hnext, hfree, hcycle⟩ | ⟨hnext, hdet, hcycle, hlen⟩
    · rcases hroute with ⟨hsame, -⟩ | ⟨⟨-, hb⟩, hset, hend⟩
      · exact absurd (hsame.trans hcycle) hne
      · rw [hlen] at hb
        have hset := hset.congr hcycle
        rcases hend with ⟨hconf, -⟩ | ⟨hinit, hlast⟩
        · have hlocked : s.session.cycle = .locked := hset.resolve_right fun hc => hne (hconf.trans hc.symm)
          exact .inr (.inr (.inl ⟨hlocked, hconf, hb⟩))
        · exact .inr (.inr (.inr ⟨hset.ne_searching, fun hc => absurd hc hset.ne_detecting, by rw [hinit]; rfl, hb,
            hlast⟩))
    · rcases hroute with ⟨hsame, -⟩ | ⟨-, hset, -⟩
      · have hsearch := hfree.resolve_right fun hc => hne ((hsame.trans hcycle).trans hc.symm)
        exact .inl ⟨hsearch, hsame.trans hcycle, hnext⟩
      · exact absurd hcycle hset.ne_detecting
    · rcases hroute with ⟨hsame, -⟩ | ⟨⟨-, hb⟩, -, ⟨hconf, -⟩ | ⟨hinit, hlast⟩⟩
      · exact .inr (.inl ⟨hdet, hnext, .inl (hsame.trans hcycle)⟩)
      · exact .inr (.inl ⟨hdet, hnext, .inr hconf⟩)
      · rw [hlen] at hb
        exact .inr (.inr (.inr ⟨by simp [hdet], fun _ => hnext, by rw [hinit]; rfl, hb, hlast⟩))
  · cases hx.symm.trans h
    exact absurd (congrArg Session.cycle (rejectPush_session s)) hne

/-- Settles O52: RESET clears, PUSH changes STATE as R148 lists, and the other commands keep the session. -/
theorem stateChangesOnlyAsListed : Obligations.StateChangesOnlyAsListed := by
  intro i s t h hne
  cases i with
  | push => exact .inr ⟨rfl, execPush_cycle h hne⟩
  | reset code => cases h; exact .inl ⟨⟨code, rfl⟩, rfl⟩
  | nop => cases h; exact absurd rfl hne
  | decode => cases h; exact absurd rfl hne
  | decodeG => cases h; exact absurd rfl hne
  | setPhase phase => cases h; exact absurd rfl hne
  | detect => cases h; exact absurd rfl hne

end Sys2Proof.Machine
end

section
/-! PROOFS. What PUSH leaves unchanged, accepted and rejected (R134, R136, R146). -/

namespace Sys2Proof.Machine

theorem checkpointNext_of_atCheckpoint {s : State} (hfit : CountersFit s)
    (h : AtCheckpoint (countPush s).session) : CheckpointNext s := ((atCheckpoint_countPush hfit).mp h).2

/-- The detection step writes `DET_*` at a checkpoint only (R117, R136). -/
theorem checkpointStep_det {s u : State} {b : Bool} (h : checkpointStep (countPush s) = some (u, b))
    (hc : ¬ AtCheckpoint (countPush s).session) : u.det = s.det := by
  rcases checkpointStep_cases h with ⟨-, rfl, -⟩ | ⟨hat, -⟩
  · rfl
  · exact absurd hat hc

theorem not_atCheckpoint_of_settled {x : Session} (h : x.Settled) : ¬ AtCheckpoint x :=
  fun hat => h.ne_detecting (hat.1.resolve_left h.ne_searching)

/-- What an accepted push does to `TOTAL` and to `DET_*` (R136). -/
theorem tentativePush_total_det {s : State} {t : Tentative} (h : tentativePush s = some t) :
    t.state.total = s.total + 1 ∧ (¬ CheckpointNext s → t.state.det = s.det) ∧
      (s.session.Settled → t.state.det = s.det) := by
  obtain ⟨hfit, u, b, hu, hr⟩ := tentativePush_eq_some.mp h
  have hdet : ¬ AtCheckpoint (countPush s).session → t.state.det = s.det := fun hc => by
    have hroute : t.state.det = u.det := (congrArg State.det (routeStep_frame hr) :)
    exact hroute.trans (checkpointStep_det hu hc)
  refine ⟨?_, fun hc => hdet (mt (checkpointNext_of_atCheckpoint hfit) hc),
    fun hset => hdet (not_atCheckpoint_of_settled hset)⟩
  rw [routeStep_frame hr, checkpointStep_frame hu]
  rfl

/-- Settles O47, by the two outcomes of a push: the frame of the accepted one, and the rejection written out. -/
theorem pushFrame : Obligations.PushFrame := by
  intro s t h
  rcases execPush_cases s with ⟨v, hv, hx⟩ | ⟨-, hx⟩
  · cases hx.symm.trans h
    obtain ⟨htotal, hdet, hsettled⟩ := tentativePush_total_det hv
    have hframe := tentativePush_frame hv
    exact ⟨(congrArg State.inst hframe :), (congrArg State.mag hframe :), (congrArg State.phase hframe :),
      (congrArg State.dec hframe :), (congrArg State.errIll hframe :), (congrArg State.errBus hframe :),
      (congrArg State.pending hframe :), .inl ⟨rfl, (congrArg State.errOvf hframe :), htotal, hdet, hsettled⟩⟩
  · cases hx.symm.trans h
    exact ⟨rfl, rfl, rfl, rfl, rfl, rfl, rfl, .inr ⟨rfl, rfl, rfl, rfl, rfl, rfl, rfl, rfl⟩⟩

end Sys2Proof.Machine
end

section
/-! PROOFS. The counts of an update and of a replay (R130, R137), and the counts and latencies that every step keeps
(R141, R149, R217). -/

namespace Sys2Proof.Machine

/-! ### Counts -/

theorem updatedPosition_count (p : Params) {q : Position} {m : Mags} (h : UpdateFits q m) :
    (updatedPosition p q m).count.toNat = q.count.toNat + 1 := by
  have := h.2
  simp only [updatedPosition]
  bv_omega

/-- An update inside the file counts one vector at its position and none elsewhere. -/
theorem updateAt_count {p : Params} {f f' : PosFile} {k : Nat} {m : Mags} (hk : k < 30)
    (h : updateAt p f k m = some f') (i : Fin 30) :
    f'[i].count.toNat = f[i].count.toNat + if k = i then 1 else 0 := by
  by_cases hki : k = i.val
  · obtain ⟨hfit, hq⟩ := updatePosition_eq_some.mp (updateAt_get_self h hk)
    simp only [hki] at hfit hq
    rw [if_pos hki, Fin.getElem_fin, hq, updatedPosition_count p hfit]
    rfl
  · rw [if_neg hki, Fin.getElem_fin, updateAt_get_ne h i.val i.isLt (Ne.symm hki)]
    rfl

/-- How many of the `n` absolute indices from `j` on go to position `i` modulo `L` (R132). -/
def hits (L j n i : Nat) : Nat := (List.range' j n).countP fun a => a % L == i

theorem hits_succ (L j n i : Nat) : hits L j (n + 1) i = hits L (j + 1) n i + if j % L = i then 1 else 0 := by
  simp [hits, List.range'_succ, List.countP_cons]

theorem hits_add (L j a b i : Nat) : hits L j (a + b) i = hits L j a i + hits L (j + a) b i := by
  simp [hits, ← List.range'_append_1, List.countP_append]

/-- A replay counts at each position the vectors that go there (R137). -/
theorem replay_count {p : Params} {L : Nat} (hL : 1 ≤ L) (hL' : L ≤ 30) {j : Nat} {ms : List Mags} {f f' : PosFile}
    (h : replay p L j ms f = some f') (i : Fin 30) :
    f'[i].count.toNat = f[i].count.toNat + hits L j ms.length i := by
  induction ms generalizing j f with
  | nil => cases h; rfl
  | cons m ms ih =>
    obtain ⟨g, hg, hr⟩ := replay_cons_eq_some.mp h
    rw [ih hr, updateAt_count ((Nat.mod_lt j hL).trans_le hL') hg, List.length_cons, hits_succ]
    omega

/-- Among `L` consecutive indices one is `i` modulo `L`. -/
theorem exists_mod_eq {L i : Nat} (hi : i < L) (j : Nat) : ∃ a, j ≤ a ∧ a < j + L ∧ a % L = i := by
  have hdiv := Nat.div_add_mod j L
  have hlt := Nat.mod_lt j (Nat.zero_lt_of_lt hi)
  have hmod : ∀ c, (L * c + i) % L = i := fun c => by rw [Nat.mul_add_mod, Nat.mod_eq_of_lt hi]
  by_cases hle : j % L ≤ i
  · exact ⟨L * (j / L) + i, by omega, by omega, hmod _⟩
  · exact ⟨L * (j / L + 1) + i, by rw [Nat.mul_succ]; omega, by rw [Nat.mul_succ]; omega, hmod _⟩

theorem one_le_hits {L i : Nat} (hi : i < L) (j : Nat) : 1 ≤ hits L j L i := by
  obtain ⟨a, hlo, hhi, ha⟩ := exists_mod_eq hi j
  exact List.countP_pos_iff.mpr ⟨a, List.mem_range'_1.mpr ⟨hlo, hhi⟩, by simpa using ha⟩

/-- Twice `L` indices go at least twice to every active position. -/
theorem two_le_hits {L i n : Nat} (hi : i < L) (hn : 2 * L ≤ n) (j : Nat) : 2 ≤ hits L j n i := by
  obtain ⟨r, rfl⟩ := Nat.exists_eq_add_of_le hn
  have h1 := one_le_hits hi j
  have h2 := one_le_hits hi (j + L)
  rw [Nat.two_mul, hits_add, hits_add]
  omega

/-! ### The operations -/

/-- With a length held, two repeats at every active position and 60 pushes; and the invariants it needs. -/
structure State.LengthEarned (s : State) : Prop where
  inv : s.Inv
  counts : CountsAtLeastTwo s.session
  latency : s.session.cycle ≠ .searching → 60 ≤ s.session.seq.toNat

theorem Session.initial_countsAtLeastTwo : CountsAtLeastTwo Session.initial :=
  fun i hi => absurd hi (Nat.not_lt_zero i.val)

/-- From push 60 on the history holds at least 60 vectors, whatever `HIST_CAP` (R40 (f), R212). -/
theorem sixty_le_hist {s : State} (h : HistLengthInv s.params s.session) (hseq : 60 ≤ s.session.seq.toNat) :
    60 ≤ s.session.hist.length := by
  unfold HistLengthInv at h
  cases hcap : s.params.histCap with
  | none =>
    rw [hcap] at h
    exact hseq.trans_eq h.symm
  | some cap =>
    rw [hcap] at h
    exact (le_min hseq (s.histCapValid cap hcap).1).trans_eq h.symm

/-- The replay of an adopt runs over at least 60 vectors, and its length is at most 30 (R135, R137). -/
theorem State.LengthEarned.adopt {s : State} (h : s.LengthEarned) (hc : AtCheckpoint s.session)
    (hok : (detectCore s.historyOperand).status = .ok) {y : Session}
    (hy : adopt s.params (detectCore s.historyOperand).lstar s.session = some y) :
    ({ s with session := y } : State).LengthEarned where
  inv := h.inv.adopt hok hy
  counts := by
    obtain ⟨hlo, hhi⟩ := (detectCore_lstar s.historyOperand).1 hok
    have hhist := sixty_le_hist h.inv.session.hist_length hc.2.2
    obtain ⟨f, hf, rfl⟩ := adopt_eq_some.mp hy
    intro i hi
    have hi : i.val < (detectCore s.historyOperand).lstar := by simpa using hi.trans_le (Nat.mod_le _ _)
    exact ((two_le_hits hi (by omega) _).trans (Nat.le_add_left _ _)).trans_eq (replay_count (by omega) hhi hf i).symm
  latency := fun _ => by
    obtain ⟨f, -, rfl⟩ := adopt_eq_some.mp hy
    exact hc.2.2

theorem routedFile_count_le {s : State} {adopted : Bool} {j : Nat} {f : PosFile} (h : s.session.Inv s.params)
    (hlen : s.session.len ≠ 0#5) (hf : routedFile adopted j s = some f) (i : Fin 30) :
    s.session.pos[i].count.toNat ≤ f[i].count.toNat := by
  obtain ⟨hlo, hhi⟩ := h.len_range hlen
  cases adopted with
  | true => cases hf; exact le_refl _
  | false =>
    have hlt := Nat.mod_lt j (by omega : 0 < s.session.len.toNat)
    rw [updateAt_count (by omega) hf i]
    exact Nat.le_add_right _ _

theorem State.lengthEarned_keptByOperations : KeptByOperations State.LengthEarned where
  onHost h := { h with inv := State.inv_keptByOperations.onHost h.inv }
  onSetPhase h := { h with inv := State.inv_keptByOperations.onSetPhase h.inv }
  onDecode h := { h with inv := State.inv_keptByOperations.onDecode h.inv }
  onDetect h := { h with inv := h.inv.detect }
  onCount {s} hfit h := { h with
    inv := h.inv.count hfit
    latency := fun hc => (h.latency hc).trans ((Nat.le_succ _).trans_eq (toNat_seq_add_one hfit).symm) }
  onAdopt hc hok hy h := h.adopt hc hok hy
  onConfirm {s y} hc hne hy h := by
    have hinv := State.inv_keptByOperations.onConfirm hc hne hy h.inv
    obtain ⟨-, rfl⟩ := confirm_eq_some.mp hy
    exact { h with inv := hinv, latency := fun _ => h.latency hne }
  onRoute hlen hf h :=
    { h with
      inv := State.inv_keptByOperations.onRoute hlen hf h.inv
      counts := fun i hi => (h.counts i hi).trans (routedFile_count_le h.inv.session hlen hf i) }
  onRing hlen h := { h with inv := State.inv_keptByOperations.onRing hlen h.inv }
  onCopy hdue h :=
    { h with inv := h.inv.copy hdue.1, latency := fun _ => h.latency hdue.1.ne_searching }
  onSoftReset h :=
    { inv := State.inv_keptByOperations.onSoftReset h.inv
      counts := Session.initial_countsAtLeastTwo
      latency := fun hne => absurd rfl hne }
  onHardwareReset h :=
    { inv := State.inv_keptByOperations.onHardwareReset h.inv
      counts := Session.initial_countsAtLeastTwo
      latency := fun hne => absurd rfl hne }

/-! ### The lock -/

/-- An accepted push that leaves a settled session found one, or locked at a checkpoint later than the 60th push
(R138, R149). -/
theorem ninety_le_of_execPush {s t : State} (hlat : LatencyInv s.session) (h : execPush s = .next t)
    (ht : t.session.Settled) : 90 ≤ t.session.seq.toNat := by
  obtain ⟨hlen60, hlock90⟩ := hlat
  rcases execPush_cases s with ⟨v, hv, hx⟩ | ⟨-, hx⟩
  · cases hx.symm.trans h
    simp only [respond_session] at ht ⊢
    obtain ⟨hfit, u, b, hu, hr⟩ := tentativePush_eq_some.mp hv
    have hseq := toNat_seq_add_one hfit
    obtain ⟨huseq, hcheck⟩ := checkpointStep_cycle hfit hu
    have hroute : u.session.Settled ∧ v.state.session.seq = u.session.seq := by
      rcases routeStep_cycle hr with ⟨hcycle, hv⟩ | ⟨-, hset, ⟨-, hv⟩ | ⟨hinit, -⟩⟩
      · exact ⟨ht.congr hcycle, hv⟩
      · exact ⟨hset, hv⟩
      · exact absurd (congrArg Session.cycle hinit) ht.ne_searching
    obtain ⟨hset, hvseq⟩ := hroute
    rw [hvseq, huseq, hseq]
    rcases hcheck with ⟨hcycle, -⟩ | ⟨-, -, hcycle⟩ | ⟨⟨hmod, -⟩, hdet, -⟩
    · exact (hlock90 (hset.congr hcycle)).trans (Nat.le_succ _)
    · exact absurd hcycle hset.ne_detecting
    · have := hlen60 (by simp [hdet])
      omega
  · cases hx.symm.trans h
    rw [rejectPush_session] at ht ⊢
    exact hlock90 ht

/-- Settles O58: the counts and the 60 pushes operation by operation, the 90 pushes from what a push does to STATE. -/
theorem everyStepKeepsCountsAndLatency : Obligations.EveryStepKeepsCountsAndLatency := by
  intro s t hinv hcounts hlat ht
  have hearned := State.lengthEarned_keptByOperations.kept_step ht ⟨hinv, hcounts, hlat.1⟩
  refine ⟨hearned.counts, hearned.latency, fun hset => ?_⟩
  rcases step_session ht with hsame | hclear | ⟨rest, hpush⟩
  · rw [hsame] at hset ⊢
    exact hlat.2 hset
  · exact absurd (congrArg Session.cycle hclear) hset.ne_searching
  · exact ninety_le_of_execPush (s := { s with pending := rest }) hlat hpush hset

end Sys2Proof.Machine
end

section
/-! PROOFS. What an update stores, and that repeats of one vector decode as the first (R130, R133, R134, R150). -/

namespace Sys2Proof.Machine

/-! ### The fields of an updated position -/

@[simp] theorem updatedPosition_sum (p : Params) (q : Position) (m : Mags) :
    (updatedPosition p q m).sum = addMags q.sum m := rfl

/-- The ungated decode of the sum, read as a character (R130, R131). -/
theorem updatedPosition_char (p : Params) (q : Position) (m : Mags) :
    (updatedPosition p q m).char = lookupChar p.codeTable (codeword (natsOf (addMags q.sum m))) := by
  have hwidth : ∀ c : Byte, (c.setWidth 9).setWidth 8 = c := fun c => by simp
  have hchar := decodeCore_char_of_ungated (p := p) (v := natsOf (addMags q.sum m)) (g := false) rfl
  exact (congrArg (BitVec.setWidth 8) hchar).trans (hwidth _)

/-- The stored confidence loses no bit (R9, R90). -/
theorem toNat_updatedPosition_conf (p : Params) (q : Position) (m : Mags) :
    (updatedPosition p q m).conf.toNat = confidence (natsOf (addMags q.sum m)) := by
  rw [updatedPosition_conf]
  exact toNat_ofNat_of_lt ((confidence_le (natsOf_length _)).trans_lt (by decide))

theorem toNat_addMags {sum : Vector (BitVec 64) 8} {m : Mags} {i : Fin 8}
    (h : sum[i].toNat + m[i].toNat < 2 ^ 64) : (addMags sum m)[i].toNat = sum[i].toNat + m[i].toNat := by
  have hwide : (m[i].setWidth 64).toNat = m[i].toNat := BitVec.toNat_setWidth_of_le (by decide)
  have hget : (addMags sum m)[i] = sum[i] + m[i].setWidth 64 := by simp [addMags]
  rw [hget, BitVec.toNat_add, hwide, Nat.mod_eq_of_lt h]

theorem flipped_iff {prev new : Byte} : flipped prev new = true ↔ new ≠ prev ∧ prev ≠ 0x3F#8 := by
  simp [flipped]

/-- Settles O32, field by field. -/
theorem updateAddsAndRedecodes : Obligations.UpdateAddsAndRedecodes := by
  intro p q m fits q'
  refine ⟨fun h => ?_, updatePosition_eq_none.mpr⟩
  exact ⟨updatePosition_eq_some.mpr ⟨h, rfl⟩, fun i => toNat_addMags (h.1 i), updatedPosition_count p h,
    updatedPosition_char p q m, toNat_updatedPosition_conf p q m, flipped_iff⟩

/-! ### Repeats of one vector (R150) -/

/-- The position holds `k` times the vector `m`, and decodes as `m` does. -/
structure Repeats (p : Params) (m : Mags) (k : Nat) (q : Position) : Prop where
  sum : ∀ i : Fin 8, q.sum[i].toNat = k * m[i].toNat
  count : q.count.toNat = k
  char : 1 ≤ k → q.char = lookupChar p.codeTable (codeword (natsOf m))
  conf : 1 ≤ k → q.conf = BitVec.ofNat 17 (confidence (natsOf m))

theorem Repeats.initial (p : Params) (m : Mags) : Repeats p m 0 Position.initial where
  sum := fun i => by simp
  count := rfl
  char := nofun
  conf := nofun

theorem Repeats.fits {p : Params} {m : Mags} {k : Nat} {q : Position} (h : Repeats p m k q) (hk : k + 1 < 2 ^ 32) :
    UpdateFits q m := by
  refine ⟨fun i => ?_, by rw [h.count]; exact hk⟩
  rw [h.sum i, ← Nat.succ_mul]
  calc (k + 1) * m[i].toNat ≤ (k + 1) * 2 ^ 32 := Nat.mul_le_mul_left _ m[i].isLt.le
    _ < 2 ^ 32 * 2 ^ 32 := Nat.mul_lt_mul_of_pos_right hk (by decide)
    _ = 2 ^ 64 := by decide

/-- The sum after one more repeat is the vector scaled, which decodes alike (R95 item 6). -/
theorem Repeats.update {p : Params} {m : Mags} {k : Nat} {q : Position} (h : Repeats p m k q) (hk : k + 1 < 2 ^ 32) :
    Repeats p m (k + 1) (updatedPosition p q m) := by
  have hfit := h.fits hk
  have hsum : ∀ i : Fin 8, (addMags q.sum m)[i].toNat = (k + 1) * m[i].toNat := fun i => by
    rw [toNat_addMags (hfit.1 i), h.sum i, Nat.succ_mul]
  have hscaled : natsOf (addMags q.sum m) = (natsOf m).map ((k + 1) * ·) := by
    refine List.ext_getElem (by simp) fun i hi _ => ?_
    have hi : i < 8 := by simpa using hi
    simpa [natsOf] using hsum ⟨i, hi⟩
  exact {
    sum := hsum
    count := by rw [updatedPosition_count p hfit, h.count]
    char := fun _ => by rw [updatedPosition_char, hscaled, codeword_scale k.succ_pos]
    conf := fun _ => by rw [updatedPosition_conf, hscaled, confidence_scale k.succ_pos] }

theorem exists_repeats (p : Params) (m : Mags) {k : Nat} (hk : k < 2 ^ 32) :
    ∃ q, (List.replicate k m).foldlM (updatePosition p) Position.initial = some q ∧ Repeats p m k q := by
  induction k with
  | zero => exact ⟨_, rfl, Repeats.initial p m⟩
  | succ k ih =>
    obtain ⟨q, hq, hr⟩ := ih (by omega)
    refine ⟨updatedPosition p q m, ?_, hr.update hk⟩
    rw [List.replicate_succ', List.foldlM_append, hq]
    simpa using updatePosition_eq_some.mpr ⟨hr.fits hk, rfl⟩

/-- Settles O33: `k` repeats and one repeat both decode as the vector itself. -/
theorem repeatsAreIdempotent : Obligations.RepeatsAreIdempotent := by
  intro p m k hk hlt
  obtain ⟨q, hq, hr⟩ := exists_repeats p m hlt
  have h0 := Repeats.initial p m
  have h1 := h0.update (by decide)
  exact ⟨q, updatedPosition p Position.initial m, hq, updatePosition_eq_some.mpr ⟨h0.fits (by decide), rfl⟩,
    (hr.char hk).trans (h1.char le_rfl).symm, (hr.conf hk).trans (h1.conf le_rfl).symm, hr.count⟩

end Sys2Proof.Machine
end

section
/-! PROOFS. The snapshot read through the window (R145): each field is taken back out of the number its
register reads. -/

namespace Sys2Proof.Machine

/-! ### Fields and lists taken back out -/

/-- A field of a word, from the word's number. -/
theorem extract_eq_of_toNat {a : Word} {lo w : Nat} {v : BitVec w} (h : a.toNat / 2 ^ lo % 2 ^ w = v.toNat) :
    a.extractLsb' lo w = v :=
  BitVec.eq_of_toNat_eq (by rw [BitVec.extractLsb'_toNat, Nat.shiftRight_eq_div_pow, h])

theorem extract_place_zero {w : Nat} (v : BitVec w) (h : w ≤ 32) : (place 0 v).extractLsb' 0 w = v :=
  extract_eq_of_toNat (by rw [toNat_place_zero v h, pow_zero, Nat.div_one, Nat.mod_eq_of_lt v.isLt])

theorem highWord_append_lowWord (v : BitVec 64) : highWord v ++ lowWord v = v := by
  refine BitVec.eq_of_toNat_eq ?_
  have hlow : v.toNat % 2 ^ 32 < 2 ^ 32 := Nat.mod_lt _ (by decide)
  rw [BitVec.toNat_append, toNat_highWord, toNat_lowWord, ← Nat.shiftLeft_add_eq_or_of_lt hlow, Nat.shiftLeft_eq,
    Nat.div_add_mod']

/-- A list read slot by slot from slots numbered from 0 on. -/
theorem map_take_finRange {α : Type} {n : Nat} {l : List α} (hl : l.length ≤ n) {g : Fin n → α}
    (h : ∀ (k : Fin n) (hk : k.val < l.length), g k = l[k.val]) :
    ((List.finRange n).take l.length).map g = l := by
  refine List.ext_getElem (by simp [hl]) fun k hk hk' => ?_
  simpa using h ⟨k, by omega⟩ hk'

/-! ### The records (R57) -/

/-- A byte of the text, out of its word (R51). -/
theorem extract_textWord (r : CopyRecord) (i : Nat) (b : Fin 4) :
    (textWord r i).extractLsb' (8 * b.val) 8 = r.text.toList.getD (4 * i + b.val) 0#8 := by
  refine extract_eq_of_toNat ?_
  rw [toNat_textWord]
  simp only [Finset.sum_range_succ, Finset.sum_range_zero]
  have h0 := (r.text.toList.getD (4 * i + 0) 0#8).isLt
  have h1 := (r.text.toList.getD (4 * i + 1) 0#8).isLt
  have h2 := (r.text.toList.getD (4 * i + 2) 0#8).isLt
  have h3 := (r.text.toList.getD (4 * i + 3) 0#8).isLt
  match b with
  | 0 => simp only [Fin.val_zero]; omega
  | 1 => simp only [Fin.val_one]; omega
  | 2 => simp only [Fin.val_two]; omega
  | 3 => show _ / 2 ^ (8 * 3) % 2 ^ 8 = (r.text.toList.getD (4 * i + 3) 0#8).toNat; omega

theorem textByte_of_record {s : State} {k : Fin 64} {r : CopyRecord} (hr : s.copies.log[k.val]? = some r)
    (hk : k.val < s.params.copyLogCap) (b : Fin 30) : textByte s k b = r.text[b] := by
  have hword := read_copyLog_of_record s hr hk ⟨5 + b.val / 4, by omega⟩
  rw [textByte, hword, recordWord_text r ⟨b.val / 4, by omega⟩]
  refine (extract_textWord r (b.val / 4) ⟨b.val % 4, Nat.mod_lt _ (by decide)⟩).trans ?_
  simp [Nat.div_add_mod]

/-- A record in the log is read back whole from its slot. -/
theorem recordView_of_record {s : State} {k : Fin 64} {r : CopyRecord} (hr : s.copies.log[k.val]? = some r)
    (hk : k.val < s.params.copyLogCap) : recordView s k = r := by
  have hword := read_copyLog_of_record s hr hk
  have htext : (Vector.ofFn fun b : Fin 30 => textByte s k b) = r.text := by
    refine Vector.ext fun b hb => ?_
    simpa using textByte_of_record hr hk ⟨b, hb⟩
  have hshared := ((ReadsBelow.place_zero r.len (by decide)).or_place 8 r.phase (by decide) (by decide)).toNat_eq
  have hlen : (recordWord r 2).extractLsb' 0 5 = r.len := extract_eq_of_toNat (by
    show (place 0 r.len ||| place 8 r.phase).toNat / _ % _ = _
    have := r.len.isLt
    omega)
  have hphase : (recordWord r 2).extractLsb' 8 8 = r.phase := extract_eq_of_toNat (by
    show (place 0 r.len ||| place 8 r.phase).toNat / _ % _ = _
    have := r.len.isLt
    have := r.phase.isLt
    omega)
  have hts : recordWord r 1 ++ recordWord r 0 = r.ts := highWord_append_lowWord r.ts
  have hmean : (recordWord r 3).extractLsb' 0 17 = r.mean := extract_place_zero r.mean (by decide)
  have hdepth : recordWord r 4 = r.depth := rfl
  simp only [recordView, hword, htext, hlen, hphase, hts, hmean, hdepth]

/-! ### The session's registers -/

section Registers

variable (s : State)

theorem extract_status : (Reg.status.read s).extractLsb' 0 2 = s.session.cycle.bits := by
  refine extract_eq_of_toNat ?_
  have hbits := s.session.cycle.bits.isLt
  rw [toNat_read_status, ← CycleState.toNat_bits]
  omega

theorem extract_session_len : (Reg.session.read s).extractLsb' 0 5 = s.session.len := by
  refine extract_eq_of_toNat ?_
  have hlen := s.session.len.isLt
  rw [toNat_read_session]
  omega

theorem extract_ringInfo (h : s.session.ring.length ≤ s.params.ringCap) :
    ((Reg.ringInfo.read s).extractLsb' 0 5).toNat = s.session.ring.length := by
  have hcap := s.ringCap_le
  rw [BitVec.extractLsb'_toNat, toNat_read_ringInfo s h]
  omega

theorem extract_copyInfo (h : s.copies.log.length ≤ s.params.copyLogCap) :
    ((Reg.copyInfo.read s).extractLsb' 0 7).toNat = s.copies.log.length := by
  have hcap := s.copyLogCap_le
  rw [BitVec.extractLsb'_toNat, toNat_read_copyInfo s h]
  omega

theorem positionView_eq (p : Fin 30) :
    positionView s p =
      { char := s.session.pos[p].char, conf := s.session.pos[p].conf, count := s.session.pos[p].count
        flip := s.session.pos[p].flip } := by
  have hnum := toNat_read_posA s p
  have hcharLt := s.session.pos[p].char.isLt
  have hconfLt := s.session.pos[p].conf.isLt
  have hflipLt := Bool.toNat_le s.session.pos[p].flip
  have hchar : ((Reg.posA p).read s).extractLsb' 0 8 = s.session.pos[p].char := extract_eq_of_toNat (by omega)
  have hconf : ((Reg.posA p).read s).extractLsb' 15 17 = s.session.pos[p].conf := extract_eq_of_toNat (by omega)
  have hflip : ((Reg.posA p).read s).getLsbD 8 = s.session.pos[p].flip := by
    have hbit : ((Reg.posA p).read s).toNat / 2 ^ 8 % 2 = s.session.pos[p].flip.toNat := by omega
    rw [BitVec.getLsbD, Nat.testBit_eq_decide_div_mod_eq, hbit]
    simp
  rw [positionView, hchar, hconf, hflip]
  rfl

theorem trend_eq (h : s.session.ring.length ≤ s.params.ringCap) :
    ((List.finRange 16).take s.session.ring.length).map (fun k => ((Reg.ringv k).read s).extractLsb' 0 17) =
      s.session.ring := by
  refine map_take_finRange (h.trans s.ringCap_le) fun k hk => ?_
  show (place 0 (s.session.ring.getD k.val 0#17)).extractLsb' 0 17 = _
  rw [extract_place_zero _ (by decide), List.getD_eq_getElem _ _ hk]

theorem recordViews_eq (h : s.copies.log.length ≤ s.params.copyLogCap) :
    ((List.finRange 64).take s.copies.log.length).map (recordView s) = s.copies.log :=
  map_take_finRange (h.trans s.copyLogCap_le) fun _ hk =>
    recordView_of_record (List.getElem?_eq_getElem hk) (hk.trans_le h)

end Registers

theorem perPosition_eq (s : State) (L : Nat) :
    ((List.finRange 30).take L).map (positionView s) =
      (s.session.pos.toList.take L).map fun q =>
        { char := q.char, conf := q.conf, count := q.count, flip := q.flip } := by
  refine List.ext_getElem (by simp) fun k hk _ => ?_
  simp [positionView_eq]

/-- Settles O14, field by field; the invariants bound the counts by the slots. -/
theorem snapshotReadsTheSession : Obligations.SnapshotReadsTheSession := by
  intro s hs
  have hring := hs.session.ring_bounded
  have hlog := hs.log_bounded
  have hrepeat : Reg.repeatCount.read s = BitVec.ofNat 32 s.repeatCount :=
    BitVec.eq_of_toNat_eq ((toNat_read_repeatCount s).trans (toNat_ofNat_of_lt (minCount_lt _ _)).symm)
  have hmean : (Reg.meanConf.read s).extractLsb' 0 17 = s.session.meanConf := extract_place_zero _ (by decide)
  rw [snapshot, extract_status, extract_session_len, extract_ringInfo s hring, extract_copyInfo s hlog, hrepeat, hmean,
    trend_eq s hring, recordViews_eq s hlog, perPosition_eq]

end Sys2Proof.Machine
end

section
/-! PROOFS. The detection and the routing of a push, forward: what each answers, from the state before the push
(R135..R140). -/

namespace Sys2Proof.Machine

/-! ### The detection step -/

theorem detectCore_countPush (s : State) : detectCore (countPush s).historyOperand = nextDetection s := rfl

/-- A detection with a length is OK (R118). -/
theorem status_ok_of_lstar_ne_zero {H : List (List Nat)} (h : (detectCore H).lstar ≠ 0) :
    (detectCore H).status = .ok :=
  Decidable.byContradiction fun hne => h ((detectCore_lstar H).2 hne)

theorem toNat_ofNat_lstar {s : State} (hok : (nextDetection s).status = .ok) :
    (BitVec.ofNat 5 (nextDetection s).lstar).toNat = (nextDetection s).lstar :=
  toNat_ofNat_of_lt (((detectCore_lstar _).1 hok).2.trans_lt (by decide))

theorem toNat_len_ne_zero {x : Session} (h : x.len ≠ 0#5) : x.len.toNat ≠ 0 :=
  fun h0 => h (BitVec.eq_of_toNat_eq h0)

theorem Session.Inv.len_ne_zero {p : Params} {x : Session} (h : x.Inv p) (hx : x.cycle ≠ .searching) : x.len ≠ 0#5 :=
  mt h.searching_iff.mpr hx

theorem checkpointStep_of_no_checkpoint {s : State} (hfit : CountersFit s)
    (h : s.session.Settled ∨ ¬ CheckpointNext s) : checkpointStep (countPush s) = some (countPush s, false) := by
  rcases h with hset | hc
  · exact checkpointStep_settled hset
  · rw [checkpointStep, if_neg (mt (checkpointNext_of_atCheckpoint hfit) hc)]

/-- At a checkpoint of an unsettled session the detector's result is taken (R136). -/
theorem checkpointStep_of_checkpoint {s : State} (hfit : CountersFit s)
    (hx : s.session.cycle = .searching ∨ s.session.cycle = .detecting) (hc : CheckpointNext s) :
    checkpointStep (countPush s) =
      (takeDetection s.params (nextDetection s) (countPush s).session).map fun yb =>
        ({ writeDetect (nextDetection s) (countPush s) with session := yb.1 }, yb.2) := by
  rw [checkpointStep, if_pos ((atCheckpoint_countPush hfit).mpr ⟨hx, hc⟩), detectCore_countPush]
  rfl

/-- The state after an adopting checkpoint, its replay giving `f` (R137). -/
def adoptedPush (s : State) (f : PosFile) : State :=
  { writeDetect (nextDetection s) (countPush s) with
    session := { (countPush s).session with
      len := BitVec.ofNat 5 (nextDetection s).lstar
      pos := f
      confCnt := 1#2
      ring := []
      cycle := .detecting } }

theorem checkpointStep_of_adopts {s : State} (hfit : CountersFit s) (h : AdoptsNext s)
    (hok : (nextDetection s).status = .ok) :
    checkpointStep (countPush s) = (nextReplay s).map fun f => (adoptedPush s f, true) := by
  obtain ⟨hc, hx⟩ := h
  have htest : (countPush s).session.cycle = .searching ∨
      (nextDetection s).lstar ≠ (countPush s).session.len.toNat := hx.imp_right And.right
  have hbase : (countPush s).session.histBase = s.session.seq.toNat + 1 - (nextHistory s).length := by
    rw [← toNat_seq_add_one hfit]
    rfl
  rw [checkpointStep_of_checkpoint hfit (hx.imp_right And.left) hc, takeDetection, if_pos hok, if_pos htest, adopt,
    hbase, Option.map_map, Option.map_map]
  rfl

theorem checkpointStep_of_confirms {s : State} (hfit : CountersFit s) (h : ConfirmsNext s)
    (hlen : s.session.len ≠ 0#5) :
    checkpointStep (countPush s) = (confirm (countPush s).session).map fun y =>
      ({ writeDetect (nextDetection s) (countPush s) with session := y }, false) := by
  obtain ⟨hx, hc, hsame⟩ := h
  have hok : (nextDetection s).status = .ok :=
    status_ok_of_lstar_ne_zero fun h0 => toNat_len_ne_zero hlen (hsame.symm.trans h0)
  have htest : ¬ ((countPush s).session.cycle = .searching ∨
      (nextDetection s).lstar ≠ (countPush s).session.len.toNat) := by
    rw [not_or, not_not]
    exact ⟨fun hs => (nomatch hx.symm.trans hs), hsame⟩
  rw [checkpointStep_of_checkpoint hfit (.inr hx) hc, takeDetection, if_pos hok, if_neg htest, Option.map_map]
  rfl

/-- The state with which a push of a session that is settled, or that this push locks, goes to the routing (R138). -/
def settledPush (s : State) : State :=
  { countPush s with
    det := nextDet s
    session := { (countPush s).session with
      cycle := if s.session.cycle = .detecting then .locked else s.session.cycle
      confCnt := 2#2 } }

theorem checkpointStep_of_settled_or_confirms {s : State} (hinv : s.Inv) (hfit : CountersFit s)
    (h : s.session.Settled ∨ ConfirmsNext s) : checkpointStep (countPush s) = some (settledPush s, false) := by
  rcases h with hset | hconf
  · rw [checkpointStep_of_no_checkpoint hfit (.inl hset), settledPush, nextDet, if_neg hset.ne_detecting,
      if_neg hset.ne_detecting, ← hinv.session.settled_count hset]
    rfl
  · have hx := hconf.1
    have hlen := hinv.session.len_ne_zero (by simp [hx])
    have hcount : (countPush s).session.confCnt = 1#2 := hinv.session.detecting_count hx
    rw [checkpointStep_of_confirms hfit hconf hlen, settledPush, nextDet, if_pos hx, if_pos hx, confirm, hcount]
    rfl

/-! ### The routing -/

theorem routeStep_of_no_length {b : Bool} {j : Nat} {u : State} (h : u.session.len = 0#5) :
    routeStep b j u = some ⟨u, none, false⟩ := by rw [routeStep, if_pos h]

theorem updateAt_of_fits {u : State} {i : Fin 30} (hfit : UpdateFits u.session.pos[i] u.mag) :
    updateAt u.params u.session.pos i.val u.mag = some (nextFile u i) :=
  (updateAt_eq_some i.isLt).mpr ⟨_, updatePosition_eq_some.mpr ⟨hfit, rfl⟩, rfl⟩

/-- Routing with the file it uses known; at a boundary the cycle ends (R139, R140). -/
theorem routeStep_of_file {b : Bool} {j : Nat} {u : State} {f : PosFile} (hlen : u.session.len ≠ 0#5)
    (hf : routedFile b j u = some f) :
    routeStep b j u = some (if AtBoundary u.session j then endOfCycle (withRouted f u)
      else ⟨withRouted f u, none, false⟩) := by
  rw [routeStep, if_neg hlen, hf]
  rfl

theorem routedFile_of_fits {u : State} {j : Nat} {i : Fin 30} (hi : i.val = j % u.session.len.toNat)
    (hfit : UpdateFits u.session.pos[i] u.mag) : routedFile false j u = some (nextFile u i) := by
  rw [routedFile, ← hi]
  exact updateAt_of_fits hfit

/-- An unsettled session ends a cycle with the ring alone (R142..R144). -/
theorem endOfCycle_of_not_settled {u : State} (h : ¬ u.session.Settled) :
    endOfCycle u = ⟨ringStep u, none, false⟩ := by
  have hcopy : copyStep (ringStep u) = (ringStep u, false) := if_neg fun hd => h hd.1
  have hcollapse : collapseStep (ringStep u) = (ringStep u, none) := if_neg fun hd => h hd.1
  rw [endOfCycle, hcopy, hcollapse]

/-! ### The whole push -/

/-- A push whose vector is routed away from a boundary. -/
theorem execPush_of_no_boundary {s u : State} {i : Fin 30} (hfit : CountersFit s)
    (hu : checkpointStep (countPush s) = some (u, false)) (hlen : u.session.len ≠ 0#5)
    (hi : i.val = s.session.seq.toNat % u.session.len.toNat) (hup : UpdateFits u.session.pos[i] u.mag)
    (hb : ¬ AtBoundary u.session s.session.seq.toNat) :
    execPush s = .next (respond .ok none false (withRouted (nextFile u i) u)) := by
  have hroute := routeStep_of_file hlen (routedFile_of_fits hi hup)
  rw [if_neg hb] at hroute
  exact execPush_of hfit hu hroute

/-- A push whose vector is routed to a boundary. -/
theorem execPush_of_boundary {s u : State} {i : Fin 30} (hfit : CountersFit s)
    (hu : checkpointStep (countPush s) = some (u, false)) (hlen : u.session.len ≠ 0#5)
    (hi : i.val = s.session.seq.toNat % u.session.len.toNat) (hup : UpdateFits u.session.pos[i] u.mag)
    (hb : AtBoundary u.session s.session.seq.toNat) :
    execPush s = .next (respond .ok (endOfCycle (withRouted (nextFile u i) u)).resetEvent
      (endOfCycle (withRouted (nextFile u i) u)).copyAppended (endOfCycle (withRouted (nextFile u i) u)).state) := by
  have hroute := routeStep_of_file hlen (routedFile_of_fits hi hup)
  rw [if_pos hb] at hroute
  exact execPush_of hfit hu hroute

/-- Settles O37: no checkpoint, and no length to route by. -/
theorem pushWhileSearchingCompletes : Obligations.PushWhileSearchingCompletes :=
  fun s _ hlen hc hfit =>
    execPush_of hfit (checkpointStep_of_no_checkpoint hfit (.inr hc)) (routeStep_of_no_length (u := countPush s) hlen)

/-- Settles O38: no checkpoint and no boundary, so routing is all. -/
theorem pushRoutesOneVector : Obligations.PushRoutesOneVector := by
  intro s i hlen hc hb hi hfit hup
  exact execPush_of_no_boundary (u := countPush s) hfit (checkpointStep_of_no_checkpoint hfit hc) hlen hi hup
    fun hat => hb hat.2

/-- Settles O40: the checkpoint confirms and locks, and the vector is routed. -/
theorem checkpointConfirmsAndLocks : Obligations.CheckpointConfirmsAndLocks := by
  intro s i hinv hx hc hb hi hfit hup r f hsame
  have hlen := hinv.session.len_ne_zero (by simp [hx])
  have hu := checkpointStep_of_settled_or_confirms hinv hfit (.inr ⟨hx, hc, hsame⟩)
  have hpush := execPush_of_no_boundary (u := settledPush s) hfit hu hlen hi hup fun hat => hb hat.2
  rw [settledPush, nextDet, if_pos hx, if_pos hx] at hpush
  exact hpush

theorem appendBounded_some {α : Type} (c : Nat) (l : List α) (x : α) :
    appendBounded (some c) l x = (if l.length = c then l.tail else l) ++ [x] := by
  simp [appendBounded, eq_comm]

/-- Settles O41: the boundary of an unsettled session appends to the ring, and nothing more. -/
theorem detectingBoundaryFillsRing : Obligations.DetectingBoundaryFillsRing := by
  intro s i hx hlen hc hb hi hfit hup f mc
  have hu := checkpointStep_of_no_checkpoint hfit (.inr hc)
  have hpush := execPush_of_boundary (u := countPush s) hfit hu hlen hi hup ⟨hlen, hb⟩
  have hfree : ¬ (withRouted (nextFile (countPush s) i) (countPush s)).session.Settled := fun hset =>
    hset.ne_detecting hx
  rw [endOfCycle_of_not_settled hfree, ringStep, appendBounded_some] at hpush
  exact hpush

end Sys2Proof.Machine
end

section
/-! PROOFS. Adopting pushes, overflowing pushes, and pushes with room (R134, R137, R146). -/

namespace Sys2Proof.Machine

/-! ### A replay of fewer than 2^32 vectors fits -/

/-- The position holds at most `n` vectors: so many repeats, and sums that so many magnitudes can reach (R7). -/
structure HoldsAtMost (n : Nat) (q : Position) : Prop where
  sum : ∀ k : Fin 8, q.sum[k].toNat ≤ n * (2 ^ 32 - 1)
  count : q.count.toNat ≤ n

theorem HoldsAtMost.initial : HoldsAtMost 0 Position.initial where
  sum := fun k => by simp
  count := Nat.le_refl 0

theorem HoldsAtMost.mono {n : Nat} {q : Position} (h : HoldsAtMost n q) : HoldsAtMost (n + 1) q where
  sum := fun k => (h.sum k).trans (Nat.mul_le_mul_right _ n.le_succ)
  count := h.count.trans n.le_succ

theorem HoldsAtMost.fits {n : Nat} {q : Position} (h : HoldsAtMost n q) (hn : n + 1 < 2 ^ 32) (m : Mags) :
    UpdateFits q m := by
  refine ⟨fun k => ?_, ?_⟩
  · have := h.sum k
    have := m[k].isLt
    omega
  · have := h.count
    omega

theorem HoldsAtMost.update {n : Nat} {q : Position} (h : HoldsAtMost n q) (hn : n + 1 < 2 ^ 32) (p : Params)
    (m : Mags) : HoldsAtMost (n + 1) (updatedPosition p q m) where
  sum := fun k => by
    have hsum := toNat_addMags ((h.fits hn m).1 k)
    have := h.sum k
    have := m[k].isLt
    rw [updatedPosition_sum, hsum]
    omega
  count := by
    have := h.count
    rw [updatedPosition_count p (h.fits hn m)]
    omega

theorem exists_replay {p : Params} {L : Nat} (hL : 1 ≤ L) (hL' : L ≤ 30) {n j : Nat} {ms : List Mags} {f : PosFile}
    (hf : ∀ k (hk : k < 30), HoldsAtMost n f[k]) (hn : n + ms.length < 2 ^ 32) :
    ∃ f', replay p L j ms f = some f' := by
  induction ms generalizing n j f with
  | nil => exact ⟨f, rfl⟩
  | cons m ms ih =>
    rw [List.length_cons] at hn
    have hj : j % L < 30 := (Nat.mod_lt j hL).trans_le hL'
    have hn1 : n + 1 < 2 ^ 32 := by omega
    have hq := updatePosition_eq_some (p := p).mpr ⟨(hf _ hj).fits hn1 m, rfl⟩
    have hg := (updateAt_eq_some hj).mpr ⟨_, hq, rfl⟩
    have hheld := updateAt_forall (P := HoldsAtMost (n + 1)) hg (fun k hk => (hf k hk).mono)
    rw [replay, hg, Option.bind_some]
    refine ih (n := n + 1) (fun k hk => ?_) (by omega)
    by_cases hkj : j % L = k
    · subst hkj
      simpa using (hf _ hj).update hn1 p m
    · rw [Vector.getElem_set_ne hj hk hkj]
      exact (hf k hk).mono

/-! ### The history of the push -/

theorem sixty_le_nextHistory {s : State} (hinv : s.Inv) (hfit : CountersFit s) (hc : CheckpointNext s) :
    60 ≤ (nextHistory s).length :=
  sixty_le_hist (s := countPush s) (hinv.count hfit).session.hist_length
    (hc.2.trans_eq (toNat_seq_add_one hfit).symm)

theorem nextDetection_status_ok {s : State} (h : 6 ≤ (nextHistory s).length) : (nextDetection s).status = .ok := by
  rw [detectCore_status, if_neg]
  rw [List.length_map]
  omega

/-- A finite `HIST_CAP` keeps the history below 2^32 entries (R40 (f), R212). -/
theorem nextHistory_length_lt {s : State} (hinv : s.Inv) (hfit : CountersFit s) (hcap : s.params.histCap ≠ none) :
    (nextHistory s).length < 2 ^ 32 := by
  obtain ⟨cap, hcap⟩ := Option.ne_none_iff_exists'.mp hcap
  have hlen := (hinv.count hfit).session.hist_length
  have hcap' : (countPush s).params.histCap = some cap := hcap
  have hle := (s.histCapValid cap hcap).2
  unfold HistLengthInv at hlen
  rw [hcap'] at hlen
  have hmin : (nextHistory s).length = min (countPush s).session.seq.toNat cap := hlen
  omega

theorem exists_nextReplay {s : State} (hok : (nextDetection s).status = .ok) (h : (nextHistory s).length < 2 ^ 32) :
    ∃ f, nextReplay s = some f := by
  obtain ⟨hlo, hhi⟩ := (detectCore_lstar _).1 hok
  refine exists_replay (n := 0) (by omega) hhi (fun k hk => ?_) (by omega)
  rw [PosFile.initial_get k hk]
  exact HoldsAtMost.initial

/-! ### Adopting -/

theorem execPush_of_none {s : State} (h : tentativePush s = none) : execPush s = .next (rejectPush s) := by
  rw [execPush, h]

theorem execPush_of_adopts {s : State} (hfit : CountersFit s) (h : AdoptsNext s)
    (hok : (nextDetection s).status = .ok) {f : PosFile} (hf : nextReplay s = some f) :
    execPush s = .next (respond .ok none false
      (if s.session.seq.toNat % (nextDetection s).lstar = (nextDetection s).lstar - 1
        then ringStep (withRouted f (adoptedPush s f)) else withRouted f (adoptedPush s f))) := by
  have hstar := toNat_ofNat_lstar hok
  have hrange := (detectCore_lstar _).1 hok
  have hu : checkpointStep (countPush s) = some (adoptedPush s f, true) := by
    rw [checkpointStep_of_adopts hfit h hok, hf]
    rfl
  have hlen : (adoptedPush s f).session.len ≠ 0#5 := fun h0 => by
    have hzero : (nextDetection s).lstar = 0 := hstar.symm.trans (congrArg BitVec.toNat h0)
    exact absurd (hrange.1.trans_eq hzero) (by decide)
  have hfree : ¬ (withRouted f (adoptedPush s f)).session.Settled := fun hset => hset.ne_detecting rfl
  have hat : AtBoundary (adoptedPush s f).session s.session.seq.toNat ↔
      s.session.seq.toNat % (nextDetection s).lstar = (nextDetection s).lstar - 1 := by
    have hb : (adoptedPush s f).session.len.toNat = (nextDetection s).lstar := hstar
    rw [AtBoundary, hb]
    exact and_iff_right hlen
  have hroute := routeStep_of_file (b := true) (j := s.session.seq.toNat) (f := f) hlen rfl
  by_cases hb : s.session.seq.toNat % (nextDetection s).lstar = (nextDetection s).lstar - 1
  · rw [if_pos (hat.mpr hb), endOfCycle_of_not_settled hfree] at hroute
    rw [if_pos hb]
    exact execPush_of hfit hu hroute
  · rw [if_neg (mt hat.mp hb)] at hroute
    rw [if_neg hb]
    exact execPush_of hfit hu hroute

/-- An adopting push whose replay overflows is rejected (R134). -/
theorem tentativePush_of_overflowing_replay {s : State} (h : AdoptsNext s) (hok : (nextDetection s).status = .ok)
    (hf : nextReplay s = none) : tentativePush s = none := by
  by_cases hfit : CountersFit s
  · rw [tentativePush, if_pos hfit, checkpointStep_of_adopts hfit h hok, hf]
    rfl
  · rw [tentativePush, if_neg hfit]

theorem withRouted_adoptedPush {s : State} (hok : (nextDetection s).status = .ok) (f : PosFile) :
    withRouted f (adoptedPush s f) = { adoptedPush s f with
      session.meanConf := BitVec.ofNat 17 (cycleMean f (nextDetection s).lstar) } := by
  have hlen : (adoptedPush s f).session.len.toNat = (nextDetection s).lstar := toNat_ofNat_lstar hok
  rw [withRouted, hlen]
  rfl

/-- An adopt leaves the ring empty, so a boundary of the same push is its first value (R137, R142). -/
theorem ringStep_adoptedPush {s : State} (hok : (nextDetection s).status = .ok) (f : PosFile) :
    ringStep (withRouted f (adoptedPush s f)) = { withRouted f (adoptedPush s f) with
      session.ring := [BitVec.ofNat 17 (cycleMean f (nextDetection s).lstar)] } := by
  have hlen : (withRouted f (adoptedPush s f)).session.len.toNat = (nextDetection s).lstar := toNat_ofNat_lstar hok
  have hring : (withRouted f (adoptedPush s f)).session.ring = [] := rfl
  rw [ringStep, hlen, hring, appendBounded_some]
  simp

/-- Settles O39: the adopted length is that of an OK detection, and the ring starts empty. -/
theorem checkpointAdoptsAndReplays : Obligations.CheckpointAdoptsAndReplays := by
  intro s hinv hadopts hfit r
  have hhist := sixty_le_nextHistory hinv hfit hadopts.1
  have hok := nextDetection_status_ok (s := s) (by omega)
  refine ⟨nextHistory_length_lt hinv hfit, exists_nextReplay hok, fun f hf => ?_, fun hf => ?_⟩
  · refine (execPush_of_adopts hfit hadopts hok hf).trans ?_
    by_cases hb : s.session.seq.toNat % (nextDetection s).lstar = (nextDetection s).lstar - 1
    · rw [if_pos hb, if_pos hb, ringStep_adoptedPush hok, withRouted_adoptedPush hok]
      rfl
    · rw [if_neg hb, if_neg hb, withRouted_adoptedPush hok]
      rfl
  · exact execPush_of_none (tentativePush_of_overflowing_replay hadopts hok hf)

/-! ### Overflow -/

/-- Without an adopt, the detection step leaves what the routing updates. -/
theorem checkpointStep_of_no_adopt {s u : State} {b : Bool} (hfit : CountersFit s) (hlen : s.session.len ≠ 0#5)
    (h : s.session.Settled ∨ ¬ CheckpointNext s ∨ ConfirmsNext s) (hu : checkpointStep (countPush s) = some (u, b)) :
    b = false ∧ u.session.len = s.session.len ∧ u.session.pos = s.session.pos ∧ u.mag = s.mag := by
  rcases or_assoc.mpr h with hnone | hconf
  · cases (checkpointStep_of_no_checkpoint hfit hnone).symm.trans hu
    exact ⟨rfl, rfl, rfl, rfl⟩
  · rw [checkpointStep_of_confirms hfit hconf hlen] at hu
    obtain ⟨y, hy, he⟩ := Option.map_eq_some_iff.mp hu
    obtain ⟨-, rfl⟩ := confirm_eq_some.mp hy
    cases he
    exact ⟨rfl, rfl, rfl, rfl⟩

/-- A push that routes its vector and is accepted has room at that position (R134, R139). -/
theorem updateFits_of_tentativePush {s : State} {v : Tentative} {i : Fin 30} (hv : tentativePush s = some v)
    (hlen : s.session.len ≠ 0#5) (h : s.session.Settled ∨ ¬ CheckpointNext s ∨ ConfirmsNext s)
    (hi : i.val = s.session.seq.toNat % s.session.len.toNat) : UpdateFits s.session.pos[i] s.mag := by
  obtain ⟨hfit, u, b, hu, hr⟩ := tentativePush_eq_some.mp hv
  obtain ⟨rfl, hulen, hupos, humag⟩ := checkpointStep_of_no_adopt hfit hlen h hu
  rcases routeStep_cases hr with ⟨h0, -⟩ | ⟨-, f, hf, -⟩
  · exact absurd (hulen.symm.trans h0) hlen
  · rw [routedFile, hulen, hupos, humag, ← hi] at hf
    exact (updatePosition_eq_some.mp (updateAt_get_self hf i.isLt)).1

theorem tentativePush_counters {s : State} {v : Tentative} (h : tentativePush s = some v) : CountersFit s :=
  (tentativePush_eq_some.mp h).1

/-- Settles O45: each overflow contradicts what an accepted push had room for. -/
theorem overflowingPushIsRejected : Obligations.OverflowingPushIsRejected := by
  intro s i h
  refine execPush_of_none (Option.eq_none_iff_forall_ne_some.mpr fun v hv => ?_)
  obtain ⟨htotal, hseq⟩ := tentativePush_counters hv
  rcases h with h | h | ⟨hlen, hroute, hi, hover⟩ | ⟨hadopts, h6, hreplay⟩
  · omega
  · omega
  · obtain ⟨hsum, hcount⟩ := updateFits_of_tentativePush hv hlen hroute hi
    rcases hover with h | ⟨k, hk⟩
    · omega
    · exact absurd (hsum k) (not_lt.mpr hk)
  · cases (tentativePush_of_overflowing_replay hadopts (nextDetection_status_ok h6) hreplay).symm.trans hv

/-! ### Room -/

theorem updateFits_of_room {q : Position} {m : Mags}
    (h : q.count.toNat + 1 < 2 ^ 32 ∧ ∀ k : Fin 8, q.sum[k].toNat + 2 ^ 32 ≤ 2 ^ 64) : UpdateFits q m :=
  ⟨fun k => (Nat.add_lt_add_left m[k].isLt _).trans_le (h.2 k), h.1⟩

theorem nextHistory_length_lt_of_unbounded {s : State} (hcap : s.params.histCap = none)
    (h : s.session.hist.length + 1 < 2 ^ 32) : (nextHistory s).length < 2 ^ 32 := by
  have hlen : (nextHistory s).length = s.session.hist.length + 1 := by simp [hcap]
  exact hlen.trans_lt h

/-- The routing answers where it needs no update, and where the update fits. -/
theorem exists_routeStep {b : Bool} {j : Nat} {u : State} (hL : u.session.len.toNat ≤ 30)
    (h : b = true ∨ ∀ i : Fin 30, UpdateFits u.session.pos[i] u.mag) : ∃ v, routeStep b j u = some v := by
  by_cases hlen : u.session.len = 0#5
  · exact ⟨_, routeStep_of_no_length hlen⟩
  · cases b with
    | true => exact ⟨_, routeStep_of_file hlen rfl⟩
    | false =>
      have hfits := h.resolve_left Bool.false_ne_true
      have hpos : 0 < u.session.len.toNat := Nat.pos_of_ne_zero (toNat_len_ne_zero hlen)
      have hj : j % u.session.len.toNat < 30 := (Nat.mod_lt j hpos).trans_le hL
      exact ⟨_, routeStep_of_file hlen (routedFile_of_fits (i := ⟨_, hj⟩) rfl (hfits _))⟩

theorem Session.Inv.len_le {p : Params} {x : Session} (h : x.Inv p) : x.len.toNat ≤ 30 := by
  by_cases h0 : x.len = 0#5
  · simp [h0]
  · exact (h.len_range h0).2

/-- In a good state the detection step answers, if the replay of an adopt fits; and it leaves the routing room. -/
theorem exists_checkpointStep {s : State} (hinv : s.Inv) (hfit : CountersFit s)
    (hhist : (nextHistory s).length < 2 ^ 32) (hroom : ∀ i : Fin 30, UpdateFits s.session.pos[i] s.mag) :
    ∃ u b, checkpointStep (countPush s) = some (u, b) ∧
      (b = true ∨ ∀ i : Fin 30, UpdateFits u.session.pos[i] u.mag) := by
  by_cases hnone : s.session.Settled ∨ ¬ CheckpointNext s
  · exact ⟨_, _, checkpointStep_of_no_checkpoint hfit hnone, .inr hroom⟩
  · rw [not_or, not_not] at hnone
    obtain ⟨hfree, hc⟩ := hnone
    by_cases hadopts : AdoptsNext s
    · have hok := nextDetection_status_ok (s := s) (by have := sixty_le_nextHistory hinv hfit hc; omega)
      obtain ⟨f, hf⟩ := exists_nextReplay hok hhist
      refine ⟨adoptedPush s f, true, ?_, .inl rfl⟩
      rw [checkpointStep_of_adopts hfit hadopts hok, hf]
      rfl
    · have hconf : ConfirmsNext s := by
        cases hx : s.session.cycle with
        | searching => exact absurd ⟨hc, .inl hx⟩ hadopts
        | detecting => exact ⟨hx, hc, by_contra fun hne => hadopts ⟨hc, .inr ⟨hx, hne⟩⟩⟩
        | locked => exact absurd (.inl hx) hfree
        | confirmed => exact absurd (.inr hx) hfree
      exact ⟨_, _, checkpointStep_of_settled_or_confirms hinv hfit (.inr hconf), .inr hroom⟩

theorem exists_tentativePush {s : State} (hinv : s.Inv) (hfit : CountersFit s)
    (hhist : (nextHistory s).length < 2 ^ 32) (hroom : ∀ i : Fin 30, UpdateFits s.session.pos[i] s.mag) :
    ∃ v, tentativePush s = some v := by
  obtain ⟨u, b, hu, hr⟩ := exists_checkpointStep hinv hfit hhist hroom
  have huinv : u.Inv := State.inv_keptByOperations.kept_checkpointStep hu (hinv.count hfit)
  obtain ⟨v, hv⟩ := exists_routeStep (j := s.session.seq.toNat) huinv.session.len_le hr
  exact ⟨v, tentativePush_eq_some.mpr ⟨hfit, u, b, hu, hv⟩⟩

/-- Settles O46: SEQ has room because TOTAL has (R26, R27), and each store of the push fits. -/
theorem pushWithRoomIsAccepted : Obligations.PushWithRoomIsAccepted := by
  intro s hinv hunbounded htotal hroom
  have hfit : CountersFit s := ⟨htotal, (Nat.succ_le_succ hinv.seq_le_total).trans_lt htotal⟩
  have hhist : (nextHistory s).length < 2 ^ 32 := by
    by_cases hcap : s.params.histCap = none
    · exact nextHistory_length_lt_of_unbounded hcap (hunbounded hcap)
    · exact nextHistory_length_lt hinv hfit hcap
  obtain ⟨v, hv⟩ := exists_tentativePush hinv hfit hhist fun i => updateFits_of_room (hroom i)
  have hsum : (s.total + 1).toNat = s.total.toNat + 1 := by bv_omega
  have hovf : v.state.errOvf = s.errOvf := (congrArg State.errOvf (tentativePush_frame hv) :)
  refine ⟨respond .ok v.resetEvent v.copyAppended v.state, v.resetEvent, v.copyAppended, ?_, rfl, rfl, ?_, hovf⟩
  · show execPush s = _
    rw [execPush, hv]
  · rw [respond_total, (tentativePush_total_det hv).1, hsum]

end Sys2Proof.Machine
end

section
/-! PROOFS. The boundaries of settled sessions: ring, copy and collapse (R142..R144, R34). -/

namespace Sys2Proof.Machine

/-! ### The state after the ring step -/

/-- A settled boundary push after the ring step: what copy and collapse then look at (R142). -/
def boundaryPush (s : State) (i : Fin 30) : State :=
  { s with
    total := s.total + 1
    session := { s.session with
      cycle := if s.session.cycle = .detecting then .locked else s.session.cycle
      confCnt := 2#2
      hist := nextHistory s
      seq := s.session.seq + 1
      pos := nextFile s i
      ring := nextRing s i
      meanConf := BitVec.ofNat 17 (nextMean s i) }
    det := nextDet s }

theorem ringStep_settledPush (s : State) (i : Fin 30) :
    ringStep (withRouted (nextFile s i) (settledPush s)) = boundaryPush s i := by
  rw [ringStep, appendBounded_some]
  rfl

theorem boundaryPush_settled {s : State} (h : s.session.Settled ∨ ConfirmsNext s) (i : Fin 30) :
    (boundaryPush s i).session.Settled := by
  have hcycle : (boundaryPush s i).session.cycle =
      if s.session.cycle = .detecting then .locked else s.session.cycle := rfl
  rcases h with hset | ⟨hx, -⟩
  · rw [if_neg hset.ne_detecting] at hcycle
    exact hset.congr hcycle.symm
  · rw [if_pos hx] at hcycle
    exact .inl hcycle

/-! ### The copy (R143) -/

/-- The comparison of texts, with the last record's length and characters written out (R143). -/
theorem textIsNew_boundaryPush {s : State} (hinv : s.Inv) (i : Fin 30) :
    TextIsNew (boundaryPush s i) ↔ ∀ r ∈ s.copies.log.getLast?, ¬ SameTextNext s i r := by
  refine forall₂_congr fun r hr => not_congr ?_
  have hr30 := (hinv.records r (List.mem_of_getLast? hr)).len_range.2
  refine (cycleText_eq_take_iff hinv.session.len_le hr30).trans ?_
  rw [SameTextNext, BitVec.toNat_inj]
  rfl

theorem copyDue_boundaryPush {s : State} (hinv : s.Inv) {i : Fin 30} (h : (boundaryPush s i).session.Settled) :
    CopyDue (boundaryPush s i) ↔ CopyDueNext s i :=
  (and_iff_right h).trans (and_congr_right fun _ => and_congr_right fun _ => textIsNew_boundaryPush hinv i)

theorem appendCopy_boundaryPush (s : State) (i : Fin 30) :
    appendCopy (boundaryPush s i) =
      { boundaryPush s i with copies := nextCopies s i, session.cycle := .confirmed } := by
  rw [appendCopy, appendBounded_some]
  rfl

/-! ### The collapse (R144) -/

/-- Neither the copy nor anything after the ring step changes what the collapse looks at but STATE, which stays
settled. -/
theorem collapseDue_iff {s u : State} {i : Fin 30} (hset : u.session.Settled) (hinst : u.inst = s.inst)
    (hpos : u.session.pos = nextFile s i) (hlen : u.session.len = s.session.len)
    (hring : u.session.ring = nextRing s i) : CollapseDue u ↔ CollapseDueNext s i := by
  rw [CollapseDue, lastMeansLow_iff, State.params, hinst, hpos, hlen, hring]
  exact and_iff_right hset

/-! ### The whole push -/

/-- A settled boundary push: the copy step leaves `u`, and the collapse clears it or not (R142..R144). -/
theorem execPush_of_copyStep {s u : State} {i : Fin 30} {c : Bool} (hinv : s.Inv) (hb : SettledBoundary s i)
    (hcopy : copyStep (boundaryPush s i) = (u, c)) (hcollapse : CollapseDue u ↔ CollapseDueNext s i) :
    (CollapseDueNext s i →
      execPush s = .next (respond .ok (some ⟨.collapse, 0#8⟩) c (softReset .collapse 0#8 u))) ∧
    (¬ CollapseDueNext s i → execPush s = .next (respond .ok none c u)) := by
  have hlen : s.session.len ≠ 0#5 := hinv.session.len_ne_zero <| by
    rcases hb.settled with hset | ⟨hx, -⟩
    · exact hset.ne_searching
    · simp [hx]
  have hu := checkpointStep_of_settled_or_confirms hinv hb.counters hb.settled
  have hpush := execPush_of_boundary (u := settledPush s) hb.counters hu hlen hb.position hb.update ⟨hlen, hb.boundary⟩
  obtain ⟨v, d, hv, hend⟩ := endOfCycle_cases (withRouted (nextFile s i) (settledPush s))
  rw [ringStep_settledPush] at hv
  cases hcopy.symm.trans hv
  have hfile : nextFile (settledPush s) i = nextFile s i := rfl
  rw [hfile] at hpush
  rcases hend with ⟨hdue, he⟩ | ⟨hdue, he⟩
  · rw [he] at hpush
    exact ⟨fun _ => hpush, fun hn => absurd (hcollapse.mp hdue) hn⟩
  · rw [he] at hpush
    exact ⟨fun hd => absurd (hcollapse.mpr hd) hdue, fun _ => hpush⟩

/-- The settled boundary push that appends a record. -/
theorem execPush_of_copy {s : State} {i : Fin 30} (hinv : s.Inv) (hb : SettledBoundary s i) (hcopy : CopyDueNext s i) :
    (CollapseDueNext s i → execPush s = .next (respond .ok (some ⟨.collapse, 0#8⟩) true
      (softReset .collapse 0#8
        { boundaryPush s i with copies := nextCopies s i, session.cycle := .confirmed }))) ∧
    (¬ CollapseDueNext s i → execPush s = .next (respond .ok none true
      { boundaryPush s i with copies := nextCopies s i, session.cycle := .confirmed })) := by
  have hset := boundaryPush_settled hb.settled i
  have hstep : copyStep (boundaryPush s i) = (appendCopy (boundaryPush s i), true) :=
    if_pos ((copyDue_boundaryPush hinv hset).mpr hcopy)
  rw [appendCopy_boundaryPush] at hstep
  exact execPush_of_copyStep hinv hb hstep (collapseDue_iff (.inr rfl) rfl rfl rfl rfl)

/-- The settled boundary push that appends none. -/
theorem execPush_of_no_copy {s : State} {i : Fin 30} (hinv : s.Inv) (hb : SettledBoundary s i)
    (hcopy : ¬ CopyDueNext s i) :
    (CollapseDueNext s i → execPush s = .next (respond .ok (some ⟨.collapse, 0#8⟩) false
      (softReset .collapse 0#8 (boundaryPush s i)))) ∧
    (¬ CollapseDueNext s i → execPush s = .next (respond .ok none false (boundaryPush s i))) := by
  have hset := boundaryPush_settled hb.settled i
  have hstep : copyStep (boundaryPush s i) = (boundaryPush s i, false) :=
    if_neg (mt (copyDue_boundaryPush hinv hset).mp hcopy)
  exact execPush_of_copyStep hinv hb hstep (collapseDue_iff hset rfl rfl rfl rfl)

/-- Settles O42, by whether a copy is due and whether the boundary collapses. -/
theorem boundaryAppendsCopyExactlyWhenDue : Obligations.BoundaryAppendsCopyExactlyWhenDue := by
  intro s i hinv hb
  refine ⟨?_, fun hcollapse => ⟨fun hcopy => (execPush_of_copy hinv hb hcopy).2 hcollapse,
    fun hcopy => (execPush_of_no_copy hinv hb hcopy).2 hcollapse⟩⟩
  by_cases hcopy : CopyDueNext s i
  · obtain ⟨hdue, hnot⟩ := execPush_of_copy hinv hb hcopy
    by_cases hcollapse : CollapseDueNext s i
    · exact ⟨_, _, _, hdue hcollapse, rfl, iff_of_true rfl hcopy, fun _ => rfl, fun hn => absurd hcopy hn⟩
    · exact ⟨_, _, _, hnot hcollapse, rfl, iff_of_true rfl hcopy, fun _ => rfl, fun hn => absurd hcopy hn⟩
  · obtain ⟨hdue, hnot⟩ := execPush_of_no_copy hinv hb hcopy
    by_cases hcollapse : CollapseDueNext s i
    · exact ⟨_, _, _, hdue hcollapse, rfl, iff_of_false nofun hcopy, fun hd => absurd hd hcopy, fun _ => rfl⟩
    · exact ⟨_, _, _, hnot hcollapse, rfl, iff_of_false nofun hcopy, fun hd => absurd hd hcopy, fun _ => rfl⟩

/-- Settles O43, by the same two conditions. -/
theorem lowWindowCollapses : Obligations.LowWindowCollapses := by
  intro s i hinv hb
  refine ⟨fun hcollapse => ⟨fun hcopy => (execPush_of_copy hinv hb hcopy).1 hcollapse,
    fun hcopy => (execPush_of_no_copy hinv hb hcopy).1 hcollapse⟩, fun hcollapse => ?_⟩
  by_cases hcopy : CopyDueNext s i
  · exact ⟨_, true, (execPush_of_copy hinv hb hcopy).2 hcollapse, rfl, rfl, rfl, rfl, .inr rfl⟩
  · exact ⟨_, false, (execPush_of_no_copy hinv hb hcopy).2 hcollapse, rfl, rfl, rfl, rfl,
      boundaryPush_settled hb.settled i⟩

end Sys2Proof.Machine
end

section
/-! PROOFS. The control commands and the step at a pending CMD write (R170..R173, R175). -/

namespace Sys2Proof.Machine

/-! ### The words (R71, R172, R173) -/

/-- Without gate request, `OP` and `IMM8` are the only fields of a command word that can be set. -/
theorem commandWord_ungated (op : BitVec 4) (imm8 : Byte) :
    commandWord op false imm8 = op.setWidth 32 ||| imm8.setWidth 32 <<< 8 := by
  simp [commandWord]

theorem encode_reset (code : Byte) : encode (.reset code) = 0x3#32 ||| code.setWidth 32 <<< 8 :=
  commandWord_ungated 0x3#4 code

theorem encode_setPhase (phase : Byte) : encode (.setPhase phase) = 0x4#32 ||| phase.setWidth 32 <<< 8 :=
  commandWord_ungated 0x4#4 phase

/-! ### The commands (R170, R172, R173) -/

theorem exec_nop (s : State) : exec .nop s =
    .next { s with lastResult := .ok, out := .response ⟨.ok, none, false⟩ } := rfl

/-- RESET is SOFT_RESET (R171) and its response: the session goes, the event is counted and recorded. -/
theorem exec_reset (code : Byte) (s : State) : exec (.reset code) s = .next { s with
    session := Session.initial, resetEvents := s.resetEvents + 1, lastReset := ⟨true, .manual, code⟩
    lastResult := .ok, out := .response ⟨.ok, some ⟨.manual, code⟩, false⟩ } := rfl

theorem exec_setPhase (phase : Byte) (s : State) : exec (.setPhase phase) s =
    .next { s with phase := phase, lastResult := .ok, out := .response ⟨.ok, none, false⟩ } := rfl

/-- Settles O48: the word 0 is the encoder's, and the whole next state is `exec_nop`. -/
theorem nopCompletes : Obligations.NopCompletes := ⟨decode_encode .nop, exec_nop⟩

/-- Settles O49: the word is the encoder's, and the cleared values are those of the model's definitions. -/
theorem resetCompletes : Obligations.ResetCompletes := by
  refine ⟨fun code => ?word, rfl, rfl, rfl, fun s code => exec_reset code s⟩
  case word => rw [← encode_reset, decode_encode]

/-- Settles O50: the word is the encoder's, and the whole next state is `exec_setPhase`. -/
theorem setPhaseCompletes : Obligations.SetPhaseCompletes := by
  refine ⟨fun phase => ?word, fun s phase => exec_setPhase phase s⟩
  case word => rw [← encode_setPhase, decode_encode]

/-! ### The step at a CMD write (R175) -/

theorem executeWord_of_decode_ok {w : Word} {i : Instr} (h : decode w = .ok i) (s : State) :
    executeWord w s = exec i s := by
  simp only [executeWord, h]

/-- A pending CMD write is served by executing its word. -/
theorem step_of_cmd {s : State} {w : Word} {rest : List HostEvent} (h : s.pending = .write 0x20 4 w :: rest) :
    step s = executeWord w { s with pending := rest } := by
  rw [step_of_write h (by decide), busWrite_cmd]

/-- Settles O5: the write of CMD is served by executing its word, and a word that decodes runs its command. -/
theorem stepRunsDecodedCommand : Obligations.StepRunsDecodedCommand := fun _ _ _ hpending =>
  ⟨step_of_cmd hpending, fun _ hdecode => (step_of_cmd hpending).trans (executeWord_of_decode_ok hdecode _)⟩

end Sys2Proof.Machine
end

section
/-! PROOFS. Errors and precedence: copy against collapse, the sticky bits, and the idle step (R190, R194, R197,
R203). -/

namespace Sys2Proof.Machine

/-! ### Copy and collapse in one push (R142..R144, R194) -/

/-- A mean of 17-bit confidences has 17 bits, so the ring holds it whole (R31, R141). -/
theorem cycleMean_lt (f : PosFile) (L : Nat) : cycleMean f L < 2 ^ 17 := by
  simp only [cycleMean]
  split
  · decide
  · refine Nat.lt_succ_of_le ?_
    rw [← List.length_map (fun q : Position => q.conf.toNat)]
    refine sum_div_length_le fun x hx => ?_
    obtain ⟨q, -, rfl⟩ := List.mem_map.mp hx
    exact Nat.le_of_lt_succ q.conf.isLt

/-- A window of low means that is not empty reaches the newest entry of the ring (R144). -/
theorem newest_lt_of_lastMeansLow {p : Params} {cap : Option Nat} {ring : List Q16} {q : Q16}
    (hwindow : 1 ≤ p.collapseWindow) (hlow : lastMeansLow p (appendBounded cap ring q) = true) :
    q.toNat < p.collapseTh := by
  refine lastMeansLow_iff.mp hlow q ?_
  have hlength : 0 < (appendBounded cap ring q).length := List.length_pos_of_ne_nil (appendBounded_ne_nil cap ring q)
  have hlast : ((appendBounded cap ring q).drop
      ((appendBounded cap ring q).length - p.collapseWindow)).getLast? = some q := by
    rw [List.getLast?_drop, if_neg (by omega), appendBounded_getLast?]
  exact List.mem_of_getLast? hlast

theorem State.one_le_collapseWindow (s : State) : 1 ≤ s.params.collapseWindow := by
  obtain ⟨-, -, -, -, hwindow, -⟩ := s.inst.property
  exact hwindow

/-- The mean that a boundary puts into the ring is below `COLLAPSE_TH` when it collapses, after a copy too (R144). -/
theorem cycleMean_lt_of_collapseDue {s u : State} (hinst : u.inst = s.inst)
    (hring : u.session.ring = (ringStep s).session.ring) (h : CollapseDue u) :
    cycleMean s.session.pos s.session.len.toNat < s.params.collapseTh := by
  obtain ⟨-, -, -, hlow⟩ := h
  rw [State.params, hinst, hring] at hlow
  have hmean := newest_lt_of_lastMeansLow s.one_le_collapseWindow hlow
  rwa [BitVec.toNat_ofNat, Nat.mod_eq_of_lt (cycleMean_lt _ _)] at hmean

/-- A copy needs a mean from `COPY_TH` on and a collapse one below `COLLAPSE_TH`, so no end of cycle reports both. -/
theorem endOfCycle_no_collapse_of_copied {s : State} (hth : s.params.collapseTh ≤ s.params.copyTh)
    (hcopied : (endOfCycle s).copyAppended = true) : (endOfCycle s).resetEvent = none := by
  obtain ⟨u, c, hcopy, ⟨hcollapse, he⟩ | ⟨-, he⟩⟩ := endOfCycle_cases s
  · rw [he] at hcopied
    rcases copyStep_cases (ringStep s) with ⟨⟨-, hmean, -⟩, hc⟩ | ⟨-, hc⟩
    · cases hc.symm.trans hcopy
      have hlow := cycleMean_lt_of_collapseDue (s := s) (u := appendCopy (ringStep s)) rfl rfl hcollapse
      exact absurd (hth.trans hmean) hlow.not_ge
    · cases hc.symm.trans hcopy
      cases hcopied
  · rw [he]

theorem routeStep_no_collapse_of_copied {b : Bool} {j : Nat} {s : State} {t : Tentative}
    (hth : s.params.collapseTh ≤ s.params.copyTh) (h : routeStep b j s = some t) (hcopied : t.copyAppended = true) :
    t.resetEvent = none := by
  rcases routeStep_cases h with ⟨-, rfl⟩ | ⟨-, f, -, ⟨-, rfl⟩ | ⟨-, rfl⟩⟩
  · rfl
  · exact endOfCycle_no_collapse_of_copied (s := withRouted f s) hth hcopied
  · rfl

/-- Settles O44: only the end of a cycle reports a copy or a collapse, and both conditions read the same mean. -/
theorem copyAndCollapseAreExclusive : Obligations.CopyAndCollapseAreExclusive := by
  intro s t hth h e hout
  rcases execPush_cases s with ⟨v, hv, hx⟩ | ⟨-, hx⟩
  · cases hx.symm.trans h
    simp only [respond_out, HostOutput.response.injEq, Response.mk.injEq, true_and] at hout
    obtain ⟨hevent, hcopied⟩ := hout
    obtain ⟨-, u, b, hu, hr⟩ := tentativePush_eq_some.mp hv
    have hinst : u.inst = s.inst := by rw [checkpointStep_frame hu]; rfl
    have hnone := routeStep_no_collapse_of_copied (by rwa [State.params, hinst]) hr hcopied
    exact nomatch hevent.symm.trans hnone
  · cases hx.symm.trans h
    cases hout

/-! ### The sticky bits (R190, R197) -/

/-- No sticky bit that is set in `s` is clear in `t` (R197). -/
def KeepsStickyBits (s t : State) : Prop :=
  (s.errIll = true → t.errIll = true) ∧ (s.errOvf = true → t.errOvf = true) ∧
    (s.errBus = true → t.errBus = true)

theorem KeepsStickyBits.refl (s : State) : KeepsStickyBits s s := ⟨id, id, id⟩

theorem keepsStickyBits_raiseError (e : BlockError) (s : State) : KeepsStickyBits s (raiseError e s) :=
  raiseError_sticky s e

/-- An accepted push leaves the bits alone, and a rejected one sets `ERR_OVF` (R134, R136). -/
theorem execPush_keepsStickyBits {s t : State} (h : execPush s = .next t) : KeepsStickyBits s t := by
  rcases execPush_cases s with ⟨v, hv, hx⟩ | ⟨-, hx⟩
  · cases hx.symm.trans h
    rw [tentativePush_frame hv]
    exact .refl s
  · cases hx.symm.trans h
    exact keepsStickyBits_raiseError .pushOverflow s

theorem exec_keepsStickyBits {i : Instr} {s t : State} (h : exec i s = .next t) : KeepsStickyBits s t := by
  cases i with
  | push => exact execPush_keepsStickyBits h
  | nop => cases h; exact .refl s
  | decode => cases h; exact .refl s
  | decodeG => cases h; exact .refl s
  | reset code => cases h; exact .refl s
  | setPhase phase => cases h; exact .refl s
  | detect => cases h; exact .refl s

theorem busRead_keepsStickyBits (off size : Nat) (s : State) : KeepsStickyBits s (busRead off size s) := by
  unfold busRead
  split
  · exact keepsStickyBits_raiseError .busError s
  · exact .refl s

theorem busWrite_keepsStickyBits {off size : Nat} {v : Word} {s t : State} (h : busWrite off size v s = .next t) :
    KeepsStickyBits s t := by
  rcases busWrite_next_cases h with rfl | ⟨m, rfl⟩ | ⟨i, -, hi⟩ | ⟨e, -, rfl⟩
  · exact keepsStickyBits_raiseError .busError s
  · exact .refl s
  · exact exec_keepsStickyBits hi
  · exact keepsStickyBits_raiseError .illegalCommand s

/-- Settles O54, by the cases of a step: a read and a write keep the bits, and hardware reset is excluded. -/
theorem stickyBitsOnlyClearAtHardwareReset : Obligations.StickyBitsOnlyClearAtHardwareReset := by
  intro s t h hreset
  rcases step_cases h with ⟨-, rfl⟩ | ⟨e, rest, hpending, he⟩
  · exact KeepsStickyBits.refl t
  · rcases perform_cases he with ⟨off, size, -, -, rfl⟩ | ⟨off, size, v, -, -, hw⟩ | ⟨rfl, -⟩
    · exact (busRead_keepsStickyBits off size { s with pending := rest } :)
    · exact (busWrite_keepsStickyBits hw :)
    · exact absurd hpending (hreset rest)

/-! ### The idle step (R203) -/

/-- Settles O6: the step serves the oldest pending event, and there is none. -/
theorem idleStepHolds : Obligations.IdleStepHolds := fun _ hpending => serveNext_nil hpending

end Sys2Proof.Machine
end

section
/-! PROOFS. Hardware reset: the state it leaves, register by register, and the invariants that state meets (R210, R211,
R40). -/

namespace Sys2Proof.Machine

/-- A pending hardware reset is served like any other event: it is taken off and performed on what is left. -/
theorem step_of_hardwareReset {s : State} {rest : List HostEvent} (h : s.pending = .hardwareReset :: rest) :
    step s = .next (hardwareReset { s with pending := rest }) := step_of_pending h

/-- Settles O51: the step performs the reset, which is the reset state of the instance but for the events still pending;
its groups of registers are the initial ones of R30, R36, R37 and R171, written out. -/
theorem hardwareResetGivesTheTable : Obligations.HardwareResetGivesTheTable := by
  intro s rest hpending
  rw [step_of_hardwareReset hpending, hardwareReset_eq]
  rfl

/-- No length is held and nothing is locked in the cleared session, so no push is owed yet (R149, R217). -/
theorem Session.initial_latencyInv : LatencyInv Session.initial :=
  ⟨fun hheld => absurd rfl hheld, fun hset => absurd rfl hset.ne_searching⟩

/-- Settles O60: each invariant holds of the reset state, the ones on the session because it is the cleared one. -/
theorem resetMeetsTheInvariants : Obligations.ResetMeetsTheInvariants := fun inst =>
  ⟨State.resetOf_inv inst, Session.initial_countsAtLeastTwo, Session.initial_latencyInv,
    State.resetOf_confBounded inst⟩

end Sys2Proof.Machine
end
